-- ==== Sys2Proof/Word.lean ====
section
/-! DEFINITION. The integer types of spec/00_scope.md R18: unsigned words of fixed width, bit 0 least significant. Nothing of this
block is signed. `+`, `-`, `*`, `^^^`, `&&&`, `|||`, `<<<`, `>>>` of `BitVec` are the operators of R19 (modulo 2^N, logical right
shift), and `<` of `BitVec` is the unsigned comparison. -/

namespace Sys2Proof

/-- u8 (R18). -/
abbrev U8 := BitVec 8
/-- u32 (R18). -/
abbrev U32 := BitVec 32
/-- u64 (R18): every host-visible register and every BUF entry. -/
abbrev U64 := BitVec 64

end Sys2Proof
end

