-- ==== Sys2Proof/Config.lean ====
section
/-! DEFINITION. What is fixed per instance: the engine kinds, the parameter record of spec/00_scope.md R7-R17, its reference values,
and the free values (constants without a body) for what the spec leaves open. -/

namespace Sys2Proof

/-- The seven engine kinds, in the order of their KIND codes 0-6 (R3). -/
inductive Kind where
  | cmwc
  | xrsr128p
  | xrsr128ps
  | xrsr128pss
  | xrsr128psss
  | xsh128p
  | xsh1024s
deriving DecidableEq, Repr, Inhabited

/-- HOST_BYTE_ORDER's two values (R17). -/
inductive ByteOrder where
  | little
  | big
deriving DecidableEq, Repr, Inhabited

/-- The build-time parameters of one instance (R7-R17; BASE is 20_memory.md R70). Their legal ranges are `Params.wf`. -/
structure Params where
  /-- KIND (R3, R7) -/
  kind : Kind
  /-- BUF_WORDS (R7) -/
  bufWords : Nat
  /-- DEFAULT_SEED (R7), never 0 -/
  defaultSeed : U64
  /-- HOST_BYTE_ORDER (R17): no rule of the block depends on it -/
  hostByteOrder : ByteOrder
  /-- BASE (20_memory.md R70) -/
  base : Nat
  /-- CMWC_N, CMWC_A, CMWC_CMAX, CMWC_COMPL (R8) -/
  cmwcN : Nat
  cmwcA : U64
  cmwcCmax : Nat
  cmwcCompl : Bool
  /-- SMX_COUNT (R10) -/
  smxCount : Nat
  /-- H64_MULT, H32_MULT (R11) -/
  h64Mult : U64
  h32Mult : U32
  /-- GOLDEN, M_SHIXO (R12) -/
  golden : U64
  mShixo : U64
  /-- the seed-mixer constants (R13) -/
  smxInitA : U32
  smxMultA : U32
  smxInitB : U32
  smxMultB : U32
  smxMixL : U32
  smxMixR : U32
  smxXshift : Nat
  /-- the xorshift shift counts and multiplier (R14) -/
  xsh128A : Nat
  xsh128B : Nat
  xsh128C : Nat
  xsh1024A : Nat
  xsh1024B : Nat
  xsh1024C : Nat
  xsh1024Mult : U64
  /-- the jump tables (R15) -/
  xrsrJump : List U64
  xsh128Jump : List U64
  xsh1024Jump : List U64
deriving DecidableEq, Repr

/-- STATE_WORDS, derived from KIND (R7): N+1 for CMWC, 2 for kinds 1-5, 16 for XSH1024S. -/
def Params.stateWords (c : Params) : Nat :=
  match c.kind with
  | .cmwc => c.cmwcN + 1
  | .xrsr128p | .xrsr128ps | .xrsr128pss | .xrsr128psss | .xsh128p => 2
  | .xsh1024s => 16

/-- How many Q words the instance has: N when KIND = CMWC, none otherwise (10_state.md R47). -/
def Params.qWords (c : Params) : Nat :=
  match c.kind with
  | .cmwc => c.cmwcN
  | .xrsr128p | .xrsr128ps | .xrsr128pss | .xrsr128psss | .xsh128p | .xsh1024s => 0

/-- OPEN (R7, D35): which non-zero u64 DEFAULT_SEED is, as DEFAULT_SEED - 1. A free value: no proof can see it. -/
opaque Config.defaultSeedPred : Fin 0xFFFFFFFFFFFFFFFF

/-- OPEN (R17, D34): the host's byte order. A free value. -/
opaque Config.hostByteOrder : ByteOrder

/-- OPEN (20_memory.md R70, D2): the platform's base address. A free value. -/
opaque Config.base : Nat

/-- The n-th free 64-bit value: what a host read of RESULT or BUF returns while BUSY = 1 (70_reset_and_hazards.md R316). -/
opaque Config.freeRead : Nat → U64

/-- XRSR_JUMP (R15). PRESUMED (the spec's general knowledge, GK9). -/
def Config.xrsrJump : List U64 := [0xBEAC0467EBA5FACB, 0xD86B048B86AA9922]

/-- XSH128_JUMP (R15). PRESUMED (GK9). -/
def Config.xsh128Jump : List U64 := [0x8A5CD789635D2DFF, 0x121FD2155C472F96]

/-- XSH1024_JUMP (R15). PRESUMED (GK9). -/
def Config.xsh1024Jump : List U64 :=
  [0x84242F96ECA9C41D, 0xA3C65B8776F96855, 0x5B34A39F070B5837, 0x4489AFFCE4F31A1E] ++
  [0x2FFEEB0A48316F40, 0xDC2D9891FE68C022, 0x3659132BB12FEA70, 0xAAC17D8EFA43CAB8] ++
  [0xC4CB815590989B13, 0x5EE975283D71C93B, 0x691548C86C1BD540, 0x7910C41D10A1E6A5] ++
  [0x0B5FC64563B3E2A8, 0x047F7684E9FC949D, 0xB99181F2D8F685CA, 0x284600E3F30E38C3]

/-- The parameters with the spec's reference values (R7-R15), an instance's KIND and the three OPEN values given. CMWC is the
reference instantiation CMWC4096 (R9). PRESUMED (GK1-GK9): log 4. COUNT = 4 is a DESIGN CHOICE: log 2. -/
def Config.referenceWith (kind : Kind) (seed : U64) (order : ByteOrder) (base : Nat) : Params where
  kind := kind
  bufWords := 8192
  defaultSeed := seed
  hostByteOrder := order
  base := base
  cmwcN := 4096
  cmwcA := 18782
  cmwcCmax := 809430660
  cmwcCompl := true
  smxCount := 4
  h64Mult := 0xD6E8FEB86659FD93
  h32Mult := 0x045D9F3B
  golden := 0x9E3779B97F4A7C15
  mShixo := 0xD6E8FEB86659FD93
  smxInitA := 0x43B0D7E5
  smxMultA := 0x931E8875
  smxInitB := 0x8B51F9DD
  smxMultB := 0x58F38DED
  smxMixL := 0xCA01F9DD
  smxMixR := 0x4973F715
  smxXshift := 16
  xsh128A := 23
  xsh128B := 18
  xsh128C := 5
  xsh1024A := 31
  xsh1024B := 11
  xsh1024C := 30
  xsh1024Mult := 0x106689D45497FDB5
  xrsrJump := Config.xrsrJump
  xsh128Jump := Config.xsh128Jump
  xsh1024Jump := Config.xsh1024Jump

/-- The instance of `State.reset`. DESIGN CHOICE (log 2): KIND = XRSR128P. The OPEN parameters are free values (log 3). -/
def Config.reference : Params :=
  Config.referenceWith .xrsr128p (BitVec.ofNat 64 (Config.defaultSeedPred.val + 1)) Config.hostByteOrder Config.base

end Sys2Proof
end

