-- ==== Sys2Proof/Syntax.lean ====
section
/-! DEFINITION. The commands of the block, one constructor per row of spec/opcode_table.json (30_encoding.md R96). LEN is a count
of BUF entries, a natural number (R93); its range 0..65535 is `Instr.wellFormed`. Every other operand is implicit (R99). -/

namespace Sys2Proof

inductive Instr where
  /-- ENG.SEEDDEF (44_engine_commands.md R232) -/
  | engSeeddef
  /-- ENG.SEED (R233) -/
  | engSeed
  /-- ENG.SEEDMIX (R234) -/
  | engSeedmix
  /-- ENG.SEEDBUF LEN (R235) -/
  | engSeedbuf (len : Nat)
  /-- ENG.NEXT (R236) -/
  | engNext
  /-- ENG.GEN LEN (R237) -/
  | engGen (len : Nat)
  /-- ENG.DISCARD (R238) -/
  | engDiscard
  /-- ENG.JUMP (R239) -/
  | engJump
  /-- ENG.SAVE (R240) -/
  | engSave
  /-- ENG.LOAD LEN (R241) -/
  | engLoad (len : Nat)
  /-- ENG.EQ LEN (R242) -/
  | engEq (len : Nat)
  /-- SMX.SEED LEN (41_seed_mixer.md R142) -/
  | smxSeed (len : Nat)
  /-- SMX.GEN LEN (R143) -/
  | smxGen (len : Nat)
  /-- SMX.PARAM (R144) -/
  | smxParam
  /-- HSH.H64 (40_hash.md R115) -/
  | hshH64
  /-- HSH.H32 (R116) -/
  | hshH32
  /-- CTL.NOP (45_control_commands.md R270) -/
  | ctlNop
  /-- CTL.CLRERR (R271) -/
  | ctlClrerr
  /-- CTL.RESET (R272) -/
  | ctlReset
deriving DecidableEq, Repr

end Sys2Proof
end

