-- ==== Sys2Proof/WellFormed.lean ====
section
/-! DEFINITION. Which commands the encoding admits (30_encoding.md R93) and which parameter records an instance may have
(00_scope.md R7-R15, 42_cmwc.md R160). -/

namespace Sys2Proof

/-- LEN is a 16-bit count (R93). -/
def Instr.wellFormed (i : Instr) : Bool :=
  match i with
  | .engSeedbuf len | .engGen len | .engLoad len | .engEq len | .smxSeed len | .smxGen len => decide (len ≤ 65535)
  | .engSeeddef | .engSeed | .engSeedmix | .engNext | .engDiscard | .engJump | .engSave | .smxParam | .hshH64 | .hshH32
  | .ctlNop | .ctlClrerr | .ctlReset => true

/-- A multiplier the spec requires to be odd (R11-R13). -/
def isOdd {n : Nat} (v : BitVec n) : Bool := v.getLsbD 0

/-- A shift count of R19: strictly between 0 and the width. -/
def isShift (k : Nat) : Bool := decide (0 < k) && decide (k < 64)

/-- A CMWC instance is well formed when N is a power of two with 4 ≤ N ≤ 4096 and 1 ≤ CMAX ≤ 2^32 (R8, 42_cmwc.md R160). The CMWC
parameters are "used only when KIND = CMWC", so other kinds put no condition on them. -/
def Params.cmwcWf (c : Params) : Bool :=
  c.kind != .cmwc ||
    (decide (c.cmwcN = 2 ^ Nat.log2 c.cmwcN) && decide (4 ≤ c.cmwcN) && decide (c.cmwcN ≤ 4096) &&
      decide (1 ≤ c.cmwcCmax) && decide (c.cmwcCmax ≤ 4294967296))

/-- R7: STATE_WORDS ≤ BUF_WORDS, COUNT ≤ BUF_WORDS ≤ 65535; DEFAULT_SEED is not zero; R10: COUNT ≥ 1. -/
def Params.sizesWf (c : Params) : Bool :=
  decide (c.stateWords ≤ c.bufWords) && decide (c.smxCount ≤ c.bufWords) && decide (c.bufWords ≤ 65535) &&
    decide (1 ≤ c.smxCount) && decide (c.defaultSeed ≠ 0)

/-- R11, R12, R13: the odd constants, and SMX_XSHIFT = 16, half of 32. -/
def Params.multsWf (c : Params) : Bool :=
  isOdd c.h64Mult && isOdd c.h32Mult && isOdd c.golden && isOdd c.mShixo && isOdd c.smxMultA && isOdd c.smxMultB &&
    isOdd c.smxMixL && isOdd c.smxMixR && decide (c.smxXshift = 16)

/-- R14, R19: shift counts between 0 and 64; R15: tables of 2, 2 and 16 words. -/
def Params.xshWf (c : Params) : Bool :=
  isShift c.xsh128A && isShift c.xsh128B && isShift c.xsh128C && isShift c.xsh1024A && isShift c.xsh1024B &&
    isShift c.xsh1024C && decide (c.xrsrJump.length = 2) && decide (c.xsh128Jump.length = 2) &&
    decide (c.xsh1024Jump.length = 16)

/-- The parameter record is one the spec admits. -/
def Params.wf (c : Params) : Bool := c.cmwcWf && c.sizesWf && c.multsWf && c.xshWf

end Sys2Proof
end

