-- ==== Sys2Proof/Decode.lean ====
section
/-! DEFINITION. The command encoding of spec/30_encoding.md: decoding, total on every 64-bit value written to CMD (R97, R103), and the
encoder, written from the same format (R91) and opcode map (R96). -/

namespace Sys2Proof

/-- Why a latched value is not a command (R98). The block reports all of them as ERR_ILLEGAL (R97). -/
inductive Illegal where
  /-- bits 63:32 are not zero (R90) -/
  | highBits
  /-- RSV, bits 15:8, is not zero (R95) -/
  | rsv
  /-- OPC is not in DEFINED (R97) -/
  | opcode
  /-- LEN is not zero on a command outside LENSET (R94) -/
  | len
deriving DecidableEq, Repr

/-- A row of the opcode map: a command without LEN, or one that takes it. -/
inductive OpForm where
  | plain (i : Instr)
  | sized (mk : Nat → Instr)

/-- The opcode map R96: DEFINED and LENSET of R97. -/
def opForm (opc : U8) : Option OpForm :=
  match opc.toNat with
  | 0x00 => some (.plain .engSeeddef)
  | 0x01 => some (.plain .engSeed)
  | 0x02 => some (.plain .engSeedmix)
  | 0x03 => some (.sized .engSeedbuf)
  | 0x04 => some (.plain .engNext)
  | 0x05 => some (.sized .engGen)
  | 0x06 => some (.plain .engDiscard)
  | 0x07 => some (.plain .engJump)
  | 0x08 => some (.plain .engSave)
  | 0x09 => some (.sized .engLoad)
  | 0x0A => some (.sized .engEq)
  | 0x40 => some (.sized .smxSeed)
  | 0x41 => some (.sized .smxGen)
  | 0x42 => some (.plain .smxParam)
  | 0x80 => some (.plain .hshH64)
  | 0x81 => some (.plain .hshH32)
  | 0xC0 => some (.plain .ctlNop)
  | 0xC1 => some (.plain .ctlClrerr)
  | 0xC2 => some (.plain .ctlReset)
  | _ => none

/-- OPC, bits 7:0 (R91). -/
def opcField (v : U64) : U8 := v.extractLsb' 0 8

/-- RSV, bits 15:8 (R91). -/
def rsvField (v : U64) : U8 := v.extractLsb' 8 8

/-- LEN, bits 31:16 (R91). -/
def lenField (v : U64) : BitVec 16 := v.extractLsb' 16 16

/-- Bits 63:32 of the CMD write (R90). -/
def highField (v : U64) : U32 := v.extractLsb' 32 32

/-- Decode(v), in the order of R97's lines. -/
def decode (v : U64) : Except Illegal Instr :=
  if highField v ≠ 0 then .error .highBits
  else if rsvField v ≠ 0 then .error .rsv
  else
    match opForm (opcField v) with
    | none => .error .opcode
    | some (.plain i) => if lenField v ≠ 0 then .error .len else .ok i
    | some (.sized mk) => .ok (mk (lenField v).toNat)

/-- The OPC of a command (R96). -/
def Instr.opc (i : Instr) : U8 :=
  match i with
  | .engSeeddef => 0x00
  | .engSeed => 0x01
  | .engSeedmix => 0x02
  | .engSeedbuf _ => 0x03
  | .engNext => 0x04
  | .engGen _ => 0x05
  | .engDiscard => 0x06
  | .engJump => 0x07
  | .engSave => 0x08
  | .engLoad _ => 0x09
  | .engEq _ => 0x0A
  | .smxSeed _ => 0x40
  | .smxGen _ => 0x41
  | .smxParam => 0x42
  | .hshH64 => 0x80
  | .hshH32 => 0x81
  | .ctlNop => 0xC0
  | .ctlClrerr => 0xC1
  | .ctlReset => 0xC2

/-- The LEN operand of a command; 0 for a command that takes none (R94). -/
def Instr.len (i : Instr) : Nat :=
  match i with
  | .engSeedbuf len | .engGen len | .engLoad len | .engEq len | .smxSeed len | .smxGen len => len
  | .engSeeddef | .engSeed | .engSeedmix | .engNext | .engDiscard | .engJump | .engSave | .smxParam | .hshH64 | .hshH32
  | .ctlNop | .ctlClrerr | .ctlReset => 0

/-- The 64-bit CMD value of a command: 32 zero bits, LEN, RSV = 0, OPC (R90, R91). -/
def encode (i : Instr) : U64 := 0#32 ++ (BitVec.ofNat 16 i.len ++ (0#8 ++ i.opc))

/-- A table word of `nbits` bits as the CMD value that carries it: every bit above `nbits` is 0. -/
def tableValue (nbits w : Nat) : U64 := BitVec.ofNat 64 (w % 2 ^ nbits)

/-- What the decoder reads from an opcode-table word of `nbits` bits. -/
def decodeTableWord (nbits w : Nat) : Option Instr :=
  match decode (tableValue nbits w) with
  | .ok i => some i
  | .error _ => none

end Sys2Proof
end

