-- ==== Sys2Proof/Machine/State.lean ====
section
/-! DEFINITION. The state of one PRNGE instance (spec/10_state.md R30-R57), the reasons a step can stop, and the state after reset. -/

namespace Sys2Proof.Machine

/-- STATUS.ERR's values (60_exceptions.md R281), codes 0-7 in order. Codes 8-15 are never written (R40). -/
inductive ErrCode where
  | ok
  | illegal
  | badLength
  | unsupported
  | unseeded
  | mixerEmpty
  | insufficientEntropy
  | badValue
deriving DecidableEq, Repr

/-- The engine state: Q, CARRY, CUR when KIND = CMWC (R47); S0, S1 for kinds 1-5 (R48); S[0..15], P when KIND = XSH1024S (R49).
An instance of one kind uses its own registers only; the others' keep their zeros (log 18). -/
structure Engine where
  q : List U32
  carry : U32
  cur : Nat
  s0 : U64
  s1 : U64
  s : Vector U64 16
  p : Fin 16
deriving DecidableEq, Repr

/-- One access of the host to an absolute address, `bytes` wide (20_memory.md R70, R74). -/
inductive HostAccess where
  | read (addr : Nat) (bytes : Nat)
  | write (addr : Nat) (bytes : Nat) (value : U64)
deriving DecidableEq, Repr

/-- What the outside does next: an access, WAIT (30_encoding.md R101), or the power-on reset (70_reset_and_hazards.md R311). -/
inductive HostAction where
  | access (a : HostAccess)
  | wait
  | powerOn
deriving DecidableEq, Repr

/-- BUF's storage: (offset relative to BASE, byte) pairs, offsets strictly rising; an unlisted offset holds no value (R46, log 7). -/
abbrev Memory := List Host.Cell

/-- The canonical form: addresses strictly rising. No entry can equal what an unlisted address reads as, which is no value. -/
abbrev Memory.wf (m : Memory) : Prop := m.Pairwise (fun a b => a.1 < b.1)

structure State where
  /-- The build-time parameters; no step changes them (00_scope.md R3, R7; log 1). -/
  params : Params
  /-- PENDING, the latched command word (R55). STATUS.BUSY is its presence (R35). -/
  pending : Option U64
  /-- ARG0 (R32) -/
  arg0 : U64
  /-- RESULT (R33) -/
  result : U64
  /-- STATUS.SEEDED (R36) -/
  seeded : Bool
  /-- STATUS.MIXFULL (R37) -/
  mixfull : Bool
  /-- STATUS.OVR (R38) -/
  ovr : Bool
  /-- STATUS.ERRSEEN (R39) -/
  errseen : Bool
  /-- STATUS.ERR (R40) -/
  err : ErrCode
  /-- The engine state (R47-R49) -/
  eng : Engine
  /-- POOL[0..COUNT-1] (R53) -/
  pool : List U32
  /-- BUF (R46) -/
  buf : Memory
  /-- The model's own: what the host does next, first action first (R80, R101; log 9). -/
  actions : List HostAction
  /-- The model's own: (address, value) of every host read so far, newest first (R101; log 10). -/
  reads : List (Nat × U64)
  /-- The model's own: how many free values have been used (R316; log 11). -/
  freeCount : Nat
deriving DecidableEq, Repr

/-- Why the machine stops. Every constructor is raised where the spec asks a model to fault. -/
inductive Fault where
  /-- Raised by a host read and by a command's read of BUF[index] when that entry was never written (R46, U3). Safe: the spec gives the
  read no value. -/
  | bufUnwritten (index : Nat)
  /-- Raised by a host write to ARG0 or BUF while BUSY = 1 (70_reset_and_hazards.md R315, U1). Safe: the spec does not define the access. -/
  | writeWhileBusy
deriving DecidableEq, Repr

/-- Why a step is not taken. -/
inductive Refusal where
  /-- Raised by `exec` for an instruction without a meaning. Safe. -/
  | notModelled (mnemonic : String)
  /-- Raised by a host access that is not 8 bytes wide (20_memory.md R74, U4). Safe: the spec does not define it. -/
  | accessWidth (bytes : Nat)
  /-- Raised by a host access whose offset is not a multiple of 8 (20_memory.md R74, U4). Safe: the spec does not define it. -/
  | accessMisaligned (addr : Nat)
  /-- Raised by a host access outside BASE .. BASE + 0x1FFFF: not the block's address (20_memory.md R70, U5). Safe. -/
  | outsideWindow (addr : Nat)
deriving DecidableEq, Repr

/-- The engine state at power-on: unspecified and unobservable (R57). DESIGN CHOICE (log 5): zeros. -/
def Engine.initial (c : Params) : Engine where
  q := List.replicate c.qWords 0
  carry := 0
  cur := 0
  s0 := 0
  s1 := 0
  s := Vector.replicate 16 0
  p := 0

/-- The state after power-on reset of an instance (R57, 70_reset_and_hazards.md R310). POOL is unspecified and unobservable: DESIGN
CHOICE zeros (log 6). BUF lists nothing: every entry is unwritten. -/
def State.powerOnOf (c : Params) : State where
  params := c
  pending := none
  arg0 := 0
  result := 0
  seeded := false
  mixfull := false
  ovr := false
  errseen := false
  err := .ok
  eng := Engine.initial c
  pool := List.replicate c.smxCount 0
  buf := []
  actions := []
  reads := []
  freeCount := 0

/-- The machine right after reset (R57, R310), for the instance of log 2. -/
def State.reset : State := State.powerOnOf Config.reference

end Sys2Proof.Machine
end

