-- ==== Sys2Proof/Machine/Bits.lean ====
section
/-! DEFINITION. The bit operations of spec/00_scope.md R18, R19 that `BitVec` has under no name of the spec's, the XOR-folds of
40_hash.md R114, and the inverse of an odd word modulo 2^32 (41_seed_mixer.md R141). -/

namespace Sys2Proof.Machine

/-- v[31:0] of a u64, trunc_32 (R18). -/
def lo32 (v : U64) : U32 := v.extractLsb' 0 32

/-- v[63:32] of a u64 (R18). -/
def hi32 (v : U64) : U32 := v.extractLsb' 32 32

/-- zext_64 (R18). -/
def zext64 (v : U32) : U64 := v.setWidth 64

/-- rotl64(x, k) = (x << k) | (x >> (64 - k)) for 0 < k < 64 (R19). -/
def rotl64 (x : U64) (k : Nat) : U64 := (x <<< k) ||| (x >>> (64 - k))

/-- Fold64 (40_hash.md R114), width-preserving. -/
def fold64 (x : U64) : U64 := x ^^^ (x >>> 32)

/-- Fold32 (40_hash.md R114), width-preserving. -/
def fold32 (x : U32) : U32 := x ^^^ (x >>> 16)

/-- One Newton step x·(2 - a·x) towards the inverse of a. -/
def invStep (a x : U32) : U32 := x * (2 - a * x)

/-- inv(a), the inverse of an odd a modulo 2^32 (41_seed_mixer.md R141). DEDUCED (log 16): four Newton steps from a itself. -/
def inv32 (a : U32) : U32 := invStep a (invStep a (invStep a (invStep a a)))

end Sys2Proof.Machine
end

