-- ==== Sys2Proof/Machine/Ops.lean ====
section
/-! DEFINITION. The operations over BUF's bytes and words (spec/20_memory.md R72, 00_scope.md R20), and how a command completes: in error
(60_exceptions.md R290), or with success (R291). The block has no trap entry and no return from one (R280, R294): `State.raise` is
what stands in their place. -/

namespace Sys2Proof.Machine

/-- The byte at an offset, if one was ever written there. -/
def Memory.readByte (m : Memory) (a : Nat) : Option U8 :=
  match m with
  | [] => none
  | (b, v) :: rest => if b = a then some v else Memory.readByte rest a

/-- Writing one byte, keeping the offsets strictly rising. -/
def Memory.writeByte (m : Memory) (a : Nat) (v : U8) : Memory :=
  match m with
  | [] => [(a, v)]
  | (b, w) :: rest =>
    if a < b then (a, v) :: (b, w) :: rest
    else if a = b then (a, v) :: rest
    else (b, w) :: Memory.writeByte rest a v

/-- `n` bytes from offset `a` upward; none when one of them was never written. -/
def Memory.readBytes (m : Memory) (a : Nat) : Nat → Option (List U8)
  | 0 => some []
  | n + 1 => (m.readByte a).bind fun b => (Memory.readBytes m (a + 1) n).map (b :: ·)

/-- Writing bytes from offset `a` upward. -/
def Memory.writeBytes (m : Memory) (a : Nat) : List U8 → Memory
  | [] => m
  | b :: bs => Memory.writeBytes (m.writeByte a b) (a + 1) bs

/-- The eight bytes of a word, least significant first. DESIGN CHOICE (log 8): no defined access sees the order (20_memory.md R79). -/
def wordBytes (v : U64) : List U8 := (List.range 8).map fun j => v.extractLsb' (8 * j) 8

/-- The word of eight bytes, least significant first (log 8). -/
def bytesWord (bs : List U8) : U64 := bs.foldr (fun b acc => (acc <<< 8) ||| b.setWidth 64) 0

/-- BUF_BASE relative to BASE (20_memory.md R72). -/
def bufBase : Nat := 0x10000

/-- The offset of BUF[k] relative to BASE (20_memory.md R72). -/
def bufAddr (k : Nat) : Nat := bufBase + 8 * k

/-- BUF[k] in an expression (00_scope.md R20); none when the entry was never written (10_state.md R46). -/
def Memory.readWord (m : Memory) (k : Nat) : Option U64 := (m.readBytes (bufAddr k) 8).map bytesWord

/-- BUF[k] <- v (00_scope.md R20). -/
def Memory.writeWord (m : Memory) (k : Nat) (v : U64) : Memory := m.writeBytes (bufAddr k) (wordBytes v)

/-- [BUF[k], ..., BUF[k+n-1]], or the index of the first of them that was never written. -/
def Memory.readWords (m : Memory) (k : Nat) : Nat → Except Nat (List U64)
  | 0 => .ok []
  | n + 1 =>
    match m.readWord k with
    | none => .error k
    | some w =>
      match Memory.readWords m (k + 1) n with
      | .error j => .error j
      | .ok ws => .ok (w :: ws)

/-- BUF[k] <- ws[0], BUF[k+1] <- ws[1], ... -/
def Memory.writeWords (m : Memory) (k : Nat) : List U64 → Memory
  | [] => m
  | w :: ws => Memory.writeWords (m.writeWord k w) (k + 1) ws

/-- STATUS.BUSY (10_state.md R35, R55): a command is pending. -/
def State.busy (s : State) : Bool := s.pending.isSome

/-- `raise Error(e)` for e ≠ 0: ERR <- e, ERRSEEN <- 1, BUSY <- 0 and nothing else (60_exceptions.md R290). -/
def State.raise (e : ErrCode) (s : State) : State := { s with err := e, errseen := true, pending := none }

/-- A command that passed every check: ERR <- 0, BUSY <- 0 (60_exceptions.md R291). -/
def State.succeed (s : State) : State := { s with err := .ok, pending := none }

/-- `if bad then raise Error(e)`, then the rest of the command (44_engine_commands.md R231, 60_exceptions.md R289). -/
def check (bad : Bool) (e : ErrCode) (s : State) (rest : Host.Outcome State Fault Refusal) :
    Host.Outcome State Fault Refusal :=
  if bad then .next (s.raise e) else rest

/-- The rest of a command that reads BUF[0..n-1]; the model faults on an entry never written (10_state.md R46). -/
def withBuf (n : Nat) (s : State) (rest : List U64 → Host.Outcome State Fault Refusal) :
    Host.Outcome State Fault Refusal :=
  match s.buf.readWords 0 n with
  | .error k => .fault (.bufUnwritten k)
  | .ok ws => rest ws

/-- The engine takes a new state and is seeded (10_state.md R36). -/
def State.installEngine (e : Engine) (s : State) : State := { s with eng := e, seeded := true }

end Sys2Proof.Machine
end

