-- ==== Sys2Proof/Machine/Flags.lean ====
section
/-! DEFINITION. The views of STATUS and of the constant configuration registers (spec/10_state.md R34, R41-R45). -/

namespace Sys2Proof.Machine

/-- The codes of 60_exceptions.md R281. -/
def ErrCode.code (e : ErrCode) : BitVec 4 :=
  match e with
  | .ok => 0
  | .illegal => 1
  | .badLength => 2
  | .unsupported => 3
  | .unseeded => 4
  | .mixerEmpty => 5
  | .insufficientEntropy => 6
  | .badValue => 7

/-- The KIND codes of 00_scope.md R3. -/
def kindCode (k : Kind) : BitVec 4 :=
  match k with
  | .cmwc => 0
  | .xrsr128p => 1
  | .xrsr128ps => 2
  | .xrsr128pss => 3
  | .xrsr128psss => 4
  | .xsh128p => 5
  | .xsh1024s => 6

/-- STATUS (R34): ERR at 11:8, ERRSEEN 4, OVR 3, MIXFULL 2, SEEDED 1, BUSY 0; bits 7:5 and 63:12 read 0. -/
def statusWord (s : State) : U64 :=
  0#52 ++ (s.err.code ++ (0#3 ++ (BitVec.ofBool s.errseen ++ (BitVec.ofBool s.ovr ++
    (BitVec.ofBool s.mixfull ++ (BitVec.ofBool s.seeded ++ BitVec.ofBool s.busy))))))

/-- CONFIG.COMPL (R41). -/
def complBit (c : Params) : Bool :=
  match c.kind with
  | .cmwc => c.cmwcCompl
  | .xrsr128p | .xrsr128ps | .xrsr128pss | .xrsr128psss | .xsh128p | .xsh1024s => false

/-- CONFIG.LOG2N (R41). -/
def log2nField (c : Params) : U8 :=
  match c.kind with
  | .cmwc => BitVec.ofNat 8 (Nat.log2 c.cmwcN)
  | .xrsr128p | .xrsr128ps | .xrsr128pss | .xrsr128psss | .xsh128p | .xsh1024s => 0

/-- The output width in bits (R3, R41). -/
def outWidth (c : Params) : Nat :=
  match c.kind with
  | .cmwc => 32
  | .xrsr128p | .xrsr128ps | .xrsr128pss | .xrsr128psss | .xsh128p | .xsh1024s => 64

/-- CONFIG (R41): OUTW 31:24, COUNT mod 256 at 23:16, LOG2N 15:8, COMPL 4, KIND 3:0. -/
def configWord (c : Params) : U64 :=
  0#32 ++ (BitVec.ofNat 8 (outWidth c) ++ (BitVec.ofNat 8 c.smxCount ++ (log2nField c ++
    (0#3 ++ (BitVec.ofBool (complBit c) ++ kindCode c.kind)))))

/-- CMWC_A as read by the host: 0 for every kind but CMWC (R42). -/
def cmwcAWord (c : Params) : U64 :=
  match c.kind with
  | .cmwc => c.cmwcA
  | .xrsr128p | .xrsr128ps | .xrsr128pss | .xrsr128psss | .xsh128p | .xsh1024s => 0

/-- CMWC_CMAX as read by the host: 0 for every kind but CMWC (R42). -/
def cmwcCmaxWord (c : Params) : U64 :=
  match c.kind with
  | .cmwc => BitVec.ofNat 64 c.cmwcCmax
  | .xrsr128p | .xrsr128ps | .xrsr128pss | .xrsr128psss | .xsh128p | .xsh1024s => 0

/-- OUT_MIN (R43). -/
def outMinWord : U64 := 0

/-- OUT_MAX: 2^32 - 1 for CMWC, 2^64 - 1 otherwise (R43). -/
def outMaxWord (c : Params) : U64 := BitVec.ofNat 64 (2 ^ outWidth c - 1)

/-- STATE_WORDS (R44). -/
def stateWordsWord (c : Params) : U64 := BitVec.ofNat 64 c.stateWords

/-- BUF_WORDS (R45). -/
def bufWordsWord (c : Params) : U64 := BitVec.ofNat 64 c.bufWords

end Sys2Proof.Machine
end

