-- ==== Sys2Proof/Machine/Bus.lean ====
section
/-! DEFINITION. The host's side of the register interface (spec/20_memory.md R70-R77, 70_reset_and_hazards.md R311-R317): the register
map, one host read, one host write, and the power-on reset input. -/

namespace Sys2Proof.Machine

/-- What stands at an aligned offset of the host register space (20_memory.md R71). -/
inductive Reg where
  | cmd
  | status
  | arg0
  | result
  | config
  | cmwcA
  | cmwcCmax
  | outMin
  | outMax
  | stateWords
  | bufWords
  | buf (k : Nat)
  | reserved
deriving DecidableEq, Repr

/-- The registers at 0x00, 0x08, ..., 0x50, by offset / 8 (R71). -/
def lowReg (n : Nat) : Reg :=
  match n with
  | 0 => .cmd
  | 1 => .status
  | 2 => .arg0
  | 3 => .result
  | 4 => .config
  | 5 => .cmwcA
  | 6 => .cmwcCmax
  | 7 => .outMin
  | 8 => .outMax
  | 9 => .stateWords
  | 10 => .bufWords
  | _ => .reserved

/-- The register map R71 at a multiple of 8; every other offset is reserved (R73). -/
def regAt (c : Params) (off : Nat) : Reg :=
  if off < 0x58 then lowReg (off / 8)
  else if bufBase ≤ off ∧ off < bufAddr c.bufWords then .buf ((off - bufBase) / 8)
  else .reserved

/-- The size of the host register space (20_memory.md R70). -/
def windowBytes : Nat := 0x20000

/-- The register a host access reaches, or why it is refused: outside the window (R70, U5), not 8 bytes wide or not at a multiple of 8
(R74, U4). -/
def target (c : Params) (addr bytes : Nat) : Except Refusal Reg :=
  if addr < c.base ∨ c.base + windowBytes ≤ addr then .error (.outsideWindow addr)
  else if bytes ≠ 8 then .error (.accessWidth bytes)
  else if (addr - c.base) % 8 ≠ 0 then .error (.accessMisaligned addr)
  else .ok (regAt c (addr - c.base))

/-- The host has read `v` at `addr`. The block's state does not change (20_memory.md R76); only the host's log does (log 10). -/
def State.logRead (addr : Nat) (v : U64) (s : State) : State := { s with reads := (addr, v) :: s.reads }

/-- A read whose value the spec leaves open: the next free value (70_reset_and_hazards.md R316; log 11). -/
def State.logFreeRead (addr : Nat) (s : State) : State :=
  { (s.logRead addr (Config.freeRead s.freeCount)) with freeCount := s.freeCount + 1 }

/-- A host read of a register (R71-R76, 70 R316, R317; 10_state.md R46). A never written BUF entry faults, BUSY or not (log 12). -/
def hostRead (addr : Nat) (r : Reg) (s : State) : Host.Outcome State Fault Refusal :=
  match r with
  | .cmd => .next (s.logRead addr 0)
  | .status => .next (s.logRead addr (statusWord s))
  | .arg0 => .next (s.logRead addr s.arg0)
  | .result => .next (if s.busy then s.logFreeRead addr else s.logRead addr s.result)
  | .config => .next (s.logRead addr (configWord s.params))
  | .cmwcA => .next (s.logRead addr (cmwcAWord s.params))
  | .cmwcCmax => .next (s.logRead addr (cmwcCmaxWord s.params))
  | .outMin => .next (s.logRead addr outMinWord)
  | .outMax => .next (s.logRead addr (outMaxWord s.params))
  | .stateWords => .next (s.logRead addr (stateWordsWord s.params))
  | .bufWords => .next (s.logRead addr (bufWordsWord s.params))
  | .buf k =>
    match s.buf.readWord k with
    | none => .fault (.bufUnwritten k)
    | some v => .next (if s.busy then s.logFreeRead addr else s.logRead addr v)
  | .reserved => .next (s.logRead addr 0)

/-- A host write of CMD: latched when BUSY = 0 (10_state.md R31), dropped with OVR <- 1 when BUSY = 1 (R38, 70 R314). -/
def State.writeCmd (v : U64) (s : State) : State :=
  match s.pending with
  | none => { s with pending := some v }
  | some _ => { s with ovr := true }

/-- A host write to a register (R71-R77, 70 R314, R315). Read-only registers and reserved offsets ignore it. -/
def hostWrite (r : Reg) (v : U64) (s : State) : Host.Outcome State Fault Refusal :=
  match r with
  | .cmd => .next (s.writeCmd v)
  | .arg0 => if s.busy then .fault .writeWhileBusy else .next { s with arg0 := v }
  | .buf k => if s.busy then .fault .writeWhileBusy else .next { s with buf := s.buf.writeWord k v }
  | .status | .result | .config | .cmwcA | .cmwcCmax | .outMin | .outMax | .stateWords | .bufWords | .reserved => .next s

/-- One host access (20_memory.md R70-R77). -/
def hostAccess (a : HostAccess) (s : State) : Host.Outcome State Fault Refusal :=
  match a with
  | .read addr bytes =>
    match target s.params addr bytes with
    | .error r => .refused r
    | .ok reg => hostRead addr reg s
  | .write addr bytes v =>
    match target s.params addr bytes with
    | .error r => .refused r
    | .ok reg => hostWrite reg v s

/-- Power-on reset at once: a pending command is discarded, every element takes its R57 value, BUF included (70_reset_and_hazards.md R310,
R311). The host's own side stays (log 20). -/
def State.powerOn (s : State) : State :=
  { State.powerOnOf s.params with actions := s.actions, reads := s.reads, freeCount := s.freeCount }

end Sys2Proof.Machine
end

