-- ==== Sys2Proof/Machine/Operands.lean ====
section
/-! DEFINITION. The implicit operands of spec/30_encoding.md R99 and the forms in which commands take them. -/

namespace Sys2Proof.Machine

/-- ARG0 as a 64-bit operand: ENG.SEED's seed, HSH.H64's x (R99). -/
def State.arg0Word (s : State) : U64 := s.arg0

/-- ARG0[31:0], HSH.H32's operand; bits 63:32 are ignored (40_hash.md R116). -/
def State.arg0Low (s : State) : U32 := lo32 s.arg0

/-- ARG0 as the count z of ENG.DISCARD and ENG.JUMP (44_engine_commands.md R238, R239). -/
def State.arg0Count (s : State) : Nat := s.arg0.toNat

/-- BUF words read as u32 input words: bits 31:0, bits 63:32 ignored (41_seed_mixer.md R142, 42_cmwc.md R169). -/
def lowWords (ws : List U64) : List U32 := ws.map lo32

/-- u32 words as BUF words, zero-extended (10_state.md R46). -/
def wideWords (ws : List U32) : List U64 := ws.map zext64

/-- Consecutive u32 words paired into u64 words, low half first (43_xoroshiro.md R204). -/
def pairWords : List U32 → List U64
  | lo :: hi :: rest => (zext64 lo ||| (zext64 hi <<< 32)) :: pairWords rest
  | _ => []

/-- "w[k] = 0 for every k" (43_xoroshiro.md R203, R204; 44_engine_commands.md R241). -/
def allZero (ws : List U64) : Bool := ws.all (· == 0)

/-- "w[k] ≥ 2^32 for some k" (44_engine_commands.md R241). -/
def someWide (ws : List U64) : Bool := ws.any (fun w => decide (4294967296 ≤ w.toNat))

end Sys2Proof.Machine
end

