-- ==== Sys2Proof/Machine/Control.lean ====
section
/-! DEFINITION. The control unit CTL (spec/45_control_commands.md). -/

namespace Sys2Proof.Machine

/-- Every element at its power-on value (10_state.md R57), with BUF and the host's own side kept. The engine and POOL, unspecified and
unobservable from here on, take their power-on values: DESIGN CHOICE (log 13). -/
def State.resetKeepingBuf (s : State) : State :=
  { State.powerOnOf s.params with buf := s.buf, actions := s.actions, reads := s.reads, freeCount := s.freeCount }

/-- CTL.NOP: no effect but ERR <- 0 (R270). -/
def execCtlNop (s : State) : Host.Outcome State Fault Refusal := .next s.succeed

/-- CTL.CLRERR: OVR <- 0, ERRSEEN <- 0 (R271). -/
def execCtlClrerr (s : State) : Host.Outcome State Fault Refusal := .next { s with ovr := false, errseen := false }.succeed

/-- CTL.RESET (R272). -/
def execCtlReset (s : State) : Host.Outcome State Fault Refusal := .next s.resetKeepingBuf.succeed

end Sys2Proof.Machine
end

