-- ==== Sys2Proof/Machine/Hash.lean ====
section
/-! DEFINITION. The hash unit HSH (spec/40_hash.md): the two hashes and the two commands. -/

namespace Sys2Proof.Machine

/-- One round of Hash64: XOR the top half into the bottom half, multiply (R110). -/
def hash64Round (c : Params) (x : U64) : U64 := ((x >>> 32) ^^^ x) * c.h64Mult

/-- Hash64 (R110). -/
def hash64 (c : Params) (x : U64) : U64 := fold64 (hash64Round c (hash64Round c x))

/-- One round of Hash32 (R112). -/
def hash32Round (c : Params) (x : U32) : U32 := ((x >>> 16) ^^^ x) * c.h32Mult

/-- Hash32 (R112). -/
def hash32 (c : Params) (x : U32) : U32 := fold32 (hash32Round c (hash32Round c x))

/-- HSH.H64: RESULT <- Hash64(ARG0) (R115). -/
def execHshH64 (s : State) : Host.Outcome State Fault Refusal :=
  .next { s with result := hash64 s.params s.arg0Word }.succeed

/-- HSH.H32: RESULT <- zext_64(Hash32(ARG0[31:0])) (R116). -/
def execHshH32 (s : State) : Host.Outcome State Fault Refusal :=
  .next { s with result := zext64 (hash32 s.params s.arg0Low) }.succeed

end Sys2Proof.Machine
end

