-- ==== Sys2Proof/Machine/Mixer.lean ====
section
/-! DEFINITION. The seed-mixer unit SMX (spec/41_seed_mixer.md): absorb, generate, param, and the three commands. -/

namespace Sys2Proof.Machine

/-- The XOR-fold by SMX_XSHIFT (R131, R132, R137). -/
def smxFold (c : Params) (v : U32) : U32 := v ^^^ (v >>> c.smxXshift)

/-- KeyedHashA at the key `ka`: the hash; the key's advance is `nextKeyA` (R131). -/
def keyedHashA (c : Params) (ka v : U32) : U32 := smxFold c ((v ^^^ ka) * (ka * c.smxMultA))

/-- KA <- KA * SMX_MULT_A (R131). -/
def nextKeyA (c : Params) (ka : U32) : U32 := ka * c.smxMultA

/-- Mix (R132): `x` is the destination pool word, `y` the keyed hash of the source word. -/
def mix (c : Params) (x y : U32) : U32 := smxFold c (c.smxMixL * x - c.smxMixR * y)

/-- A pool and the absorb key KA, which lives inside one Absorb only (R130). -/
structure Absorbing where
  pool : List U32
  ka : U32
deriving DecidableEq, Repr

/-- The initial absorption of `n` slots: input words while there are any, then zeros (R133). Returns the slots and the key after. -/
def absorbInit (c : Params) : Nat → U32 → List U32 → Absorbing
  | 0, ka, _ => ⟨[], ka⟩
  | n + 1, ka, ins =>
    let r := absorbInit c n (nextKeyA c ka) ins.tail
    ⟨keyedHashA c ka (ins.headD 0) :: r.pool, r.ka⟩

/-- POOL[d] <- Mix(POOL[d], KeyedHashA!(v)) (R133). -/
def mixInto (c : Params) (a : Absorbing) (d : Nat) (v : U32) : Absorbing :=
  ⟨a.pool.set d (mix c (a.pool.getD d 0) (keyedHashA c a.ka v)), nextKeyA c a.ka⟩

/-- The (s, d) pairs of one cross-mix round in execution order: source outer, destination inner, d ≠ s (R133). -/
def crossPairs (n : Nat) : List (Nat × Nat) :=
  (List.range n).flatMap fun s => ((List.range n).filter (· != s)).map fun d => (s, d)

/-- ROUNDS: 2 if COUNT ≤ 2, else 1 (R134). -/
def mixRounds (n : Nat) : Nat := if n ≤ 2 then 2 else 1

/-- The pairs of the whole pairwise phase, the stir included (R133, R134). -/
def mixPairs (n : Nat) : List (Nat × Nat) := (List.replicate (mixRounds n) (crossPairs n)).flatten

/-- The pairwise phase over a list of pairs (R133). -/
def crossMix (c : Params) (a : Absorbing) (pairs : List (Nat × Nat)) : Absorbing :=
  pairs.foldl (fun a sd => mixInto c a sd.2 (a.pool.getD sd.1 0)) a

/-- One remaining input word mixed into every slot (R133). -/
def mixRest (c : Params) (a : Absorbing) (w : U32) : Absorbing :=
  (List.range c.smxCount).foldl (fun a d => mixInto c a d w) a

/-- Absorb: the pool that absorbing the input leaves (R133). It does not depend on the pool before (R135). -/
def absorb (c : Params) (ins : List U32) : List U32 :=
  let a := crossMix c (absorbInit c c.smxCount c.smxInitA ins) (mixPairs c.smxCount)
  ((ins.drop c.smxCount).foldl (mixRest c) a).pool

/-- Generate's words from position `j` with key `kb` on (R137). -/
def generateFrom (c : Params) (pool : List U32) : Nat → Nat → U32 → List U32
  | 0, _, _ => []
  | m + 1, j, kb =>
    let kb' := kb * c.smxMultB
    smxFold c ((pool.getD (j % c.smxCount) 0 ^^^ kb) * kb') :: generateFrom c pool m (j + 1) kb'

/-- Generate(POOL, M) (R137). -/
def generate (c : Params) (pool : List U32) (m : Nat) : List U32 := generateFrom c pool m 0 c.smxInitB

/-- K_j = SMX_INIT_A · SMX_MULT_A^j: the key of KeyedHashA's call j (R141). -/
def keyA (c : Params) (j : Nat) : U32 := c.smxInitA * c.smxMultA ^ j

/-- Undoing one pairwise step (s, d) whose KeyedHashA call was call j (R141). -/
def unmix (c : Params) (pool : List U32) (s d j : Nat) : List U32 :=
  let h := fold32 ((pool.getD s 0 ^^^ keyA c j) * keyA c (j + 1))
  pool.set d ((fold32 (pool.getD d 0) + c.smxMixR * h) * inv32 c.smxMixL)

/-- Undoing the pairwise steps in reverse: the first pair of the list is call `j` (R141). -/
def unmixAll (c : Params) (pool : List U32) (j : Nat) : List (Nat × Nat) → List U32
  | [] => pool
  | (s, d) :: rest => unmix c (unmixAll c pool (j + 1) rest) s d j

/-- Undoing the initial absorption from slot k on (R141). K_{k+1} is odd exactly when SMX_INIT_A is (log 17). -/
def unabsorbInit (c : Params) (k : Nat) : List U32 → List U32
  | [] => []
  | p :: ps => ((fold32 p * inv32 (keyA c (k + 1))) ^^^ keyA c k) :: unabsorbInit c (k + 1) ps

/-- Param(POOL) (R139), by the procedure of R141 (log 16). -/
def param (c : Params) (pool : List U32) : List U32 :=
  unabsorbInit c 0 (unmixAll c pool c.smxCount (mixPairs c.smxCount))

/-- SMX.SEED LEN (R142): LEN > BUF_WORDS is ERR_BAD_LENGTH; otherwise POOL <- Absorb of BUF[0..LEN-1][31:0], MIXFULL <- 1. -/
def execSmxSeed (len : Nat) (s : State) : Host.Outcome State Fault Refusal :=
  check (decide (s.params.bufWords < len)) .badLength s <|
  withBuf len s fun ws =>
  .next { s with pool := absorb s.params (lowWords ws), mixfull := true }.succeed

/-- SMX.GEN LEN (R143): BUF[0..LEN-1] <- Generate(POOL, LEN). -/
def execSmxGen (len : Nat) (s : State) : Host.Outcome State Fault Refusal :=
  check (decide (s.params.bufWords < len)) .badLength s <|
  check (!s.mixfull) .mixerEmpty s <|
  .next { s with buf := s.buf.writeWords 0 (wideWords (generate s.params s.pool len)) }.succeed

/-- SMX.PARAM (R144): BUF[0..COUNT-1] <- Param(POOL), RESULT <- COUNT. -/
def execSmxParam (s : State) : Host.Outcome State Fault Refusal :=
  check (!s.mixfull) .mixerEmpty s <|
  .next { s with
    buf := s.buf.writeWords 0 (wideWords (param s.params s.pool)),
    result := BitVec.ofNat 64 s.params.smxCount }.succeed

end Sys2Proof.Machine
end

