-- ==== Sys2Proof/Machine/Cmwc.lean ====
section
/-! DEFINITION. The CMWC engine, KIND = 0 (spec/42_cmwc.md), and the scalar expansion it shares with the other kinds
(43_xoroshiro.md R198). -/

namespace Sys2Proof.Machine

/-- Expand(sv, W) (43_xoroshiro.md R198): Hash64 of an accumulator that starts at sv and gains GOLDEN before each call. -/
def expand (c : Params) (acc : U64) : Nat → List U64
  | 0 => []
  | n + 1 => hash64 c (acc + c.golden) :: expand c (acc + c.golden) n

/-- t = zext_64(A) * zext_64(Q[CUR]) + zext_64(CARRY), modulo 2^64 (R161, R177). -/
def cmwcProduct (c : Params) (q carry : U32) : U64 := c.cmwcA * zext64 q + zext64 carry

/-- x before and after the overflow correction, and CARRY with it (R161): (x, CARRY). -/
def cmwcCore (c : Params) (q carry : U32) : U32 × U32 :=
  let t := cmwcProduct c q carry
  let x := lo32 t + hi32 t
  if x < hi32 t then (x + 1, hi32 t + 1) else (x, hi32 t)

/-- The stored word: 0xFFFFFFFE - x in the complementary form, x otherwise (R161, R162). -/
def cmwcStored (c : Params) (x : U32) : U32 := if c.cmwcCompl then 0xFFFFFFFE - x else x

/-- (CUR + 1) & (N - 1) (R161). -/
def cmwcNextCur (c : Params) (cur : Nat) : Nat := (cur + 1) &&& (c.cmwcN - 1)

/-- CmwcStep!: the output and the state after (R161, R163). R176's remark on the outputs of an all-zero state holds for its first N steps only;
R161 is followed: DEDUCED (log 29). -/
def cmwcStep (c : Params) (e : Engine) : U32 × Engine :=
  let cur := cmwcNextCur c e.cur
  let r := cmwcCore c (e.q.getD cur 0) e.carry
  let out := cmwcStored c r.1
  (out, { e with q := e.q.set cur out, carry := r.2, cur := cur })

/-- CmwcDiscard!(z): z steps, outputs dropped (R165). -/
def cmwcDiscard (c : Params) (z : Nat) (e : Engine) : Engine := (fun e => (cmwcStep c e).2)^[z] e

/-- CmwcWarmup!: 4·N steps (R166, 00_scope.md R16). -/
def cmwcWarmup (c : Params) (e : Engine) : Engine := cmwcDiscard c (4 * c.cmwcN) e

/-- A carry reduced modulo CMAX (R168). -/
def reduceCarry (c : Params) (v : U32) : U32 := BitVec.ofNat 32 (v.toNat % c.cmwcCmax)

/-- Q, CARRY and CUR before the warm-up: N words, the carry word reduced, CUR = N - 1 (R167, R169). -/
def cmwcFill (c : Params) (w : List U64) (e : Engine) : Engine :=
  { e with
    q := (List.range c.cmwcN).map fun k => lo32 (w.getD k 0)
    carry := reduceCarry c (lo32 (w.getD c.cmwcN 0))
    cur := c.cmwcN - 1 }

/-- CmwcSeedScalar!(seed) (R167). -/
def cmwcSeedScalar (c : Params) (seed : U64) (e : Engine) : Engine :=
  cmwcWarmup c (cmwcFill c (expand c seed (c.cmwcN + 1)) e)

/-- CmwcSeedWords!(w) (R169). -/
def cmwcSeedWords (c : Params) (w : List U64) (e : Engine) : Engine := cmwcWarmup c (cmwcFill c w e)

/-- CmwcSeedMixer!(POOL) (R170). -/
def cmwcSeedMixer (c : Params) (pool : List U32) (e : Engine) : Engine :=
  cmwcSeedWords c (wideWords (generate c pool (c.cmwcN + 1))) e

/-- CmwcImage() (R171): Q from the cursor, wrapped around, then the carry. -/
def cmwcImage (c : Params) (e : Engine) : List U64 :=
  ((List.range c.cmwcN).map fun k => zext64 (e.q.getD ((e.cur + k) &&& (c.cmwcN - 1)) 0)) ++ [zext64 e.carry]

/-- CmwcLoad!(w) (R172): no warm-up, no reduction of the carry, CUR = 0. -/
def cmwcLoad (c : Params) (w : List U64) (e : Engine) : Engine :=
  { e with
    q := (List.range c.cmwcN).map fun k => lo32 (w.getD k 0)
    carry := lo32 (w.getD c.cmwcN 0)
    cur := 0 }

end Sys2Proof.Machine
end

