-- ==== Sys2Proof/Machine/Xoro.lean ====
section
/-! DEFINITION. The xoroshiro and xorshift engines, KIND = 1-6 (spec/43_xoroshiro.md). On KIND = CMWC, which 44_engine_commands.md R230
sends elsewhere, these functions leave the engine alone. -/

namespace Sys2Proof.Machine

/-- XoroAdvance! (R191). -/
def xoroAdvance (e : Engine) : Engine :=
  let s1 := e.s1 ^^^ e.s0
  { e with s0 := rotl64 e.s0 55 ^^^ s1 ^^^ (s1 <<< 14), s1 := rotl64 s1 36 }

/-- Out(r) of the kinds 1-4 (R192); r itself for XSH128P (R194). Not used for the other two kinds. -/
def outputOf (c : Params) (r : U64) : U64 :=
  match c.kind with
  | .xrsr128ps => fold64 r
  | .xrsr128pss => fold64 r * c.mShixo
  | .xrsr128psss => fold64 (fold64 r * c.mShixo)
  | .xrsr128p | .xsh128p | .xsh1024s | .cmwc => r

/-- Xsh128Advance! (R194). -/
def xsh128Advance (c : Params) (e : Engine) : Engine :=
  let a := e.s0 ^^^ (e.s0 <<< c.xsh128A)
  { e with s0 := e.s1, s1 := a ^^^ e.s1 ^^^ (a >>> c.xsh128B) ^^^ (e.s1 >>> c.xsh128C) }

/-- The word Xsh1024Advance! writes, from s0 = S[P] and s1 = S[P+1] (R195). -/
def xsh1024Word (c : Params) (s0 s1 : U64) : U64 :=
  let t := s1 ^^^ (s1 <<< c.xsh1024A)
  t ^^^ s0 ^^^ (t >>> c.xsh1024B) ^^^ (s0 >>> c.xsh1024C)

/-- (P + 1) & 15 (R195). -/
def nextP (p : Fin 16) : Fin 16 := p + 1

/-- Xsh1024Advance! (R195). -/
def xsh1024Advance (c : Params) (e : Engine) : Engine :=
  { e with
    s := e.s.set (nextP e.p).val (xsh1024Word c (e.s.get e.p) (e.s.get (nextP e.p))) (nextP e.p).isLt
    p := nextP e.p }

/-- Advance! of the kind (R196). -/
def xAdvance (c : Params) (e : Engine) : Engine :=
  match c.kind with
  | .xrsr128p | .xrsr128ps | .xrsr128pss | .xrsr128psss => xoroAdvance e
  | .xsh128p => xsh128Advance c e
  | .xsh1024s => xsh1024Advance c e
  | .cmwc => e

/-- Next! of the kind: kinds 1-5 read S0 + S1 before the advance (R193, R194), kind 6 multiplies the word just written (R195). -/
def xNext (c : Params) (e : Engine) : U64 × Engine :=
  match c.kind with
  | .xrsr128p | .xrsr128ps | .xrsr128pss | .xrsr128psss | .xsh128p => (outputOf c (e.s0 + e.s1), xAdvance c e)
  | .xsh1024s => ((xAdvance c e).s.get (xAdvance c e).p * c.xsh1024Mult, xAdvance c e)
  | .cmwc => (0, e)

/-- XDiscard!(z): z advances (R196). -/
def xDiscard (c : Params) (z : Nat) (e : Engine) : Engine := (xAdvance c)^[z] e

/-- XImage() (R197). -/
def xImage (c : Params) (e : Engine) : List U64 :=
  match c.kind with
  | .xrsr128p | .xrsr128ps | .xrsr128pss | .xrsr128psss | .xsh128p => [e.s0, e.s1]
  | .xsh1024s => List.ofFn fun k : Fin 16 => e.s.get (e.p + k)
  | .cmwc => []

/-- XSetImage!(w) (R197); P <- 0 for kind 6. -/
def xSetImage (c : Params) (w : List U64) (e : Engine) : Engine :=
  match c.kind with
  | .xrsr128p | .xrsr128ps | .xrsr128pss | .xrsr128psss | .xsh128p => { e with s0 := w.getD 0 0, s1 := w.getD 1 0 }
  | .xsh1024s => { e with s := Vector.ofFn fun k => w.getD k.val 0, p := 0 }
  | .cmwc => e

/-- FoldSeed (R200). -/
def foldSeed (c : Params) (ws : List U64) : U64 := ws.foldl (fun sv w => hash64 c (sv ^^^ w)) 0

/-- The warm-up counts: 8 for kinds 1-5, 64 for kind 6 (R201, 00_scope.md R16). -/
def xWarmupCount (c : Params) : Nat :=
  match c.kind with
  | .xrsr128p | .xrsr128ps | .xrsr128pss | .xrsr128psss | .xsh128p => 8
  | .xsh1024s => 64
  | .cmwc => 0

/-- XWarmup! (R201). -/
def xWarmup (c : Params) (e : Engine) : Engine := xDiscard c (xWarmupCount c) e

/-- XSeedScalar!(seed) (R202). -/
def xSeedScalar (c : Params) (seed : U64) (e : Engine) : Engine :=
  xWarmup c (xSetImage c (expand c seed c.stateWords) e)

/-- The words a seeding from words installs: the words, or the fallback when they are all zero (R203). -/
def seedWordsOrFallback (c : Params) (w : List U64) : List U64 :=
  if allZero w then expand c (foldSeed c w) c.stateWords else w

/-- XSeedWords!(w) (R203). -/
def xSeedWords (c : Params) (w : List U64) (e : Engine) : Engine := xWarmup c (xSetImage c (seedWordsOrFallback c w) e)

/-- The words a seeding from the mixer installs: paired mixer words, or the fallback over Param(POOL) when they are all zero (R204). -/
def mixerWordsOrFallback (c : Params) (pool : List U32) : List U64 :=
  let w := pairWords (generate c pool (2 * c.stateWords))
  if allZero w then expand c (foldSeed c (wideWords (param c pool))) c.stateWords else w

/-- XSeedMixer!(POOL) (R204). -/
def xSeedMixer (c : Params) (pool : List U32) (e : Engine) : Engine :=
  xWarmup c (xSetImage c (mixerWordsOrFallback c pool) e)

/-- The jump table of the kind (R206). -/
def jumpTable (c : Params) : List U64 :=
  match c.kind with
  | .xrsr128p | .xrsr128ps | .xrsr128pss | .xrsr128psss => c.xrsrJump
  | .xsh128p => c.xsh128Jump
  | .xsh1024s => c.xsh1024Jump
  | .cmwc => []

/-- The jump table's bits in the order they are consumed: word 0 first, bit 0 first (R205). -/
def jumpBits (table : List U64) : List Bool := table.flatMap fun w => (List.range 64).map fun b => w.getLsbD b

/-- acc[k] <- acc[k] ^ img[k] for every k (R205). -/
def xorWords (acc img : List U64) : List U64 := List.zipWith (· ^^^ ·) acc img

/-- The loop of XJumpOnce!: the accumulator after consuming the bits (R205). -/
def jumpAcc (c : Params) : List Bool → List U64 → Engine → List U64
  | [], acc, _ => acc
  | b :: bs, acc, e => jumpAcc c bs (if b then xorWords acc (xImage c e) else acc) (xAdvance c e)

/-- XJumpOnce! (R205). -/
def xJumpOnce (c : Params) (e : Engine) : Engine :=
  xSetImage c (jumpAcc c (jumpBits (jumpTable c)) (List.replicate c.stateWords 0) e) e

/-- XJump!(z) (R207). -/
def xJump (c : Params) (z : Nat) (e : Engine) : Engine := (xJumpOnce c)^[z] e

end Sys2Proof.Machine
end

