-- ==== Sys2Proof/Machine/EngineUnit.lean ====
section
/-! DEFINITION. The engine unit ENG (spec/44_engine_commands.md): the per-kind dispatch of R230 and the eleven commands R232-R242. Each
meaning lists its checks in the order of 60_exceptions.md R289, every check before the first write. -/

namespace Sys2Proof.Machine

/-- SeedScalar!(v) (R230). -/
def seedScalar (c : Params) (seed : U64) (e : Engine) : Engine :=
  match c.kind with
  | .cmwc => cmwcSeedScalar c seed e
  | .xrsr128p | .xrsr128ps | .xrsr128pss | .xrsr128psss | .xsh128p | .xsh1024s => xSeedScalar c seed e

/-- SeedWords!(w) (R230). -/
def seedWords (c : Params) (w : List U64) (e : Engine) : Engine :=
  match c.kind with
  | .cmwc => cmwcSeedWords c w e
  | .xrsr128p | .xrsr128ps | .xrsr128pss | .xrsr128psss | .xsh128p | .xsh1024s => xSeedWords c w e

/-- SeedMixer!() (R230). -/
def seedMixer (c : Params) (pool : List U32) (e : Engine) : Engine :=
  match c.kind with
  | .cmwc => cmwcSeedMixer c pool e
  | .xrsr128p | .xrsr128ps | .xrsr128pss | .xrsr128psss | .xsh128p | .xsh1024s => xSeedMixer c pool e

/-- Next!() → u64 (R230). -/
def engineNext (c : Params) (e : Engine) : U64 × Engine :=
  match c.kind with
  | .cmwc => (zext64 (cmwcStep c e).1, (cmwcStep c e).2)
  | .xrsr128p | .xrsr128ps | .xrsr128pss | .xrsr128psss | .xsh128p | .xsh1024s => xNext c e

/-- Discard!(z) (R230). -/
def engineDiscard (c : Params) (z : Nat) (e : Engine) : Engine :=
  match c.kind with
  | .cmwc => cmwcDiscard c z e
  | .xrsr128p | .xrsr128ps | .xrsr128pss | .xrsr128psss | .xsh128p | .xsh1024s => xDiscard c z e

/-- Image() (R230). -/
def engineImage (c : Params) (e : Engine) : List U64 :=
  match c.kind with
  | .cmwc => cmwcImage c e
  | .xrsr128p | .xrsr128ps | .xrsr128pss | .xrsr128psss | .xsh128p | .xsh1024s => xImage c e

/-- Load!(w) (R230). -/
def engineLoad (c : Params) (w : List U64) (e : Engine) : Engine :=
  match c.kind with
  | .cmwc => cmwcLoad c w e
  | .xrsr128p | .xrsr128ps | .xrsr128pss | .xrsr128psss | .xsh128p | .xsh1024s => xSetImage c w e

/-- The image fails ENG.LOAD's value check: a CMWC word ≥ 2^32, or all zero for kinds 1-6 (R241, 60_exceptions.md R288). -/
def badImage (c : Params) (w : List U64) : Bool :=
  match c.kind with
  | .cmwc => someWide w
  | .xrsr128p | .xrsr128ps | .xrsr128pss | .xrsr128psss | .xsh128p | .xsh1024s => allZero w

/-- `for k in 0..n-1: out[k] <- Next!()`: the outputs in step order and the engine after (R237). -/
def engineGen (c : Params) : Nat → Engine → List U64 × Engine
  | 0, e => ([], e)
  | n + 1, e =>
    let r := engineGen c n (engineNext c e).2
    ((engineNext c e).1 :: r.1, r.2)

/-- ENG.SEEDDEF (R232). -/
def execEngSeeddef (s : State) : Host.Outcome State Fault Refusal :=
  .next (s.installEngine (seedScalar s.params s.params.defaultSeed s.eng)).succeed

/-- ENG.SEED (R233). -/
def execEngSeed (s : State) : Host.Outcome State Fault Refusal :=
  .next (s.installEngine (seedScalar s.params s.arg0Word s.eng)).succeed

/-- ENG.SEEDMIX (R234). -/
def execEngSeedmix (s : State) : Host.Outcome State Fault Refusal :=
  check (!s.mixfull) .mixerEmpty s <|
  .next (s.installEngine (seedMixer s.params s.pool s.eng)).succeed

/-- ENG.SEEDBUF LEN (R235). -/
def execEngSeedbuf (len : Nat) (s : State) : Host.Outcome State Fault Refusal :=
  check (decide (s.params.bufWords < len)) .badLength s <|
  check (decide (len < s.params.stateWords)) .insufficientEntropy s <|
  withBuf s.params.stateWords s fun w =>
  .next (s.installEngine (seedWords s.params w s.eng)).succeed

/-- ENG.NEXT (R236). -/
def execEngNext (s : State) : Host.Outcome State Fault Refusal :=
  check (!s.seeded) .unseeded s <|
  .next { s with result := (engineNext s.params s.eng).1, eng := (engineNext s.params s.eng).2 }.succeed

/-- ENG.GEN LEN (R237). -/
def execEngGen (len : Nat) (s : State) : Host.Outcome State Fault Refusal :=
  check (decide (s.params.bufWords < len)) .badLength s <|
  check (!s.seeded) .unseeded s <|
  .next { s with
    buf := s.buf.writeWords 0 (engineGen s.params len s.eng).1,
    eng := (engineGen s.params len s.eng).2 }.succeed

/-- ENG.DISCARD (R238). -/
def execEngDiscard (s : State) : Host.Outcome State Fault Refusal :=
  check (!s.seeded) .unseeded s <|
  .next { s with eng := engineDiscard s.params s.arg0Count s.eng }.succeed

/-- ENG.JUMP (R239). -/
def execEngJump (s : State) : Host.Outcome State Fault Refusal :=
  check (s.params.kind == .cmwc) .unsupported s <|
  check (!s.seeded) .unseeded s <|
  .next { s with eng := xJump s.params s.arg0Count s.eng }.succeed

/-- ENG.SAVE (R240). -/
def execEngSave (s : State) : Host.Outcome State Fault Refusal :=
  check (!s.seeded) .unseeded s <|
  .next { s with
    buf := s.buf.writeWords 0 (engineImage s.params s.eng),
    result := BitVec.ofNat 64 s.params.stateWords }.succeed

/-- ENG.LOAD LEN (R241). -/
def execEngLoad (len : Nat) (s : State) : Host.Outcome State Fault Refusal :=
  check (decide (s.params.bufWords < len)) .badLength s <|
  check (decide (len ≠ s.params.stateWords)) .badLength s <|
  withBuf s.params.stateWords s fun w =>
  check (badImage s.params w) .badValue s <|
  .next (s.installEngine (engineLoad s.params w s.eng)).succeed

/-- ENG.EQ LEN (R242). -/
def execEngEq (len : Nat) (s : State) : Host.Outcome State Fault Refusal :=
  check (decide (s.params.bufWords < len)) .badLength s <|
  check (!s.seeded) .unseeded s <|
  check (decide (len ≠ s.params.stateWords)) .badLength s <|
  withBuf s.params.stateWords s fun w =>
  .next { s with result := if engineImage s.params s.eng = w then 1 else 0 }.succeed

end Sys2Proof.Machine
end

