-- ==== Sys2Proof/Machine/Dispatch.lean ====
section
/-! DEFINITION. One arm per command: the completing step of a decoded command (spec/20_memory.md R80). -/

namespace Sys2Proof.Machine

def exec (i : Instr) (s : State) : Host.Outcome State Fault Refusal :=
  match i with
  | .engSeeddef => Sys2Proof.Machine.execEngSeeddef s
  | .engSeed => Sys2Proof.Machine.execEngSeed s
  | .engSeedmix => Sys2Proof.Machine.execEngSeedmix s
  | .engSeedbuf len => Sys2Proof.Machine.execEngSeedbuf len s
  | .engNext => Sys2Proof.Machine.execEngNext s
  | .engGen len => Sys2Proof.Machine.execEngGen len s
  | .engDiscard => Sys2Proof.Machine.execEngDiscard s
  | .engJump => Sys2Proof.Machine.execEngJump s
  | .engSave => Sys2Proof.Machine.execEngSave s
  | .engLoad len => Sys2Proof.Machine.execEngLoad len s
  | .engEq len => Sys2Proof.Machine.execEngEq len s
  | .smxSeed len => Sys2Proof.Machine.execSmxSeed len s
  | .smxGen len => Sys2Proof.Machine.execSmxGen len s
  | .smxParam => Sys2Proof.Machine.execSmxParam s
  | .hshH64 => Sys2Proof.Machine.execHshH64 s
  | .hshH32 => Sys2Proof.Machine.execHshH32 s
  | .ctlNop => Sys2Proof.Machine.execCtlNop s
  | .ctlClrerr => Sys2Proof.Machine.execCtlClrerr s
  | .ctlReset => Sys2Proof.Machine.execCtlReset s

end Sys2Proof.Machine
end

