-- ==== Sys2Proof/Machine/Step.lean ====
section
/-! DEFINITION. One step of the system of host and block (spec/20_memory.md R80). The host's actions to come stand in State; a WAIT at
the head, or no action at all, gives the step to the block (log 9). -/

namespace Sys2Proof.Machine

/-- The block's one step: complete PENDING, or, with BUSY = 0, nothing (20_memory.md R80, 60_exceptions.md R301). A word that does not
decode raises ERR_ILLEGAL (30_encoding.md R97). -/
def blockStep (s : State) : Host.Outcome State Fault Refusal :=
  match s.pending with
  | none => .next s
  | some v =>
    match decode v with
    | .ok i => exec i s
    | .error _ => .next (s.raise .illegal)

/-- One step: the host's next action, or the block's step. -/
def step (s : State) : Host.Outcome State Fault Refusal :=
  match s.actions with
  | [] => blockStep s
  | .wait :: rest => if s.busy then blockStep s else .next { s with actions := rest }
  | .access a :: rest => hostAccess a { s with actions := rest }
  | .powerOn :: rest => .next (State.powerOn { s with actions := rest })

/-- `s` with a command word latched and no host action before its completion: the very next step completes it. -/
def State.withFetchWord (s : State) (nbits w : Nat) : State := { s with pending := some (tableValue nbits w), actions := [] }

end Sys2Proof.Machine
end

