-- ==== Sys2Proof/Machine/HostProgram.lean ====
section
/-! DEFINITION. The host's side in writing: host program forms and pseudo-instructions (spec/30_encoding.md R100-R102), the text record
of a state image (44_engine_commands.md R246) and the raw byte stream (00_scope.md R17, 20_memory.md R79). The block never uses them. -/

namespace Sys2Proof.Machine

/-- `W <reg>, <value>` at an offset of 20_memory.md R71 (R101). -/
def hostW (c : Params) (off : Nat) (v : U64) : HostAction := .access (.write (c.base + off) 8 v)

/-- `R <reg>` (R101). -/
def hostR (c : Params) (off : Nat) : HostAction := .access (.read (c.base + off) 8)

/-- `W BUF[k], <value>` (R101). -/
def hostWBuf (c : Params) (k : Nat) (v : U64) : HostAction := hostW c (bufAddr k) v

/-- `R BUF[k]` (R101). -/
def hostRBuf (c : Params) (k : Nat) : HostAction := hostR c (bufAddr k)

/-- `C <command> [LEN]`: `W CMD, <assembled word>` (R101). -/
def hostC (c : Params) (i : Instr) : HostAction := hostW c 0x00 (encode i)

/-- `FOR k IN a..b:` and its body (R101): nothing when b < a. -/
def hostFor (a b : Nat) (body : Nat → List HostAction) : List HostAction := (List.range' a (b + 1 - a)).flatMap body

/-- `EXEC <command> [LEN]` (R102). -/
def hostExec (c : Params) (i : Instr) : List HostAction := [hostC c i, .wait]

/-- `SEED <v>` (R102). -/
def hostSeed (c : Params) (v : U64) : List HostAction := hostW c 0x10 v :: hostExec c .engSeed

/-- `NEXT` (R102): the value read is the last entry of the host's log. -/
def hostNext (c : Params) : List HostAction := hostExec c .engNext ++ [hostR c 0x18]

/-- `DISCARD <z>` (R102). -/
def hostDiscard (c : Params) (z : U64) : List HostAction := hostW c 0x10 z :: hostExec c .engDiscard

/-- `JUMP <z>` (R102). -/
def hostJump (c : Params) (z : U64) : List HostAction := hostW c 0x10 z :: hostExec c .engJump

/-- `HASH64 <x>` (R102). -/
def hostHash64 (c : Params) (x : U64) : List HostAction := hostW c 0x10 x :: (hostExec c .hshH64 ++ [hostR c 0x18])

/-- `HASH32 <x>` (R102). -/
def hostHash32 (c : Params) (x : U64) : List HostAction := hostW c 0x10 x :: (hostExec c .hshH32 ++ [hostR c 0x18])

/-- `CHECK`: `R STATUS` (R102). Its verdict is `checkPasses` of the value read (log 28). -/
def hostCheck (c : Params) : List HostAction := [hostR c 0x08]

/-- The program fails a CHECK unless s[11:8] = 0 (R102). DESIGN CHOICE (log 28): the spec says no more of a failing program, so the verdict is
the host's own and no step applies it: the run goes on. -/
def checkPasses (status : U64) : Bool := status.extractLsb' 8 4 == 0

/-- White space between tokens (R246: "any whitespace"): space, and 9-13, that is tab, line feed, vertical tab, form feed and carriage return
(log 25). -/
def isBlank (ch : Char) : Bool := ch == ' ' || (decide (9 ≤ ch.toNat) && decide (ch.toNat ≤ 13))

/-- The tokens of a text, `cur` being the token under way, last character first. -/
def tokensFrom (cur : List Char) : List Char → List (List Char)
  | [] => if cur.isEmpty then [] else [cur.reverse]
  | ch :: rest =>
    if isBlank ch then (if cur.isEmpty then tokensFrom [] rest else cur.reverse :: tokensFrom [] rest)
    else tokensFrom (ch :: cur) rest

/-- The tokens of a text between white space. -/
def textTokens (text : List Char) : List (List Char) := tokensFrom [] text

/-- The value of a digit in a base, if it is one. -/
def digitValue (radix : Nat) (ch : Char) : Option Nat :=
  let n := ch.toNat
  let d := if 48 ≤ n ∧ n ≤ 57 then n - 48 else if 97 ≤ n ∧ n ≤ 102 then n - 87 else if 65 ≤ n ∧ n ≤ 70 then n - 55 else radix
  if d < radix then some d else none

/-- A number from its digits, most significant first. -/
def digitsValue (radix acc : Nat) : List Char → Option Nat
  | [] => some acc
  | ch :: rest => (digitValue radix ch).bind fun d => digitsValue radix (acc * radix + d) rest

/-- A decimal number: at least one digit. -/
def decimalValue (tok : List Char) : Option Nat := if tok.isEmpty then none else digitsValue 10 0 tok

/-- A decimal or `0x` hexadecimal number (R100). -/
def numberValue (tok : List Char) : Option Nat :=
  match tok with
  | '0' :: 'x' :: d :: ds => digitsValue 16 0 (d :: ds)
  | _ => decimalValue tok

/-- The mnemonics of R96 with the command each names. -/
def mnemonicMap : List (String × OpForm) :=
  [("ENG.SEEDDEF", .plain .engSeeddef), ("ENG.SEED", .plain .engSeed), ("ENG.SEEDMIX", .plain .engSeedmix),
    ("ENG.SEEDBUF", .sized .engSeedbuf), ("ENG.NEXT", .plain .engNext), ("ENG.GEN", .sized .engGen),
    ("ENG.DISCARD", .plain .engDiscard), ("ENG.JUMP", .plain .engJump), ("ENG.SAVE", .plain .engSave),
    ("ENG.LOAD", .sized .engLoad)] ++
  [("ENG.EQ", .sized .engEq), ("SMX.SEED", .sized .smxSeed), ("SMX.GEN", .sized .smxGen), ("SMX.PARAM", .plain .smxParam),
    ("HSH.H64", .plain .hshH64), ("HSH.H32", .plain .hshH32), ("CTL.NOP", .plain .ctlNop),
    ("CTL.CLRERR", .plain .ctlClrerr), ("CTL.RESET", .plain .ctlReset)]

/-- The command a mnemonic names, in either case of its letters (R100). -/
def mnemonicForm (tok : List Char) : Option OpForm :=
  (mnemonicMap.find? fun row => row.1.toList == tok.map Char.toUpper).map (·.2)

/-- Assembling one command: `UNIT.NAME`, then LEN exactly when the command takes it (R100). -/
def assemble (text : String) : Option Instr :=
  match textTokens text.toList with
  | [m] =>
    match mnemonicForm m with
    | some (.plain i) => some i
    | _ => none
  | [m, n] =>
    match mnemonicForm m, numberValue n with
    | some (.sized mk), some len => if (mk len).wellFormed then some (mk len) else none
    | _, _ => none
  | _ => none

/-- One record of a state image (R246): decimal words, one space between them, a line feed at the end. -/
def renderRecord (ws : List U64) : List Char :=
  ([' '].intercalate (ws.map fun w => Nat.toDigits 10 w.toNat)) ++ ['\n']

/-- One word of a record: decimal digits, at most 2^64 - 1 (R246). -/
def recordWord (tok : List Char) : Option U64 :=
  (decimalValue tok).bind fun n => if n < 18446744073709551616 then some (BitVec.ofNat 64 n) else none

/-- Reading `n` words of a record; none is the host-side read failure of R246 (a non-digit token, a value too large, too few tokens). -/
def parseRecord (n : Nat) (text : List Char) : Option (List U64) :=
  let toks := (textTokens text).take n
  if toks.length < n then none else toks.mapM recordWord

/-- Loading a record: write its words to BUF[0..STATE_WORDS-1] and issue ENG.LOAD (R246). -/
def hostLoadRecord (c : Params) (text : List Char) : Option (List HostAction) :=
  (parseRecord c.stateWords text).map fun ws =>
    (ws.mapIdx fun k w => hostWBuf c k w) ++ hostExec c (.engLoad c.stateWords)

/-- A word as a raw byte stream of `n` bytes in HOST_BYTE_ORDER (00_scope.md R17, 20_memory.md R79). -/
def streamBytes (c : Params) (n : Nat) (v : U64) : List U8 :=
  let bytes := (List.range n).map fun j => v.extractLsb' (8 * j) 8
  match c.hostByteOrder with
  | .little => bytes
  | .big => bytes.reverse

end Sys2Proof.Machine
end

