-- ==== Sys2Proof/Safety.lean ====
section
/-! DEFINITION. What the statements mean by a sound state: the invariant every step keeps, and the non-zero invariant of the 64-bit
engines (spec/10_state.md R46, R47, R50, R51, R53). -/

namespace Sys2Proof.Machine

/-- BUF holds whole entries only: of an entry's eight bytes, all were written or none was (20_memory.md R74, R78). -/
def Memory.wholeEntries (m : Memory) : Prop :=
  ∀ k j, j < 8 → ((m.readByte (bufAddr k + j)).isSome ↔ (m.readByte (bufAddr k)).isSome)

/-- Every listed byte lies in BUF[0..n-1] (20_memory.md R72, R86). -/
def Memory.within (n : Nat) (m : Memory) : Prop := ∀ cell ∈ m, bufBase ≤ cell.1 ∧ cell.1 < bufAddr n

/-- The engine has the shape its KIND gives it: N words of Q and CUR in [0, N) for CMWC (10_state.md R47, R51). -/
def Engine.shaped (c : Params) (e : Engine) : Prop := e.q.length = c.qWords ∧ (c.kind = .cmwc → e.cur < c.cmwcN)

/-- The invariant of every reachable state. -/
structure State.Inv (s : State) : Prop where
  /-- the parameters are legal (00_scope.md R7-R15) -/
  params : s.params.wf = true
  /-- BUF's storage is in canonical form -/
  canonical : s.buf.wf
  /-- BUF's storage lies in BUF (20_memory.md R86) -/
  within : s.buf.within s.params.bufWords
  /-- BUF's entries are whole -/
  whole : s.buf.wholeEntries
  /-- the engine's arrays and cursor (10_state.md R47, R51) -/
  engine : s.eng.shaped s.params
  /-- POOL has COUNT words (10_state.md R53) -/
  pool : s.pool.length = s.params.smxCount

/-- The 64-bit engine's state words are not all zero (10_state.md R50). -/
def Engine.nonzero (c : Params) (e : Engine) : Prop := allZero (engineImage c e) = false

/-- Non-zero invariant R50: for every kind but CMWC, a seeded engine is not all zero. -/
def State.NonzeroInv (s : State) : Prop := s.params.kind ≠ .cmwc → s.seeded = true → s.eng.nonzero s.params

/-- The block's part of the state, the host's own side (actions to come, log, free values used) put to fixed values. -/
def State.blockPart (s : State) : State := { s with actions := [], reads := [], freeCount := 0 }

/-- A step of a safe run: it ends neither in a fault nor in a refusal. -/
def SafeStep (s : State) : Prop := ∃ t, step s = .next t

/-- The commands a rule names, by OPC (30_encoding.md R96). -/
abbrev Instr.isOneOf (i : Instr) (opcs : List U8) : Prop := i.opc ∈ opcs

/-- The checks of 60_exceptions.md R289 at positions 2-6, transcribed row by row: the code of the first that fails, or `ok`. (Position 1
is decoding; position 7 reads BUF.) -/
def firstError (i : Instr) (s : State) : ErrCode :=
  if Instr.isOneOf i [0x03, 0x05, 0x09, 0x0A, 0x40, 0x41] ∧ s.params.bufWords < i.len then .badLength
  else if Instr.isOneOf i [0x07] ∧ s.params.kind = .cmwc then .unsupported
  else if Instr.isOneOf i [0x04, 0x05, 0x06, 0x07, 0x08, 0x0A] ∧ s.seeded = false then .unseeded
  else if Instr.isOneOf i [0x02, 0x41, 0x42] ∧ s.mixfull = false then .mixerEmpty
  else if Instr.isOneOf i [0x03] ∧ i.len < s.params.stateWords then .insufficientEntropy
  else if Instr.isOneOf i [0x09, 0x0A] ∧ i.len ≠ s.params.stateWords then .badLength
  else .ok

/-- How many BUF entries from index 0 a command stores to when it succeeds (20_memory.md R86, 30_encoding.md R99). -/
def storedWords (i : Instr) (s : State) : Nat :=
  match i with
  | .engGen len | .smxGen len => len
  | .engSave => s.params.stateWords
  | .smxParam => s.params.smxCount
  | .engSeeddef | .engSeed | .engSeedmix | .engSeedbuf _ | .engNext | .engDiscard | .engJump | .engLoad _ | .engEq _
  | .smxSeed _ | .hshH64 | .hshH32 | .ctlNop | .ctlClrerr | .ctlReset => 0

/-- BUF[0..len(ws)-1] holds the words `ws`. -/
def State.bufHolds (s : State) (ws : List U64) : Prop := ∀ k, k < ws.length → s.buf.readWord k = ws[k]?

/-- What every seeding does with its words `w`, transcribed: for CMWC N words of Q (their low halves), the carry word reduced, CUR = N - 1, then
4·N steps (42_cmwc.md R166-R169); for kinds 1-5 S0, S1 and 8 advances, for kind 6 S, P = 0 and 64 advances (43_xoroshiro.md R197, R201). -/
def seededFrom (c : Params) (w : List U64) (e : Engine) : Engine :=
  if c.kind = .cmwc then
    (fun e => (cmwcStep c e).2)^[4 * c.cmwcN] { e with
      q := (List.range c.cmwcN).map fun k => (w.getD k 0).setWidth 32
      carry := BitVec.ofNat 32 (((w.getD c.cmwcN 0).setWidth 32 : U32).toNat % c.cmwcCmax)
      cur := c.cmwcN - 1 }
  else if c.kind = .xsh1024s then (xAdvance c)^[64] { e with s := Vector.ofFn fun k => w.getD k.val 0, p := 0 }
  else (xAdvance c)^[8] { e with s0 := w.getD 0 0, s1 := w.getD 1 0 }

/-- The words Hash64(sv + (k+1)·GOLDEN), k = 0..STATE_WORDS-1 (43_xoroshiro.md R198 in closed form). -/
def expandedWords (c : Params) (sv : U64) : List U64 :=
  (List.range c.stateWords).map fun k => hash64 c (sv + BitVec.ofNat 64 (k + 1) * c.golden)

/-- The words themselves, or, when all are zero, the words expanded from the fold of `p` (43_xoroshiro.md R200, R203, R204). -/
def orFallback (c : Params) (w p : List U64) : List U64 :=
  if ∀ x ∈ w, x = 0 then expandedWords c (p.foldl (fun sv x => hash64 c (sv ^^^ x)) 0) else w

/-- The pairwise calls of an Absorb: ROUNDS rounds of COUNT·(COUNT - 1) (41_seed_mixer.md R133, R134). -/
def crossCalls (c : Params) : Nat := (if c.smxCount ≤ 2 then 2 else 1) * (c.smxCount * (c.smxCount - 1))

/-- All KeyedHashA calls of an Absorb of `len` words after the first COUNT: the pairwise ones, then COUNT for each word past COUNT (R133). -/
def absorbCalls (c : Params) (len : Nat) : Nat := crossCalls c + (len - c.smxCount) * c.smxCount

/-- POOL after the initial absorption and `i` further KeyedHashA calls of an Absorb of `ins`, transcribed call by call (41_seed_mixer.md
R131-R134). Call j, counted from 0 over the whole Absorb, has the key SMX_INIT_A · SMX_MULT_A^j. The pairwise calls come first: in each round
the source s is outer and the destination d inner, d ≠ s. Then each input word past COUNT goes into slots 0..COUNT-1. -/
def absorbAfter (c : Params) (ins : List U32) : Nat → List U32
  | 0 => (List.range c.smxCount).map fun k => hash k (ins.getD k 0)
  | i + 1 =>
    let pool := absorbAfter c ins i
    let n := c.smxCount
    let s := i / (n - 1) % n
    let r := i - crossCalls c
    let d := if crossCalls c ≤ i then r % n else if i % (n - 1) < s then i % (n - 1) else i % (n - 1) + 1
    let source := if crossCalls c ≤ i then ins.getD (n + r / n) 0 else pool.getD s 0
    let mixed := c.smxMixL * pool.getD d 0 - c.smxMixR * hash (n + i) source
    pool.set d (mixed ^^^ (mixed >>> c.smxXshift))
where
  /-- KeyedHashA of `v` as call `j` (R131). -/
  hash (j : Nat) (v : U32) : U32 :=
    let u := (v ^^^ (c.smxInitA * c.smxMultA ^ j)) * (c.smxInitA * c.smxMultA ^ (j + 1))
    u ^^^ (u >>> c.smxXshift)

/-- The state a command leaves that passed its checks and changed nothing else yet: ERR = 0, BUSY = 0 (60_exceptions.md R291). -/
abbrev State.done (s : State) : State := { s with err := .ok, pending := none }

end Sys2Proof.Machine
end

