-- ==== Sys2Proof/Certificates/Slice0/Obligations.lean ====
section
/-! DEFINITION. The statements for the provers, from the numbered rules of spec/. `exec i s` is a command's completing step, `step` one
step of host and block together. A statement about a free value holds for every value of its counter. -/

open Sys2Proof Sys2Proof.Machine

/-! ### Encoding -/

/-- Words of every unit, written out from 30_encoding.md R91 and R96 (R100: `ENG.GEN 16` = 0x00100005), decode to their commands, and one word
for each way of being illegal decodes to none (95_test_vectors.md 2.8). -/
def Obligations.SpecWordsDecode : Prop :=
  decode 0x00000000 = .ok .engSeeddef ∧ decode 0x00100005 = .ok (.engGen 16) ∧ decode 0x10010009 = .ok (.engLoad 4097) ∧
    decode 0x00050040 = .ok (.smxSeed 5) ∧ decode 0x00000042 = .ok .smxParam ∧ decode 0x00000081 = .ok .hshH32 ∧
    decode 0x000000C2 = .ok .ctlReset ∧ decode 0x0000000B = .error .opcode ∧ decode 0x00000100 = .error .rsv ∧
    decode 0x000100C0 = .error .len ∧ decode 0x1000000C0 = .error .highBits

/-- Decoding the encoding of a well-formed command gives it back, LEN at every value 0..65535 (30_encoding.md R90-R97). -/
def Obligations.DecodeAfterEncode : Prop := ∀ i : Instr, i.wellFormed = true → decode (encode i) = .ok i

/-- Every word that decodes is the one encoding of its command: no two words mean the same (30_encoding.md R96-R98). -/
def Obligations.EncodeAfterDecode : Prop := ∀ (v : U64) (i : Instr), decode v = .ok i → encode i = v ∧ i.wellFormed = true

/-- Which 64-bit values are commands, in numbers: exactly R97's lines with DEFINED and LENSET. -/
def Obligations.DecodeAcceptsExactly : Prop :=
  ∀ v : U64, (∃ i, decode v = .ok i) ↔
    v.toNat / 4294967296 = 0 ∧ v.toNat / 256 % 256 = 0 ∧
      v.toNat % 256 ∈ [0x00, 0x01, 0x02, 0x03, 0x04, 0x05, 0x06, 0x07, 0x08, 0x09, 0x0A, 0x40, 0x41, 0x42, 0x80, 0x81, 0xC0, 0xC1, 0xC2] ∧
      (v.toNat % 256 ∈ [0x03, 0x05, 0x09, 0x0A, 0x40, 0x41] ∨ v.toNat / 65536 % 65536 = 0)

/-! ### Steps -/

/-- The block's step runs the decoded command: when the latched word decodes and the host makes no access before (nothing listed, or it
waits), the step is `exec` of the command, with nothing added around it (20_memory.md R80, R84). -/
def Obligations.StepRunsDecodedCommand : Prop :=
  ∀ (s : State) (v : U64) (i : Instr), s.pending = some v → decode v = .ok i →
    (s.actions = [] ∨ ∃ rest, s.actions = .wait :: rest) → step s = exec i s

/-- A latched word with bits 63:32 or RSV not zero, a reserved OPC, or a LEN on a command that takes none raises ERR_ILLEGAL, code 1, whatever
the state, and has no other effect (60_exceptions.md R282; 30_encoding.md R97). -/
def Obligations.StepRaisesIllegal : Prop :=
  ∀ (s : State) (v : U64), s.pending = some v → (s.actions = [] ∨ ∃ rest, s.actions = .wait :: rest) →
    (v.toNat / 4294967296 ≠ 0 ∨ v.toNat / 256 % 256 ≠ 0 ∨
      v.toNat % 256 ∉ [0x00, 0x01, 0x02, 0x03, 0x04, 0x05, 0x06, 0x07, 0x08, 0x09, 0x0A, 0x40, 0x41, 0x42, 0x80, 0x81, 0xC0, 0xC1, 0xC2] ∨
      v.toNat % 256 ∉ [0x03, 0x05, 0x09, 0x0A, 0x40, 0x41] ∧ v.toNat / 65536 % 65536 ≠ 0) →
    ∃ t, step s = .next t ∧ t = { s with err := .illegal, errseen := true, pending := none } ∧
      (statusWord t).extractLsb' 8 4 = 1 ∧ (statusWord t).getLsbD 4 = true ∧ (statusWord t).getLsbD 0 = false

/-- With nothing pending the block does nothing (60_exceptions.md R301), and the host's WAIT passes (30_encoding.md R101). -/
def Obligations.IdleBlockDoesNothing : Prop :=
  ∀ s : State, s.pending = none → (s.actions = [] → step s = .next s) ∧
    ∀ rest, s.actions = .wait :: rest → step s = .next { s with actions := rest }

/-- STATUS.BUSY rises only at a CMD write and falls only at a completion or power-on reset; a pending word is not changed meanwhile
(10_state.md R35, 20_memory.md R84). That power-on clears it too is R311 (log 15). -/
def Obligations.BusyLifetime : Prop :=
  ∀ s t : State, step s = .next t →
    (s.pending = none → ∀ v, t.pending = some v →
      ∃ addr rest, s.actions = .access (.write addr 8 v) :: rest ∧ addr = s.params.base) ∧
    (∀ v, s.pending = some v → t.pending = none →
      (s.actions = [] ∨ (∃ rest, s.actions = .wait :: rest) ∨ ∃ rest, s.actions = .powerOn :: rest)) ∧
    ∀ v w, s.pending = some v → t.pending = some w → v = w

/-! ### Reset -/

/-- What reset leaves (10_state.md R57, 70_reset_and_hazards.md R310): STATUS, ARG0 and RESULT 0, nothing pending, every BUF entry unwritten.
The same of a power-on reset at any time, which takes effect at once whatever is pending (R311) and keeps the parameters. (That the host's
list of actions stands is the model's own: log 20.) -/
def Obligations.PowerOnReset : Prop :=
  (statusWord State.reset = 0 ∧ State.reset.arg0 = 0 ∧ State.reset.result = 0 ∧ State.reset.pending = none ∧
    ∀ k, State.reset.buf.readWord k = none) ∧
  ∀ (s : State) (rest : List HostAction), s.actions = .powerOn :: rest →
    ∃ t, step s = .next t ∧ statusWord t = 0 ∧ t.arg0 = 0 ∧ t.result = 0 ∧ t.pending = none ∧
      (∀ k, t.buf.readWord k = none) ∧ t.params = s.params ∧ t.actions = rest

/-! ### The host's accesses -/

/-- No host read has a side effect: a read that goes on changes nothing but the host's own list, log and count of free values
(20_memory.md R76). -/
def Obligations.HostReadsChangeNothing : Prop :=
  ∀ (s t : State) (addr bytes : Nat) (rest : List HostAction), s.actions = .access (.read addr bytes) :: rest → step s = .next t →
    { t with actions := s.actions, reads := s.reads, freeCount := s.freeCount } = s

/-- What the eleven registers of 20_memory.md R71 read as. Only RESULT needs BUSY = 0 (70_reset_and_hazards.md R316, R317). -/
def Obligations.RegistersReadAsMapped : Prop :=
  ∀ (s : State) (rest : List HostAction) (off : Nat) (v : U64),
    (off, v) ∈ [(0x00, 0), (0x08, statusWord s), (0x10, s.arg0), (0x18, s.result), (0x20, configWord s.params),
      (0x28, if s.params.kind = .cmwc then s.params.cmwcA else 0),
      (0x30, if s.params.kind = .cmwc then BitVec.ofNat 64 s.params.cmwcCmax else 0), (0x38, 0),
      (0x40, if s.params.kind = .cmwc then 0xFFFFFFFF else 0xFFFFFFFFFFFFFFFF), (0x48, BitVec.ofNat 64 s.params.stateWords),
      (0x50, BitVec.ofNat 64 s.params.bufWords)] →
    (off = 0x18 → s.pending = none) → s.actions = .access (.read (s.params.base + off) 8) :: rest →
    step s = .next { s with actions := rest, reads := (s.params.base + off, v) :: s.reads }

/-- BUF[k] with BUSY = 0: a written entry reads as its word, and an entry that neither host nor command has written faults
(10_state.md R46, 20_memory.md R72). The window ends at 0x1FFFF. -/
def Obligations.BufReadsWhenIdle : Prop :=
  ∀ (s : State) (k : Nat) (rest : List HostAction), k < s.params.bufWords → k < 8192 → s.pending = none →
    s.actions = .access (.read (s.params.base + 0x10000 + 8 * k) 8) :: rest →
    (∀ v, s.buf.readWord k = some v →
      step s = .next { s with actions := rest, reads := (s.params.base + 0x10000 + 8 * k, v) :: s.reads }) ∧
    (s.buf.readWord k = none → step s = .fault (.bufUnwritten k))

/-- Host writes to ARG0 and BUF[k] with BUSY = 0 store the value and have no other effect (20_memory.md R77): the entry reads back, every
other entry and every byte outside the entry is as before. -/
def Obligations.HostWritesStore : Prop :=
  ∀ (s : State) (v : U64) (rest : List HostAction), s.pending = none → s.buf.wf →
    (s.actions = .access (.write (s.params.base + 0x10) 8 v) :: rest → step s = .next { s with actions := rest, arg0 := v }) ∧
    ∀ k, k < s.params.bufWords → k < 8192 → s.actions = .access (.write (s.params.base + 0x10000 + 8 * k) 8 v) :: rest →
      ∃ t, step s = .next t ∧ { t with buf := s.buf } = { s with actions := rest } ∧ t.buf.readWord k = some v ∧
        (∀ j, j ≠ k → t.buf.readWord j = s.buf.readWord j) ∧
        ∀ a, ¬(bufAddr k ≤ a ∧ a < bufAddr k + 8) → t.buf.readByte a = s.buf.readByte a

/-- A CMD write latches the word with BUSY = 0 and is dropped with OVR <- 1 with BUSY = 1 (10_state.md R31, R38,
70_reset_and_hazards.md R314). -/
def Obligations.CmdWriteLatchesOrDrops : Prop :=
  ∀ (s : State) (v : U64) (rest : List HostAction), s.actions = .access (.write s.params.base 8 v) :: rest →
    (s.pending = none → step s = .next { s with actions := rest, pending := some v }) ∧
    (s.pending ≠ none → step s = .next { s with actions := rest, ovr := true })

/-- Ignored accesses: a write to a read-only register changes no state and CMD reads 0 (20_memory.md R75), and a reserved offset reads 0 and
ignores writes (R73), whether or not BUSY = 1. -/
def Obligations.IgnoredAccesses : Prop :=
  ∀ (s : State) (off : Nat) (v : U64) (rest : List HostAction),
    (off ∈ [0x08, 0x18, 0x20, 0x28, 0x30, 0x38, 0x40, 0x48, 0x50] → s.actions = .access (.write (s.params.base + off) 8 v) :: rest →
      step s = .next { s with actions := rest }) ∧
    (s.actions = .access (.read s.params.base 8) :: rest →
      step s = .next { s with actions := rest, reads := (s.params.base, 0) :: s.reads }) ∧
    (off % 8 = 0 → off < 0x20000 → (0x58 ≤ off ∧ off < 0x10000 ∨ 0x10000 + 8 * s.params.bufWords ≤ off) →
      (s.actions = .access (.write (s.params.base + off) 8 v) :: rest → step s = .next { s with actions := rest }) ∧
      (s.actions = .access (.read (s.params.base + off) 8) :: rest →
        step s = .next { s with actions := rest, reads := (s.params.base + off, 0) :: s.reads }))

/-- A host write to ARG0 or to a BUF entry while BUSY = 1 faults (70_reset_and_hazards.md R315). -/
def Obligations.BusyWritesFault : Prop :=
  ∀ (s : State) (off : Nat) (v : U64) (rest : List HostAction), s.pending ≠ none →
    (off = 0x10 ∨ ∃ k, k < s.params.bufWords ∧ k < 8192 ∧ off = 0x10000 + 8 * k) →
    s.actions = .access (.write (s.params.base + off) 8 v) :: rest → step s = .fault .writeWhileBusy

/-- A host read of RESULT or of a written BUF entry while BUSY = 1 gives the next free value and changes no state of the block
(70_reset_and_hazards.md R316). The count of free values is the model's own field (log 11). -/
def Obligations.BusyReadsAreFree : Prop :=
  ∀ (s : State) (off : Nat) (rest : List HostAction), s.pending ≠ none →
    (off = 0x18 ∨ ∃ k, k < s.params.bufWords ∧ k < 8192 ∧ off = 0x10000 + 8 * k ∧ s.buf.readWord k ≠ none) →
    s.actions = .access (.read (s.params.base + off) 8) :: rest →
    step s = .next { s with
      actions := rest
      reads := (s.params.base + off, Config.freeRead s.freeCount) :: s.reads
      freeCount := s.freeCount + 1 }

/-- An access inside the window that is not 8 bytes wide, or not at a multiple of 8, is refused with no step (20_memory.md R74). -/
def Obligations.UndefinedAccessesRefused : Prop :=
  ∀ (s : State) (a : HostAccess) (off bytes : Nat) (v : U64) (rest : List HostAction),
    a = .read (s.params.base + off) bytes ∨ a = .write (s.params.base + off) bytes v → off < 0x20000 →
    bytes ≠ 8 ∨ off % 8 ≠ 0 → s.actions = .access a :: rest → ∃ r, step s = .refused r

/-- Visibility: a command written with BUSY = 0 and awaited is seen whole by a later read of RESULT (20_memory.md R81; the NEXT-like
pseudo-instructions of 30_encoding.md R102). `exec`'s own next state is what the read then finds. -/
def Obligations.AwaitedResultIsVisible : Prop :=
  ∀ (s t : State) (i : Instr), i.wellFormed = true → s.pending = none →
    s.actions = hostExec s.params i ++ [hostR s.params 0x18] →
    exec i { s with pending := some (encode i), actions := [.wait, hostR s.params 0x18] } = .next t →
    Host.Core.run Sys2Proof.core 4 s =
      .next { t with actions := [], reads := (t.params.base + 0x18, t.result) :: t.reads }

/-! ### STATUS and the configuration registers -/

/-- The fields of STATUS (10_state.md R34, codes 60_exceptions.md R281) and of CONFIG (10_state.md R41). -/
def Obligations.StatusAndConfigFields : Prop :=
  (∀ s : State, (statusWord s).getLsbD 0 = s.pending.isSome ∧ (statusWord s).getLsbD 1 = s.seeded ∧
    (statusWord s).getLsbD 2 = s.mixfull ∧ (statusWord s).getLsbD 3 = s.ovr ∧ (statusWord s).getLsbD 4 = s.errseen ∧
    (statusWord s).extractLsb' 5 3 = 0 ∧ (statusWord s).extractLsb' 12 52 = 0 ∧
    (s.err, (statusWord s).extractLsb' 8 4) ∈ [(ErrCode.ok, 0#4), (.illegal, 1#4), (.badLength, 2#4), (.unsupported, 3#4),
      (.unseeded, 4#4), (.mixerEmpty, 5#4), (.insufficientEntropy, 6#4), (.badValue, 7#4)]) ∧
  ∀ c : Params, (c.kind, (configWord c).extractLsb' 0 4) ∈ [(Kind.cmwc, 0#4), (.xrsr128p, 1#4), (.xrsr128ps, 2#4), (.xrsr128pss, 3#4),
      (.xrsr128psss, 4#4), (.xsh128p, 5#4), (.xsh1024s, 6#4)] ∧
    (configWord c).getLsbD 4 = (decide (c.kind = .cmwc) && c.cmwcCompl) ∧ (configWord c).extractLsb' 5 3 = 0 ∧
    (configWord c).extractLsb' 8 8 = (if c.kind = .cmwc then BitVec.ofNat 8 (Nat.log2 c.cmwcN) else 0) ∧
    (configWord c).extractLsb' 16 8 = BitVec.ofNat 8 c.smxCount ∧
    (configWord c).extractLsb' 24 8 = (if c.kind = .cmwc then 32 else 64) ∧ (configWord c).extractLsb' 32 32 = 0

/-! ### Errors, completion, frames -/

/-- The first check of R289 that fails gives the code (positions 2-6), and the command then sets ERR and ERRSEEN, clears BUSY and changes
nothing else (60_exceptions.md R289, R290). Position 1 is StepRaisesIllegal, position 7 LoadChecksValues. -/
def Obligations.FirstFailedCheckIsRaised : Prop :=
  ∀ (i : Instr) (s : State), firstError i s ≠ .ok →
    exec i s = .next { s with err := firstError i s, errseen := true, pending := none }

/-- Every completing command leaves either an error state (R290) or success: ERR = 0, BUSY = 0, with ERRSEEN and OVR kept except by
CTL.CLRERR and CTL.RESET (R291). -/
def Obligations.CompletionIsErrorOrSuccess : Prop :=
  ∀ (i : Instr) (s t : State), exec i s = .next t →
    (∃ e, e ≠ .ok ∧ t = { s with err := e, errseen := true, pending := none }) ∨
    (firstError i s = .ok ∧ t.err = .ok ∧ t.pending = none ∧
      (i ≠ .ctlClrerr → i ≠ .ctlReset → t.errseen = s.errseen ∧ t.ovr = s.ovr))

/-- Every command completes, or faults on a never written BUF entry below its LEN; with all entries below LEN written it completes; none is
refused (30_encoding.md R103, 20_memory.md R86, 10_state.md R46). -/
def Obligations.CommandsCompleteOrFaultUnwritten : Prop :=
  ∀ (i : Instr) (s : State),
    ((∃ t, exec i s = .next t) ∨
      ∃ k, exec i s = .fault (.bufUnwritten k) ∧ k < i.len ∧ k < s.params.bufWords ∧ s.buf.readWord k = none) ∧
    ((∀ k, k < i.len → (s.buf.readWord k).isSome) → ∃ t, exec i s = .next t)

/-- Register frame: no command changes the parameters or the host's own side; ARG0 is changed by CTL.RESET only (10_state.md R32); RESULT
by the six commands of R33 and by CTL.RESET only (CTL.RESET by R272; log 15). -/
def Obligations.RegisterFrame : Prop :=
  ∀ (i : Instr) (s t : State), exec i s = .next t →
    t.params = s.params ∧ t.actions = s.actions ∧ t.reads = s.reads ∧ t.freeCount = s.freeCount ∧
    (i ≠ .ctlReset → t.arg0 = s.arg0) ∧ (¬ Instr.isOneOf i [0x04, 0x08, 0x0A, 0x42, 0x80, 0x81, 0xC2] → t.result = s.result)

/-- Engine and mixer frame: the engine changes only by ENG.SEEDDEF, SEED, SEEDMIX, SEEDBUF, NEXT, GEN, DISCARD, JUMP, LOAD and CTL.RESET,
POOL and MIXFULL only by SMX.SEED and CTL.RESET (30_encoding.md R99). -/
def Obligations.EngineAndMixerFrame : Prop :=
  ∀ (i : Instr) (s t : State), exec i s = .next t →
    (¬ Instr.isOneOf i [0x00, 0x01, 0x02, 0x03, 0x04, 0x05, 0x06, 0x07, 0x09, 0xC2] → t.eng = s.eng) ∧
    (¬ Instr.isOneOf i [0x00, 0x01, 0x02, 0x03, 0x09, 0xC2] → t.seeded = s.seeded) ∧
    (¬ Instr.isOneOf i [0x40, 0xC2] → t.pool = s.pool ∧ t.mixfull = s.mixfull)

/-- Storage frame: every byte of BUF outside the entries a command stores to is as before, all of BUF for the fifteen commands that store
nothing, and the storage stays in canonical form (20_memory.md R86, 30_encoding.md R99). The stored entries are BUF[0..n-1] with n from
`storedWords`: LEN for ENG.GEN and SMX.GEN, STATE_WORDS for ENG.SAVE, COUNT for SMX.PARAM. -/
def Obligations.StorageFrame : Prop :=
  ∀ (i : Instr) (s t : State), s.Inv → exec i s = .next t →
    (∀ a, ¬(bufAddr 0 ≤ a ∧ a < bufAddr (storedWords i s)) → t.buf.readByte a = s.buf.readByte a) ∧
    (∀ k, storedWords i s ≤ k → t.buf.readWord k = s.buf.readWord k) ∧ t.buf.wf

/-- What sets and clears SEEDED (10_state.md R36), MIXFULL (R37), OVR (R38) and ERRSEEN (R39), over every step: each falls only at a
power-on reset or CTL.RESET (OVR and ERRSEEN also at CTL.CLRERR), SEEDED rises only when a seeding command or ENG.LOAD completes, MIXFULL only
when SMX.SEED completes, OVR only at a CMD write with BUSY = 1. -/
def Obligations.StatusBitsRiseAndFall : Prop :=
  ∀ s t : State, step s = .next t →
    let runs (opcs : List U8) : Prop := ∃ v i, s.pending = some v ∧ decode v = .ok i ∧ Instr.isOneOf i opcs
    let resets (opcs : List U8) : Prop := (∃ rest, s.actions = .powerOn :: rest) ∨ runs opcs
    (s.seeded = true → t.seeded = false → resets [0xC2]) ∧
    (s.mixfull = true → t.mixfull = false → resets [0xC2]) ∧
    (s.ovr = true → t.ovr = false → resets [0xC1, 0xC2]) ∧
    (s.errseen = true → t.errseen = false → resets [0xC1, 0xC2]) ∧
    (s.seeded = false → t.seeded = true → runs [0x00, 0x01, 0x02, 0x03, 0x09]) ∧
    (s.mixfull = false → t.mixfull = true → runs [0x40]) ∧
    (s.ovr = false → t.ovr = true → s.pending ≠ none ∧ ∃ v rest, s.actions = .access (.write s.params.base 8 v) :: rest) ∧
    (s.errseen = false → t.errseen = true → s.pending ≠ none ∧ t.err ≠ .ok)

/-! ### Hash unit and control unit -/

/-- HSH.H64 and HSH.H32 write the hash of ARG0 (of ARG0[31:0]) and nothing else but ERR and BUSY (40_hash.md R110, R112, R115, R116). -/
def Obligations.HashCommands : Prop :=
  ∀ s : State,
    (let x := ((s.arg0 >>> 32) ^^^ s.arg0) * s.params.h64Mult
     let y := ((x >>> 32) ^^^ x) * s.params.h64Mult
     exec .hshH64 s = .next { s with result := (y >>> 32) ^^^ y, err := .ok, pending := none }) ∧
    (let a : U32 := s.arg0.setWidth 32
     let x := ((a >>> 16) ^^^ a) * s.params.h32Mult
     let y := ((x >>> 16) ^^^ x) * s.params.h32Mult
     exec .hshH32 s = .next { s with result := ((y >>> 16) ^^^ y).setWidth 64, err := .ok, pending := none })

/-- Both hashes are bijections that fix 0, for every odd multiplier (00_scope.md R11): the spec's own inferences R111 and R113 from 40_hash.md
R110 and R112. -/
def Obligations.HashesAreBijections : Prop :=
  ∀ c : Params, c.wf = true →
    Function.Bijective (hash64 c) ∧ hash64 c 0 = 0 ∧ Function.Bijective (hash32 c) ∧ hash32 c 0 = 0

/-- CTL.NOP, CTL.CLRERR and CTL.RESET (45_control_commands.md R270-R272): their words and what they write; CTL.RESET leaves STATUS, ARG0 and
RESULT 0 and keeps BUF. That R272 is followed where R32 and R33 differ is the model's reading (log 15). -/
def Obligations.ControlCommands : Prop :=
  decode 0xC0 = .ok .ctlNop ∧ decode 0xC1 = .ok .ctlClrerr ∧ decode 0xC2 = .ok .ctlReset ∧
  ∀ s : State,
    exec .ctlNop s = .next { s with err := .ok, pending := none } ∧
    exec .ctlClrerr s = .next { s with ovr := false, errseen := false, err := .ok, pending := none } ∧
    ∃ t, exec .ctlReset s = .next t ∧ statusWord t = 0 ∧ t.arg0 = 0 ∧ t.result = 0 ∧ t.pending = none ∧ t.buf = s.buf ∧
      t.params = s.params

/-! ### Seed mixer -/

/-- SMX.SEED LEN replaces POOL by what absorbing BUF[0..LEN-1][31:0] leaves and sets MIXFULL; the pool before does not matter
(41_seed_mixer.md R142, R135). Absorb is the whole of R133, call by call (`absorbAfter`): the initial absorption, the pairwise cross-mix with
the keyed hash R131 and the mix R132, the stir of R134 for COUNT ≤ 2, and every input word past COUNT into every slot. -/
def Obligations.SmxSeedCommand : Prop :=
  (∀ (c : Params) (ins : List U32), absorb c ins = absorbAfter c ins (absorbCalls c ins.length)) ∧
  ∀ (s : State) (ws : List U64), ws.length ≤ s.params.bufWords → s.bufHolds ws →
    exec (.smxSeed ws.length) s =
      .next { s with pool := absorb s.params (ws.map (·.setWidth 32)), mixfull := true, err := .ok, pending := none }

/-- The initial absorption in closed form: slot k is the fold of (In[k] ^ K_k) · K_{k+1} with K_j = SMX_INIT_A · SMX_MULT_A^j, a missing
input word being 0 (41_seed_mixer.md R131, R133, R140). The rest of Absorb is in SmxSeedCommand. -/
def Obligations.InitialAbsorption : Prop :=
  ∀ (c : Params) (n : Nat) (ins : List U32),
    (absorbInit c n c.smxInitA ins).ka = c.smxInitA * c.smxMultA ^ n ∧
    ∀ k, k < n →
      let key (j : Nat) : U32 := c.smxInitA * c.smxMultA ^ j
      let v := (ins.getD k 0 ^^^ key k) * key (k + 1)
      (absorbInit c n c.smxInitA ins).pool[k]? = some (v ^^^ (v >>> c.smxXshift))

/-- Padding equivalence: the spec's own inference R136 from Absorb (41_seed_mixer.md R133). -/
def Obligations.AbsorbPadsWithZeros : Prop :=
  ∀ (c : Params) (ins : List U32), ins.length < c.smxCount →
    absorb c ins = absorb c (ins ++ List.replicate (c.smxCount - ins.length) 0)

/-- Generate word by word in closed form (41_seed_mixer.md R137), whence it restarts (R138): word j does not depend on how many words are
asked for. -/
def Obligations.GenerateWords : Prop :=
  ∀ (c : Params) (pool : List U32) (m : Nat), (generate c pool m).length = m ∧
    ∀ j, j < m →
      let key (k : Nat) : U32 := c.smxInitB * c.smxMultB ^ k
      let v := (pool.getD (j % c.smxCount) 0 ^^^ key j) * key (j + 1)
      (generate c pool m)[j]? = some (v ^^^ (v >>> c.smxXshift))

/-- SMX.GEN LEN with a full pool writes Generate(POOL, LEN), zero-extended, to BUF[0..LEN-1] and nothing else but ERR and BUSY: every other
entry of BUF is as before (41_seed_mixer.md R143). -/
def Obligations.SmxGenCommand : Prop :=
  ∀ (s : State) (len : Nat), s.buf.wf → len ≤ s.params.bufWords → s.mixfull = true →
    ∃ t, exec (.smxGen len) s = .next t ∧ { t with buf := s.buf } = s.done ∧
      (∀ k, k < len → t.buf.readWord k = ((generate s.params s.pool len)[k]?).map (·.setWidth 64)) ∧
      ∀ k, len ≤ k → t.buf.readWord k = s.buf.readWord k

/-- SMX.PARAM with a full pool writes Param(POOL), zero-extended, to BUF[0..COUNT-1] and COUNT to RESULT; every other entry of BUF is as before
(41_seed_mixer.md R144). -/
def Obligations.SmxParamCommand : Prop :=
  ∀ s : State, s.Inv → s.mixfull = true →
    ∃ t, exec .smxParam s = .next t ∧
      { t with buf := s.buf } = { s with result := BitVec.ofNat 64 s.params.smxCount, err := .ok, pending := none } ∧
      (∀ k, k < s.params.smxCount → t.buf.readWord k = ((param s.params s.pool)[k]?).map (·.setWidth 64)) ∧
      ∀ k, s.params.smxCount ≤ k → t.buf.readWord k = s.buf.readWord k

/-- Param's contract: absorbing exactly its COUNT words leaves the pool (41_seed_mixer.md R139). SMX_INIT_A is taken odd, as every K_j must
be for R140's argument (log 17). -/
def Obligations.ParamReproducesPool : Prop :=
  ∀ (c : Params) (pool : List U32), c.wf = true → isOdd c.smxInitA = true → pool.length = c.smxCount →
    (param c pool).length = c.smxCount ∧ absorb c (param c pool) = pool

/-- Param is the only such list (41_seed_mixer.md R139; the spec's own inference R140): COUNT words are recovered from the pool they leave.
SMX_INIT_A is taken odd (log 17). -/
def Obligations.ParamRecoversWords : Prop :=
  ∀ (c : Params) (ws : List U32), c.wf = true → isOdd c.smxInitA = true → ws.length = c.smxCount → param c (absorb c ws) = ws

/-! ### Seeding the engine -/

/-- ENG.SEED (44_engine_commands.md R233) installs the words expanded from ARG0 (43_xoroshiro.md R198, R202, 42_cmwc.md R167) and warms up.
ENG.SEEDDEF is ENG.SEED with ARG0 = DEFAULT_SEED, ARG0 itself kept (44_engine_commands.md R232, 70_reset_and_hazards.md R313). -/
def Obligations.ScalarSeedCommands : Prop :=
  ∀ s : State,
    exec .engSeed s = .next { s with
      eng := seededFrom s.params (expandedWords s.params s.arg0) s.eng, seeded := true, err := .ok, pending := none } ∧
    exec .engSeeddef s = .next { s with
      eng := seededFrom s.params (expandedWords s.params s.params.defaultSeed) s.eng, seeded := true, err := .ok, pending := none }

/-- ENG.SEEDBUF LEN with STATE_WORDS ≤ LEN ≤ BUF_WORDS (44_engine_commands.md R235) installs BUF[0..STATE_WORDS-1] and warms up: for CMWC the low
halves, the carry reduced (42_cmwc.md R169); for kinds 1-6 the words, or the all-zero fallback (43_xoroshiro.md R203). -/
def Obligations.SeedbufCommand : Prop :=
  ∀ (s : State) (ws : List U64) (len : Nat), len ≤ s.params.bufWords → s.params.stateWords ≤ len → ws.length = s.params.stateWords →
    s.bufHolds ws →
    exec (.engSeedbuf len) s = .next { s with
      eng := seededFrom s.params (if s.params.kind = .cmwc then ws else orFallback s.params ws ws) s.eng
      seeded := true
      err := .ok
      pending := none }

/-- ENG.SEEDMIX with a full pool (44_engine_commands.md R234): CMWC takes Generate(POOL, N+1) (42_cmwc.md R170); kinds 1-6 pair the words of
Generate(POOL, 2·STATE_WORDS), low half first, the fallback being over Param(POOL) (43_xoroshiro.md R204). POOL itself is kept. -/
def Obligations.SeedmixCommand : Prop :=
  ∀ s : State, s.mixfull = true →
    let c := s.params
    let wide (ws : List U32) : List U64 := ws.map (·.setWidth 64)
    let g := wide (generate c s.pool (2 * c.stateWords))
    let paired : List U64 := (List.range c.stateWords).map fun k => g.getD (2 * k) 0 ||| (g.getD (2 * k + 1) 0 <<< 32)
    exec .engSeedmix s = .next { s with
      eng := seededFrom c
        (if c.kind = .cmwc then wide (generate c s.pool (c.cmwcN + 1)) else orFallback c paired (wide (param c s.pool))) s.eng
      seeded := true
      err := .ok
      pending := none }

/-- Expand in closed form (43_xoroshiro.md R198) and, the spec's own inference R199, never all zero for two words or more. -/
def Obligations.ExpandNeverAllZero : Prop :=
  ∀ (c : Params) (sv : U64) (w : Nat), c.wf = true → 2 ≤ w →
    (expand c sv w).length = w ∧
    (∀ k, k < w → (expand c sv w)[k]? = some (hash64 c (sv + BitVec.ofNat 64 (k + 1) * c.golden))) ∧
    ∃ x ∈ expand c sv w, x ≠ 0

/-- After ENG.SEEDDEF, SEED, SEEDMIX, SEEDBUF or LOAD completes without error, the engine of a kind 1-6 instance is not all zero
(10_state.md R50, 43_xoroshiro.md R199, R203, R204). -/
def Obligations.SeedingNeverLeavesZero : Prop :=
  ∀ (i : Instr) (s t : State), s.params.wf = true → s.params.kind ≠ .cmwc →
    Instr.isOneOf i [0x00, 0x01, 0x02, 0x03, 0x09] → exec i s = .next t → t.err = .ok →
    t.seeded = true ∧ t.eng.nonzero t.params

/-! ### CMWC -/

/-- ENG.NEXT on CMWC, computed in natural numbers: the step of 42_cmwc.md R161 with its three corner cases, the stored word returned
(R162, R163). -/
def Obligations.CmwcNextCommand : Prop :=
  ∀ s : State, s.params.wf = true → s.params.kind = .cmwc → s.seeded = true →
    let i := (s.eng.cur + 1) % s.params.cmwcN
    let t := (s.params.cmwcA.toNat * (s.eng.q.getD i 0).toNat + s.eng.carry.toNat) % 2 ^ 64
    let carry := t / 2 ^ 32
    let x := (t % 2 ^ 32 + carry) % 2 ^ 32
    let x' := if x < carry then (x + 1) % 2 ^ 32 else x
    let carry' := if x < carry then (carry + 1) % 2 ^ 32 else carry
    let out := if s.params.cmwcCompl then (0xFFFFFFFE + 2 ^ 32 - x') % 2 ^ 32 else x'
    exec .engNext s = .next { s with
      result := BitVec.ofNat 64 out
      eng := { s.eng with q := s.eng.q.set i (BitVec.ofNat 32 out), carry := BitVec.ofNat 32 carry', cur := i }
      err := .ok
      pending := none }

/-- Carry bound, the spec's own inference R175 (42_cmwc.md): with A < 2^32 every step leaves CARRY ≤ A, whatever it was before; so with A < CMAX too, ENG.SEED leaves
CARRY < CMAX (10_state.md R51, after the warm-up). -/
def Obligations.CarryBound : Prop :=
  ∀ s : State, s.params.wf = true → s.params.kind = .cmwc → s.params.cmwcA.toNat < 2 ^ 32 →
    (∀ e : Engine, (cmwcStep s.params e).2.carry.toNat ≤ s.params.cmwcA.toNat) ∧
    (s.params.cmwcA.toNat < s.params.cmwcCmax → ∀ t, exec .engSeed s = .next t → t.eng.carry.toNat < s.params.cmwcCmax)

/-! ### The 64-bit engines -/

/-- ENG.NEXT on kinds 1-4: the sum is read before the xoroshiro128 advance and goes through the kind's output function
(43_xoroshiro.md R191-R193). -/
def Obligations.XoroshiroNextCommand : Prop :=
  ∀ (s : State) (out : U64), s.seeded = true →
    let r := s.eng.s0 + s.eng.s1
    let fold (x : U64) : U64 := x ^^^ (x >>> 32)
    let u := s.eng.s1 ^^^ s.eng.s0
    (s.params.kind = .xrsr128p ∧ out = r) ∨ (s.params.kind = .xrsr128ps ∧ out = fold r) ∨
      (s.params.kind = .xrsr128pss ∧ out = fold r * s.params.mShixo) ∨
      (s.params.kind = .xrsr128psss ∧ out = fold (fold r * s.params.mShixo)) →
    exec .engNext s = .next { s with
      result := out
      eng := { s.eng with
        s0 := ((s.eng.s0 <<< 55) ||| (s.eng.s0 >>> 9)) ^^^ u ^^^ (u <<< 14)
        s1 := (u <<< 36) ||| (u >>> 28) }
      err := .ok
      pending := none }

/-- ENG.NEXT on XSH128P: the output is read before the advance (43_xoroshiro.md R194). -/
def Obligations.Xorshift128NextCommand : Prop :=
  ∀ s : State, s.params.kind = .xsh128p → s.seeded = true →
    let a := s.eng.s0 ^^^ (s.eng.s0 <<< s.params.xsh128A)
    let b := s.eng.s1
    exec .engNext s = .next { s with
      result := s.eng.s0 + s.eng.s1
      eng := { s.eng with s0 := b, s1 := a ^^^ b ^^^ (a >>> s.params.xsh128B) ^^^ (b >>> s.params.xsh128C) }
      err := .ok
      pending := none }

/-- ENG.NEXT on XSH1024S: the cursor moves, one word is written, and the output is that word times the multiplier, after the advance
(43_xoroshiro.md R195). Said word by word of S. -/
def Obligations.Xorshift1024NextCommand : Prop :=
  ∀ s : State, s.params.kind = .xsh1024s → s.seeded = true →
    let p : Nat := (s.eng.p.val + 1) % 16
    let s0 := s.eng.s.toList.getD s.eng.p.val 0
    let s1 := s.eng.s.toList.getD p 0
    let t := s1 ^^^ (s1 <<< s.params.xsh1024A)
    let w := t ^^^ s0 ^^^ (t >>> s.params.xsh1024B) ^^^ (s0 >>> s.params.xsh1024C)
    ∃ u, exec .engNext s = .next u ∧ u.result = w * s.params.xsh1024Mult ∧ u.eng.p.val = p ∧
      u.eng.s.toList = s.eng.s.toList.set p w ∧
      { u with result := s.result, eng := { u.eng with s := s.eng.s, p := s.eng.p } } = s.done

/-- The non-zero invariant (10_state.md R50; the spec's own inference R208) is kept by every step but a completing ENG.JUMP, whose result depends
on the jump table (log 22). -/
def Obligations.NonzeroKeptByEveryStepButJump : Prop :=
  ∀ s t : State, s.params.wf = true → s.NonzeroInv → (∀ v, s.pending = some v → decode v ≠ .ok .engJump) →
    step s = .next t → t.NonzeroInv

/-- One jump is the XOR of the images after n advances over the set bits n of the kind's table, word 0 and bit 0 first; kind 6 ends with P = 0
(43_xoroshiro.md R205, R206). -/
def Obligations.JumpSumsImages : Prop :=
  ∀ (c : Params) (e : Engine), c.kind ≠ .cmwc →
    let table := if c.kind = .xsh1024s then c.xsh1024Jump else if c.kind = .xsh128p then c.xsh128Jump else c.xrsrJump
    (∀ k, k < c.stateWords →
      (engineImage c (xJumpOnce c e)).getD k 0 =
        ((List.range (64 * table.length)).filter fun n => (table.getD (n / 64) 0).getLsbD (n % 64)).foldl
          (fun acc n => acc ^^^ (engineImage c ((xAdvance c)^[n] e)).getD k 0) 0) ∧
    (c.kind = .xsh1024s → (xJumpOnce c e).p = 0)

/-- ENG.JUMP applies XJumpOnce! ARG0 times on a seeded engine of kinds 1-6; ARG0 = 0 changes nothing (44_engine_commands.md R239,
43_xoroshiro.md R207). On CMWC it raises ERR_UNSUPPORTED, seeded or not (42_cmwc.md R174). -/
def Obligations.JumpCommand : Prop :=
  ∀ s : State,
    (s.params.kind ≠ .cmwc → s.seeded = true → ∃ run : Nat → Engine, run 0 = s.eng ∧ (∀ n, run (n + 1) = xJumpOnce s.params (run n)) ∧
      exec .engJump s = .next { s with eng := run s.arg0.toNat, err := .ok, pending := none }) ∧
    (s.params.kind = .cmwc → exec .engJump s = .next { s with err := .unsupported, errseen := true, pending := none })

/-! ### Output, discard, state transfer -/

/-- ENG.GEN LEN writes the words that LEN ENG.NEXT commands return, in order, and leaves the engine they leave; RESULT, every entry of BUF from
LEN on and all else is kept (44_engine_commands.md R237). -/
def Obligations.GenIsRepeatedNext : Prop :=
  ∀ (s : State) (len : Nat), s.buf.wf → s.seeded = true → len ≤ s.params.bufWords →
    ∃ (run : Nat → State) (t : State), run 0 = s ∧ (∀ k, k < len → exec .engNext (run k) = .next (run (k + 1))) ∧
      exec (.engGen len) s = .next t ∧ t.eng = (run len).eng ∧ (∀ k, k < len → t.buf.readWord k = some (run (k + 1)).result) ∧
      (∀ k, len ≤ k → t.buf.readWord k = s.buf.readWord k) ∧
      { t with buf := s.buf, eng := s.eng } = s.done

/-- ENG.DISCARD with ARG0 = n followed by ENG.NEXT leaves the same RESULT and the same state as n + 1 ENG.NEXT commands:
the spec's own inference R244 (44_engine_commands.md). -/
def Obligations.DiscardThenNext : Prop :=
  ∀ s : State, s.seeded = true →
    ∃ (t u : State) (run : Nat → State), exec .engDiscard s = .next t ∧ exec .engNext t = .next u ∧ run 0 = s ∧
      (∀ k, k ≤ s.arg0.toNat → exec .engNext (run k) = .next (run (k + 1))) ∧ run (s.arg0.toNat + 1) = u ∧
      { t with eng := s.eng } = s.done

/-- ENG.SAVE writes the image to BUF[0..STATE_WORDS-1] and its length to RESULT, the engine and the rest of BUF unchanged (44_engine_commands.md R240). For CMWC the image
is Q from the cursor, wrapped, then the carry (42_cmwc.md R171); for kinds 1-5 [S0, S1]; for kind 6 S from P, wrapped (43_xoroshiro.md R197). -/
def Obligations.SaveCommand : Prop :=
  ∀ s : State, s.Inv → s.seeded = true →
    ∃ t, exec .engSave s = .next t ∧
      { t with buf := s.buf } = { s with result := BitVec.ofNat 64 s.params.stateWords, err := .ok, pending := none } ∧
      (∀ k, s.params.stateWords ≤ k → t.buf.readWord k = s.buf.readWord k) ∧
      ∀ k, k < s.params.stateWords →
        t.buf.readWord k = some (
          if s.params.kind = .cmwc then
            if k < s.params.cmwcN then (s.eng.q.getD ((s.eng.cur + k) % s.params.cmwcN) 0).setWidth 64 else s.eng.carry.setWidth 64
          else if s.params.kind = .xsh1024s then s.eng.s.toList.getD ((s.eng.p.val + k) % 16) 0
          else if k = 0 then s.eng.s0 else s.eng.s1)

/-- ENG.LOAD STATE_WORDS: an image outside the valid domain raises ERR_BAD_VALUE (60_exceptions.md R288, R289 position 7); any other is installed with
no warm-up and seeds the engine, the CMWC carry unreduced and the cursor 0 (44_engine_commands.md R241, 42_cmwc.md R172, 43_xoroshiro.md R197). -/
def Obligations.LoadChecksValues : Prop :=
  ∀ (s : State) (ws : List U64), ws.length = s.params.stateWords → ws.length ≤ s.params.bufWords → s.bufHolds ws →
    let bad : Prop := if s.params.kind = .cmwc then ∃ w ∈ ws, 2 ^ 32 ≤ w.toNat else ∀ w ∈ ws, w = 0
    (bad → exec (.engLoad ws.length) s = .next { s with err := .badValue, errseen := true, pending := none }) ∧
    (¬ bad → exec (.engLoad ws.length) s = .next { s with
      eng :=
        if s.params.kind = .cmwc then
          { s.eng with
            q := (List.range s.params.cmwcN).map fun k => (ws.getD k 0).setWidth 32
            carry := (ws.getD s.params.cmwcN 0).setWidth 32
            cur := 0 }
        else if s.params.kind = .xsh1024s then { s.eng with s := Vector.ofFn fun k => ws.getD k.val 0, p := 0 }
        else { s.eng with s0 := ws.getD 0 0, s1 := ws.getD 1 0 }
      seeded := true
      err := .ok
      pending := none })

/-- ENG.EQ STATE_WORDS on a seeded engine: RESULT is 1 exactly when every image word equals its BUF word, all 64 bits
(44_engine_commands.md R242); and right after ENG.SAVE it is 1. -/
def Obligations.EqComparesImages : Prop :=
  ∀ (s : State) (ws : List U64), s.Inv → s.seeded = true → ws.length = s.params.stateWords → s.bufHolds ws →
    exec (.engEq ws.length) s =
      .next { s with result := if engineImage s.params s.eng = ws then 1 else 0, err := .ok, pending := none } ∧
    ∃ t u, exec .engSave s = .next t ∧ exec (.engEq s.params.stateWords) t = .next u ∧ u.result = 1

/-- Round trip of two engines of one configuration: ENG.SAVE on the first and ENG.LOAD of the same words on the second makes the second equal to the
first, image for image, with the same future outputs: the spec's own inferences R243 (44_engine_commands.md) and R173 (42_cmwc.md). -/
def Obligations.SaveThenLoadResumes : Prop :=
  ∀ s₁ s₂ t₁ : State, s₁.Inv → s₁.NonzeroInv → s₁.seeded = true → s₂.params = s₁.params → exec .engSave s₁ = .next t₁ →
    (∀ k, k < s₁.params.stateWords → s₂.buf.readWord k = t₁.buf.readWord k) →
    ∃ t₂, exec (.engLoad s₁.params.stateWords) s₂ = .next t₂ ∧ t₂.seeded = true ∧
      engineImage t₂.params t₂.eng = engineImage s₁.params s₁.eng ∧
      ∀ n, (engineGen t₂.params n t₂.eng).1 = (engineGen s₁.params n s₁.eng).1

/-- Engines with equal images give the same next output and equal images after it: for ENG.NEXT, and so for ENG.GEN and ENG.DISCARD, what the
spec's own inference 10_state.md R52 says. -/
def Obligations.ImageDeterminesFuture : Prop :=
  ∀ (c : Params) (e₁ e₂ : Engine), c.wf = true → e₁.shaped c → e₂.shaped c → engineImage c e₁ = engineImage c e₂ →
    (engineNext c e₁).1 = (engineNext c e₂).1 ∧ engineImage c (engineNext c e₁).2 = engineImage c (engineNext c e₂).2

/-! ### Invariant -/

/-- The invariant holds at reset (of the instance that logs 2-6 choose). -/
def Obligations.InvariantAtReset : Prop := State.reset.Inv ∧ State.reset.NonzeroInv

/-- Every step keeps the invariant: legal parameters, BUF's storage canonical, inside BUF and whole, N words of Q and CUR in [0, N), COUNT words of
POOL (10_state.md R47, R51, R53, 20_memory.md R86). -/
def Obligations.InvariantKeptByEveryStep : Prop := ∀ s t : State, s.Inv → step s = .next t → t.Inv
end

