-- ==== Sys2Proof/Laws/Bits.lean ====
section
/-! SUPPORT. Facts about the bit operations: folds undo themselves, `inv32` inverts, the shift-xor steps and odd multipliers are
injective. -/

namespace Sys2Proof.Machine

/-- The 64-bit fold undoes itself (40_hash.md R111, R114). -/
theorem fold64_fold64 (x : U64) : fold64 (fold64 x) = x := by
  apply BitVec.eq_of_getLsbD_eq
  intro i hi
  simp only [fold64, BitVec.getLsbD_xor, BitVec.getLsbD_ushiftRight]
  rw [BitVec.getLsbD_of_ge x (32 + (32 + i)) (by omega)]
  simp

/-- The 32-bit fold undoes itself (41_seed_mixer.md R140). -/
theorem fold32_fold32 (x : U32) : fold32 (fold32 x) = x := by
  apply BitVec.eq_of_getLsbD_eq
  intro i hi
  simp only [fold32, BitVec.getLsbD_xor, BitVec.getLsbD_ushiftRight]
  rw [BitVec.getLsbD_of_ge x (16 + (16 + i)) (by omega)]
  simp

/-- A Newton step squares the error. -/
theorem invStep_error (a x : U32) : 1 - a * invStep a x = (1 - a * x) * (1 - a * x) := by
  unfold invStep; ring

/-- `isOdd` in terms of the number. -/
theorem odd_eq {n : Nat} {v : BitVec n} (h : isOdd v = true) : v.toNat % 2 = 1 := by
  unfold isOdd at h
  simp [BitVec.getLsbD, Nat.testBit_zero] at h
  exact h

/-- The square of an odd number is 1 modulo 8. -/
theorem sq_sub_one_mul (a : U32) (h : isOdd a = true) : ∃ t : U32, 1 - a * a = 8 * t := by
  have h1 := odd_eq h
  obtain ⟨k, hk⟩ : ∃ k, a.toNat = 2 * k + 1 := ⟨a.toNat / 2, by omega⟩
  obtain ⟨j, hj⟩ : ∃ j, k * (k + 1) = 2 * j := by
    rcases Nat.even_or_odd' k with ⟨m, rfl | rfl⟩
    · exact ⟨m * (2 * m + 1), by ring⟩
    · exact ⟨(2 * m + 1) * (m + 1), by ring⟩
  refine ⟨-(BitVec.ofNat 32 j), ?_⟩
  have ha : a = BitVec.ofNat 32 (2 * k + 1) := by rw [← hk]; simp
  have : a * a = BitVec.ofNat 32 (8 * j + 1) := by
    rw [ha, ← BitVec.ofNat_mul]
    congr 1
    nlinarith
  rw [this]
  have : BitVec.ofNat 32 (8 * j + 1) = 8 * BitVec.ofNat 32 j + 1 := by
    rw [BitVec.ofNat_add, BitVec.ofNat_mul]; rfl
  rw [this]; ring

/-- `inv32` inverts an odd word (41_seed_mixer.md R141). -/
theorem mul_inv32 (a : U32) (h : isOdd a = true) : a * inv32 a = 1 := by
  obtain ⟨t, ht⟩ := sq_sub_one_mul a h
  have : 1 - a * inv32 a = 0 := by
    simp only [inv32, invStep_error, ht]
    have h0 : (8 : U32)^16 = 0 := by decide
    calc _ = (8 : U32)^16 * t^16 := by ring
      _ = 0 := by rw [h0]; simp
  have := sub_eq_zero.mp this
  exact this.symm

/-- `x ^ (x << k)` is injective at 0 (43_xoroshiro.md R208). -/
theorem xorShl_eq_zero {x : U64} {k : Nat} (hk : 0 < k) (h : x ^^^ (x <<< k) = 0) : x = 0 := by
  apply BitVec.eq_of_getLsbD_eq
  intro i hi
  induction i using Nat.strong_induction_on with
  | _ i ih =>
    have hb := congrArg (fun v => v.getLsbD i) h
    simp only [BitVec.getLsbD_xor, BitVec.getLsbD_shiftLeft] at hb
    by_cases hik : i < k
    · simpa [hik] using hb
    · have := ih (i - k) (by omega) (by omega)
      simp at this
      simpa [hik, this] using hb

/-- `x ^ (x >> k)` is injective at 0 (43_xoroshiro.md R208). -/
theorem xorShr_eq_zero {x : U64} {k : Nat} (hk : 0 < k) (h : x ^^^ (x >>> k) = 0) : x = 0 := by
  apply BitVec.eq_of_getLsbD_eq
  have key : ∀ d i, i + d = 64 → x.getLsbD i = false := by
    intro d
    induction d using Nat.strong_induction_on with
    | _ d ih =>
      intro i hd
      have hb := congrArg (fun v => v.getLsbD i) h
      simp only [BitVec.getLsbD_xor, BitVec.getLsbD_ushiftRight] at hb
      have : x.getLsbD (k + i) = false := by
        by_cases hki : k + i < 64
        · exact ih (64 - (k + i)) (by omega) (k + i) (by omega)
        · exact BitVec.getLsbD_of_ge _ _ (by omega)
      simpa [this] using hb
  intro i hi
  simpa using key (64 - i) i (by omega)

/-- Multiplication by an odd word is injective (40_hash.md R111). -/
theorem mul_odd_injective {n : Nat} {m x y : BitVec n} (h : isOdd m = true) (e : x * m = y * m) : x = y := by
  have hc : Nat.Coprime (2 ^ n) m.toNat :=
    Nat.Coprime.pow_left n (Nat.coprime_two_left.mpr (Nat.odd_iff.mpr (odd_eq h)))
  have := congrArg BitVec.toNat e
  simp only [BitVec.toNat_mul] at this
  have := Nat.ModEq.cancel_right_of_coprime (m := 2 ^ n) (c := m.toNat) (by simpa [Nat.Coprime] using hc) this
  exact BitVec.eq_of_toNat_eq (by
    rw [← Nat.mod_eq_of_lt x.isLt, ← Nat.mod_eq_of_lt y.isLt]; exact this)

@[simp] theorem lo32_zext64 (v : U32) : lo32 (zext64 v) = v := by
  apply BitVec.eq_of_getLsbD_eq
  intro i hi
  simp [lo32, zext64, hi]
  intro h; omega

/-- A word below 2^32 is the zero-extension of its low half. -/
theorem zext64_lo32 {v : U64} (h : v.toNat < 4294967296) : zext64 (lo32 v) = v := by
  apply BitVec.eq_of_toNat_eq
  simp [zext64, lo32]
  omega

theorem lo32_toNat (v : U64) : (lo32 v).toNat = v.toNat % 4294967296 := by simp [lo32]

theorem hi32_toNat (v : U64) : (hi32 v).toNat = v.toNat / 4294967296 := by
  have := v.isLt
  simp [hi32, Nat.shiftRight_eq_div_pow]
  omega

theorem zext64_toNat (v : U32) : (zext64 v).toNat = v.toNat := by
  have := v.isLt
  simp [zext64]
  omega

end Sys2Proof.Machine
end

