-- ==== Sys2Proof/Laws/Memory.lean ====
section
/-! SUPPORT. The laws of BUF's storage: a read after a write, the canonical form, and that storage stays whole and inside BUF. -/

namespace Sys2Proof.Machine

/-! ### Bytes -/

theorem Memory.readByte_of_forall_lt {m : Memory} {a : Nat} (h : ∀ c ∈ m, a < c.1) : m.readByte a = none := by
  induction m with
  | nil => rfl
  | cons c m ih =>
    obtain ⟨b, v⟩ := c
    have hb : a < b := h (b, v) (by simp)
    simp only [Memory.readByte, if_neg (Nat.ne_of_gt hb)]
    exact ih fun c hc => h c (by simp [hc])

theorem Memory.readByte_writeByte {m : Memory} (hm : m.wf) (a : Nat) (v : U8) (b : Nat) :
    (m.writeByte a v).readByte b = if b = a then some v else m.readByte b := by
  induction m with
  | nil => simp only [Memory.writeByte, Memory.readByte]; split <;> simp_all [eq_comm]
  | cons c m ih =>
    obtain ⟨x, w⟩ := c
    have hlt : ∀ c ∈ m, x < c.1 := (List.pairwise_cons.mp hm).1
    have ih := ih (List.pairwise_cons.mp hm).2
    simp only [Memory.writeByte]
    split
    · next hax =>
      by_cases hb : b = a
      · simp [Memory.readByte, hb]
      · simp only [Memory.readByte, if_neg hb, if_neg (Ne.symm hb)]
    · split
      · next hax => subst hax; simp only [Memory.readByte]; by_cases hb : a = b <;> simp [hb, eq_comm]
      · next hne =>
        simp only [Memory.readByte]
        by_cases hx : x = b
        · subst hx; simp [Ne.symm hne]
        · simp [hx, ih]

theorem Memory.mem_writeByte {m : Memory} {a : Nat} {v : U8} {c : Host.Cell} (h : c ∈ m.writeByte a v) :
    c = (a, v) ∨ c ∈ m := by
  induction m with
  | nil => simpa [Memory.writeByte] using h
  | cons x m ih =>
    obtain ⟨b, w⟩ := x
    simp only [Memory.writeByte] at h
    split at h
    · simpa using h
    · split at h
      · rcases List.mem_cons.mp h with h | h
        · exact .inl h
        · exact .inr (by simp [h])
      · rcases List.mem_cons.mp h with h | h
        · exact .inr (by simp [h])
        · rcases ih h with h | h
          · exact .inl h
          · exact .inr (by simp [h])

/-- A byte write keeps the canonical form. -/
theorem Memory.writeByte_wf {m : Memory} (hm : m.wf) (a : Nat) (v : U8) : (m.writeByte a v).wf := by
  induction m with
  | nil => simp [Memory.writeByte, Memory.wf]
  | cons x m ih =>
    obtain ⟨b, w⟩ := x
    obtain ⟨hb, hm'⟩ := List.pairwise_cons.mp hm
    simp only [Memory.writeByte]
    split
    · next hab =>
      refine List.pairwise_cons.mpr ⟨fun c hc => ?_, hm⟩
      rcases List.mem_cons.mp hc with h | h
      · subst h; exact hab
      · exact lt_trans hab (hb c h)
    · split
      · next hab => subst hab; exact List.pairwise_cons.mpr ⟨hb, hm'⟩
      · next h1 h2 =>
        refine List.pairwise_cons.mpr ⟨fun c hc => ?_, ih hm'⟩
        rcases Memory.mem_writeByte hc with h | h
        · subst h; show b < a; omega
        · exact hb c h

theorem Memory.writeBytes_wf {m : Memory} (hm : m.wf) (a : Nat) (bs : List U8) : (m.writeBytes a bs).wf := by
  induction bs generalizing m a with
  | nil => exact hm
  | cons b bs ih => exact ih (Memory.writeByte_wf hm a b) (a + 1)

theorem Memory.readByte_writeBytes {m : Memory} (hm : m.wf) (a : Nat) (bs : List U8) (b : Nat) :
    (m.writeBytes a bs).readByte b = if a ≤ b ∧ b < a + bs.length then bs[b - a]? else m.readByte b := by
  induction bs generalizing m a with
  | nil => simp only [Memory.writeBytes, List.length_nil]; rw [if_neg (by omega)]
  | cons v bs ih =>
    rw [Memory.writeBytes, ih (Memory.writeByte_wf hm a v), Memory.readByte_writeByte hm]
    simp only [List.length_cons]
    by_cases h1 : b = a
    · subst h1
      rw [if_neg (by omega), if_pos rfl, if_pos (by omega)]
      simp
    · by_cases h2 : a + 1 ≤ b ∧ b < a + 1 + bs.length
      · rw [if_pos h2, if_pos (by omega), show b - a = (b - (a + 1)) + 1 from by omega]
        simp
      · rw [if_neg h2, if_neg h1, if_neg (by omega)]

theorem Memory.readBytes_congr {m m' : Memory} {a n : Nat} (h : ∀ j, j < n → m.readByte (a + j) = m'.readByte (a + j)) :
    m.readBytes a n = m'.readBytes a n := by
  induction n generalizing a with
  | zero => rfl
  | succ n ih =>
    simp only [Memory.readBytes]
    rw [show m.readByte a = m'.readByte a from by simpa using h 0 (by omega), ih (a := a + 1) fun j hj => by
      rw [show a + 1 + j = a + (j + 1) from by omega]; exact h (j + 1) (by omega)]

theorem Memory.readBytes_of_getElem {m : Memory} {a : Nat} {bs : List U8}
    (h : ∀ j, j < bs.length → m.readByte (a + j) = bs[j]?) : m.readBytes a bs.length = some bs := by
  induction bs generalizing a with
  | nil => rfl
  | cons b bs ih =>
    simp only [Memory.readBytes, List.length_cons]
    rw [show m.readByte a = some b from by simpa using h 0 (by simp), ih fun j hj => by
      rw [show a + 1 + j = a + (j + 1) from by omega]; simpa using h (j + 1) (by simpa using hj)]
    rfl

theorem Memory.readBytes_isSome {m : Memory} {a n : Nat} :
    (m.readBytes a n).isSome ↔ ∀ j, j < n → (m.readByte (a + j)).isSome := by
  induction n generalizing a with
  | zero => simp [Memory.readBytes]
  | succ n ih =>
    simp only [Memory.readBytes]
    constructor
    · intro h j hj
      cases hb : m.readByte a with
      | none => simp [hb] at h
      | some b =>
        cases j with
        | zero => simp [hb]
        | succ j =>
          have := (ih (a := a + 1)).mp (by simpa [hb] using h) j (by omega)
          rwa [show a + 1 + j = a + (j + 1) from by omega] at this
    · intro h
      obtain ⟨b, hb⟩ := Option.isSome_iff_exists.mp (by simpa using h 0 (by omega))
      have := (ih (a := a + 1)).mpr fun j hj => by
        have := h (j + 1) (by omega)
        rwa [show a + (j + 1) = a + 1 + j from by omega] at this
      simpa [hb] using this

/-! ### Words -/

@[simp] theorem wordBytes_length (v : U64) : (wordBytes v).length = 8 := by simp [wordBytes]

/-- A word is the word of its eight bytes. -/
@[simp] theorem bytesWord_wordBytes (v : U64) : bytesWord (wordBytes v) = v := by
  have h : wordBytes v = [v.extractLsb' 0 8, v.extractLsb' 8 8, v.extractLsb' 16 8, v.extractLsb' 24 8, v.extractLsb' 32 8,
      v.extractLsb' 40 8, v.extractLsb' 48 8, v.extractLsb' 56 8] := rfl
  rw [h]
  apply BitVec.eq_of_getLsbD_eq
  intro i hi
  simp only [bytesWord, List.foldr, BitVec.getLsbD_or, BitVec.getLsbD_shiftLeft, BitVec.getLsbD_setWidth,
    BitVec.getLsbD_extractLsb']
  interval_cases i <;> simp

theorem Memory.writeWord_wf {m : Memory} (hm : m.wf) (k : Nat) (v : U64) : (m.writeWord k v).wf :=
  Memory.writeBytes_wf hm _ _

theorem Memory.readByte_writeWord {m : Memory} (hm : m.wf) (k : Nat) (v : U64) (a : Nat) :
    (m.writeWord k v).readByte a = if bufAddr k ≤ a ∧ a < bufAddr k + 8 then (wordBytes v)[a - bufAddr k]? else m.readByte a := by
  simp [Memory.writeWord, Memory.readByte_writeBytes hm]

/-- A write leaves every byte outside its entry alone. -/
theorem Memory.readByte_writeWord_frame {m : Memory} (hm : m.wf) {k a : Nat} (v : U64)
    (h : ¬(bufAddr k ≤ a ∧ a < bufAddr (k + 1))) : (m.writeWord k v).readByte a = m.readByte a := by
  rw [Memory.readByte_writeWord hm, if_neg (by unfold bufAddr at *; omega)]

/-- A read of an entry after a write to it gives the word written. -/
theorem Memory.readWord_writeWord_same {m : Memory} (hm : m.wf) (k : Nat) (v : U64) : (m.writeWord k v).readWord k = some v := by
  have : (m.writeWord k v).readBytes (bufAddr k) (wordBytes v).length = some (wordBytes v) :=
    Memory.readBytes_of_getElem fun j hj => by
      rw [wordBytes_length] at hj
      rw [Memory.readByte_writeWord hm, if_pos (by omega)]
      simp
  rw [wordBytes_length] at this
  simp [Memory.readWord, this]

/-- A write leaves every other entry alone. -/
theorem Memory.readWord_writeWord_ne {m : Memory} (hm : m.wf) {j k : Nat} (v : U64) (h : j ≠ k) :
    (m.writeWord k v).readWord j = m.readWord j := by
  have : (m.writeWord k v).readBytes (bufAddr j) 8 = m.readBytes (bufAddr j) 8 :=
    Memory.readBytes_congr fun i hi => by rw [Memory.readByte_writeWord hm, if_neg (by unfold bufAddr; omega)]
  rw [Memory.readWord, Memory.readWord, this]

theorem Memory.readWord_writeWord {m : Memory} (hm : m.wf) (j k : Nat) (v : U64) :
    (m.writeWord k v).readWord j = if j = k then some v else m.readWord j := by
  split
  · next h => subst h; exact Memory.readWord_writeWord_same hm j v
  · next h => exact Memory.readWord_writeWord_ne hm v h

theorem Memory.writeWords_wf {m : Memory} (hm : m.wf) (k : Nat) (ws : List U64) : (m.writeWords k ws).wf := by
  induction ws generalizing m k with
  | nil => exact hm
  | cons w ws ih => exact ih (Memory.writeWord_wf hm k w) (k + 1)

/-- What each entry reads as after consecutive words were written. -/
theorem Memory.readWord_writeWords {m : Memory} (hm : m.wf) (k : Nat) (ws : List U64) (j : Nat) :
    (m.writeWords k ws).readWord j = if k ≤ j ∧ j < k + ws.length then ws[j - k]? else m.readWord j := by
  induction ws generalizing m k with
  | nil => simp only [Memory.writeWords, List.length_nil]; rw [if_neg (by omega)]
  | cons w ws ih =>
    rw [Memory.writeWords, ih (Memory.writeWord_wf hm k w), Memory.readWord_writeWord hm]
    simp only [List.length_cons]
    by_cases h1 : j = k
    · subst h1
      rw [if_neg (by omega), if_pos rfl, if_pos (by omega)]
      simp
    · by_cases h2 : k + 1 ≤ j ∧ j < k + 1 + ws.length
      · rw [if_pos h2, if_pos (by omega), show j - k = (j - (k + 1)) + 1 from by omega]
        simp
      · rw [if_neg h2, if_neg h1, if_neg (by omega)]

/-- Consecutive writes leave every byte outside their entries alone. -/
theorem Memory.readByte_writeWords_frame {m : Memory} (hm : m.wf) {k a : Nat} (ws : List U64)
    (h : ¬(bufAddr k ≤ a ∧ a < bufAddr (k + ws.length))) : (m.writeWords k ws).readByte a = m.readByte a := by
  induction ws generalizing m k with
  | nil => rfl
  | cons w ws ih =>
    simp only [List.length_cons] at h
    rw [Memory.writeWords, ih (Memory.writeWord_wf hm k w) (by unfold bufAddr at *; omega),
      Memory.readByte_writeWord_frame hm w (by unfold bufAddr at *; omega)]

/-- Reading words that are each there. -/
theorem Memory.readWords_eq_ok {m : Memory} {k : Nat} {ws : List U64} (h : ∀ j, j < ws.length → m.readWord (k + j) = ws[j]?) :
    m.readWords k ws.length = .ok ws := by
  induction ws generalizing k with
  | nil => rfl
  | cons w ws ih =>
    simp only [Memory.readWords, List.length_cons]
    rw [show m.readWord k = some w from by simpa using h 0 (by simp), ih fun j hj => by
      rw [show k + 1 + j = k + (j + 1) from by omega]; simpa using h (j + 1) (by simpa using hj)]

/-- What a read of consecutive entries says, when it succeeds. -/
theorem Memory.readWords_ok {m : Memory} {k n : Nat} {ws : List U64} (h : m.readWords k n = .ok ws) :
    ws.length = n ∧ ∀ j, j < n → m.readWord (k + j) = ws[j]? := by
  induction n generalizing k ws with
  | zero => simp [Memory.readWords] at h; subst h; simp
  | succ n ih =>
    simp only [Memory.readWords] at h
    split at h
    · simp at h
    · next w hw =>
      split at h
      · simp at h
      · next ws' hws =>
        obtain ⟨hl, hg⟩ := ih hws
        simp only [Except.ok.injEq] at h
        subst h
        refine ⟨by simp [hl], fun j hj => ?_⟩
        cases j with
        | zero => simpa using hw
        | succ j =>
          rw [show k + (j + 1) = k + 1 + j from by omega, hg j (by omega)]
          simp

/-- A read of consecutive entries fails exactly at the first one never written. -/
theorem Memory.readWords_error {m : Memory} {k n j : Nat} (h : m.readWords k n = .error j) :
    k ≤ j ∧ j < k + n ∧ m.readWord j = none := by
  induction n generalizing k with
  | zero => simp [Memory.readWords] at h
  | succ n ih =>
    simp only [Memory.readWords] at h
    split at h
    · next hw => simp only [Except.error.injEq] at h; subst h; exact ⟨le_refl _, by omega, hw⟩
    · split at h
      · next j' hj =>
        simp only [Except.error.injEq] at h; subst h
        obtain ⟨h1, h2, h3⟩ := ih hj
        exact ⟨by omega, by omega, h3⟩
      · simp at h

/-- A read of consecutive written entries succeeds. -/
theorem Memory.readWords_total {m : Memory} {k n : Nat} (h : ∀ j, j < n → (m.readWord (k + j)).isSome) :
    ∃ ws, m.readWords k n = .ok ws := by
  cases hr : m.readWords k n with
  | ok ws => exact ⟨ws, rfl⟩
  | error j =>
    obtain ⟨h1, h2, h3⟩ := Memory.readWords_error hr
    have := h (j - k) (by omega)
    rw [show k + (j - k) = j from by omega, h3] at this
    simp at this

/-- Words just written read back. -/
theorem Memory.readWords_writeWords {m : Memory} (hm : m.wf) (ws : List U64) :
    (m.writeWords 0 ws).readWords 0 ws.length = .ok ws := by
  refine Memory.readWords_eq_ok fun j hj => ?_
  rw [Memory.readWord_writeWords hm, if_pos (by omega)]
  simp

/-! ### BUF's storage stays inside BUF, in whole entries -/

theorem Memory.within_writeWord {m : Memory} {n k : Nat} (h : m.within n) (hk : k < n) (v : U64) :
    (m.writeWord k v).within n := by
  have key : ∀ (bs : List U8) (m : Memory) (a : Nat), bufBase ≤ a → a + bs.length ≤ bufAddr n → m.within n →
      (m.writeBytes a bs).within n := by
    intro bs
    induction bs with
    | nil => intro m a _ _ h; exact h
    | cons b bs ih =>
      intro m a h1 h2 h
      refine ih (m.writeByte a b) (a + 1) (by omega) (by simp at h2; omega) fun c hc => ?_
      rcases Memory.mem_writeByte hc with h' | h'
      · subst h'; simp at h2; exact ⟨h1, by show a < _; omega⟩
      · exact h c h'
  exact key _ _ _ (by simp [bufAddr]) (by simp [bufAddr]; omega) h

theorem Memory.wholeEntries_writeWord {m : Memory} (hm : m.wf) (h : m.wholeEntries) (k : Nat) (v : U64) :
    (m.writeWord k v).wholeEntries := by
  intro i j hj
  rw [Memory.readByte_writeWord hm, Memory.readByte_writeWord hm]
  by_cases hik : i = k
  · subst hik
    rw [if_pos (by omega), if_pos (by omega)]
    simp [hj]
  · rw [if_neg (by unfold bufAddr; omega), if_neg (by unfold bufAddr; omega)]
    exact h i j hj

theorem Memory.within_writeWords {m : Memory} {n k : Nat} {ws : List U64} (h : m.within n) (hk : k + ws.length ≤ n) :
    (m.writeWords k ws).within n := by
  induction ws generalizing m k with
  | nil => exact h
  | cons w ws ih =>
    simp only [List.length_cons] at hk
    exact ih (Memory.within_writeWord h (by omega) w) (by omega)

theorem Memory.wholeEntries_writeWords {m : Memory} (hm : m.wf) (h : m.wholeEntries) (k : Nat) (ws : List U64) :
    (m.writeWords k ws).wholeEntries := by
  induction ws generalizing m k with
  | nil => exact h
  | cons w ws ih => exact ih (Memory.writeWord_wf hm k w) (Memory.wholeEntries_writeWord hm h k w) (k + 1)

theorem Memory.nil_wf : Memory.wf [] := List.Pairwise.nil

theorem Memory.nil_wholeEntries : Memory.wholeEntries [] := fun _ _ _ => by simp [Memory.readByte]

/-- The reset state's storage is in canonical form. -/
theorem State.reset_buf_wf : State.reset.buf.wf := Memory.nil_wf

end Sys2Proof.Machine
end

