-- ==== Sys2Proof/Laws/State.lean ====
section
/-! SUPPORT. One lemma per field per state update, so that no later proof unfolds a record update; and what `check`, `withBuf` and the
host's CMD write can do. -/

namespace Sys2Proof.Machine

@[simp] theorem State.raise_params (e : ErrCode) (s : State) : (s.raise e).params = s.params := rfl
@[simp] theorem State.raise_pending (e : ErrCode) (s : State) : (s.raise e).pending = none := rfl
@[simp] theorem State.raise_arg0 (e : ErrCode) (s : State) : (s.raise e).arg0 = s.arg0 := rfl
@[simp] theorem State.raise_result (e : ErrCode) (s : State) : (s.raise e).result = s.result := rfl
@[simp] theorem State.raise_seeded (e : ErrCode) (s : State) : (s.raise e).seeded = s.seeded := rfl
@[simp] theorem State.raise_mixfull (e : ErrCode) (s : State) : (s.raise e).mixfull = s.mixfull := rfl
@[simp] theorem State.raise_ovr (e : ErrCode) (s : State) : (s.raise e).ovr = s.ovr := rfl
@[simp] theorem State.raise_errseen (e : ErrCode) (s : State) : (s.raise e).errseen = true := rfl
@[simp] theorem State.raise_err (e : ErrCode) (s : State) : (s.raise e).err = e := rfl
@[simp] theorem State.raise_eng (e : ErrCode) (s : State) : (s.raise e).eng = s.eng := rfl
@[simp] theorem State.raise_pool (e : ErrCode) (s : State) : (s.raise e).pool = s.pool := rfl
@[simp] theorem State.raise_buf (e : ErrCode) (s : State) : (s.raise e).buf = s.buf := rfl
@[simp] theorem State.raise_actions (e : ErrCode) (s : State) : (s.raise e).actions = s.actions := rfl
@[simp] theorem State.raise_reads (e : ErrCode) (s : State) : (s.raise e).reads = s.reads := rfl
@[simp] theorem State.raise_freeCount (e : ErrCode) (s : State) : (s.raise e).freeCount = s.freeCount := rfl

@[simp] theorem State.succeed_params (s : State) : s.succeed.params = s.params := rfl
@[simp] theorem State.succeed_pending (s : State) : s.succeed.pending = none := rfl
@[simp] theorem State.succeed_arg0 (s : State) : s.succeed.arg0 = s.arg0 := rfl
@[simp] theorem State.succeed_result (s : State) : s.succeed.result = s.result := rfl
@[simp] theorem State.succeed_seeded (s : State) : s.succeed.seeded = s.seeded := rfl
@[simp] theorem State.succeed_mixfull (s : State) : s.succeed.mixfull = s.mixfull := rfl
@[simp] theorem State.succeed_ovr (s : State) : s.succeed.ovr = s.ovr := rfl
@[simp] theorem State.succeed_errseen (s : State) : s.succeed.errseen = s.errseen := rfl
@[simp] theorem State.succeed_err (s : State) : s.succeed.err = .ok := rfl
@[simp] theorem State.succeed_eng (s : State) : s.succeed.eng = s.eng := rfl
@[simp] theorem State.succeed_pool (s : State) : s.succeed.pool = s.pool := rfl
@[simp] theorem State.succeed_buf (s : State) : s.succeed.buf = s.buf := rfl
@[simp] theorem State.succeed_actions (s : State) : s.succeed.actions = s.actions := rfl
@[simp] theorem State.succeed_reads (s : State) : s.succeed.reads = s.reads := rfl
@[simp] theorem State.succeed_freeCount (s : State) : s.succeed.freeCount = s.freeCount := rfl

@[simp] theorem State.installEngine_params (e : Engine) (s : State) : (s.installEngine e).params = s.params := rfl
@[simp] theorem State.installEngine_pending (e : Engine) (s : State) : (s.installEngine e).pending = s.pending := rfl
@[simp] theorem State.installEngine_arg0 (e : Engine) (s : State) : (s.installEngine e).arg0 = s.arg0 := rfl
@[simp] theorem State.installEngine_result (e : Engine) (s : State) : (s.installEngine e).result = s.result := rfl
@[simp] theorem State.installEngine_seeded (e : Engine) (s : State) : (s.installEngine e).seeded = true := rfl
@[simp] theorem State.installEngine_mixfull (e : Engine) (s : State) : (s.installEngine e).mixfull = s.mixfull := rfl
@[simp] theorem State.installEngine_ovr (e : Engine) (s : State) : (s.installEngine e).ovr = s.ovr := rfl
@[simp] theorem State.installEngine_errseen (e : Engine) (s : State) : (s.installEngine e).errseen = s.errseen := rfl
@[simp] theorem State.installEngine_err (e : Engine) (s : State) : (s.installEngine e).err = s.err := rfl
@[simp] theorem State.installEngine_eng (e : Engine) (s : State) : (s.installEngine e).eng = e := rfl
@[simp] theorem State.installEngine_pool (e : Engine) (s : State) : (s.installEngine e).pool = s.pool := rfl
@[simp] theorem State.installEngine_buf (e : Engine) (s : State) : (s.installEngine e).buf = s.buf := rfl
@[simp] theorem State.installEngine_actions (e : Engine) (s : State) : (s.installEngine e).actions = s.actions := rfl
@[simp] theorem State.installEngine_reads (e : Engine) (s : State) : (s.installEngine e).reads = s.reads := rfl
@[simp] theorem State.installEngine_freeCount (e : Engine) (s : State) : (s.installEngine e).freeCount = s.freeCount := rfl

@[simp] theorem State.logRead_params (a : Nat) (v : U64) (s : State) : (s.logRead a v).params = s.params := rfl
@[simp] theorem State.logRead_pending (a : Nat) (v : U64) (s : State) : (s.logRead a v).pending = s.pending := rfl
@[simp] theorem State.logRead_arg0 (a : Nat) (v : U64) (s : State) : (s.logRead a v).arg0 = s.arg0 := rfl
@[simp] theorem State.logRead_result (a : Nat) (v : U64) (s : State) : (s.logRead a v).result = s.result := rfl
@[simp] theorem State.logRead_seeded (a : Nat) (v : U64) (s : State) : (s.logRead a v).seeded = s.seeded := rfl
@[simp] theorem State.logRead_mixfull (a : Nat) (v : U64) (s : State) : (s.logRead a v).mixfull = s.mixfull := rfl
@[simp] theorem State.logRead_ovr (a : Nat) (v : U64) (s : State) : (s.logRead a v).ovr = s.ovr := rfl
@[simp] theorem State.logRead_errseen (a : Nat) (v : U64) (s : State) : (s.logRead a v).errseen = s.errseen := rfl
@[simp] theorem State.logRead_err (a : Nat) (v : U64) (s : State) : (s.logRead a v).err = s.err := rfl
@[simp] theorem State.logRead_eng (a : Nat) (v : U64) (s : State) : (s.logRead a v).eng = s.eng := rfl
@[simp] theorem State.logRead_pool (a : Nat) (v : U64) (s : State) : (s.logRead a v).pool = s.pool := rfl
@[simp] theorem State.logRead_buf (a : Nat) (v : U64) (s : State) : (s.logRead a v).buf = s.buf := rfl
@[simp] theorem State.logRead_actions (a : Nat) (v : U64) (s : State) : (s.logRead a v).actions = s.actions := rfl
@[simp] theorem State.logRead_reads (a : Nat) (v : U64) (s : State) : (s.logRead a v).reads = (a, v) :: s.reads := rfl
@[simp] theorem State.logRead_freeCount (a : Nat) (v : U64) (s : State) : (s.logRead a v).freeCount = s.freeCount := rfl

@[simp] theorem State.logFreeRead_params (a : Nat) (s : State) : (s.logFreeRead a).params = s.params := rfl
@[simp] theorem State.logFreeRead_pending (a : Nat) (s : State) : (s.logFreeRead a).pending = s.pending := rfl
@[simp] theorem State.logFreeRead_arg0 (a : Nat) (s : State) : (s.logFreeRead a).arg0 = s.arg0 := rfl
@[simp] theorem State.logFreeRead_result (a : Nat) (s : State) : (s.logFreeRead a).result = s.result := rfl
@[simp] theorem State.logFreeRead_seeded (a : Nat) (s : State) : (s.logFreeRead a).seeded = s.seeded := rfl
@[simp] theorem State.logFreeRead_mixfull (a : Nat) (s : State) : (s.logFreeRead a).mixfull = s.mixfull := rfl
@[simp] theorem State.logFreeRead_ovr (a : Nat) (s : State) : (s.logFreeRead a).ovr = s.ovr := rfl
@[simp] theorem State.logFreeRead_errseen (a : Nat) (s : State) : (s.logFreeRead a).errseen = s.errseen := rfl
@[simp] theorem State.logFreeRead_err (a : Nat) (s : State) : (s.logFreeRead a).err = s.err := rfl
@[simp] theorem State.logFreeRead_eng (a : Nat) (s : State) : (s.logFreeRead a).eng = s.eng := rfl
@[simp] theorem State.logFreeRead_pool (a : Nat) (s : State) : (s.logFreeRead a).pool = s.pool := rfl
@[simp] theorem State.logFreeRead_buf (a : Nat) (s : State) : (s.logFreeRead a).buf = s.buf := rfl
@[simp] theorem State.logFreeRead_actions (a : Nat) (s : State) : (s.logFreeRead a).actions = s.actions := rfl
@[simp] theorem State.logFreeRead_reads (a : Nat) (s : State) : (s.logFreeRead a).reads = (a, Config.freeRead s.freeCount) :: s.reads := rfl
@[simp] theorem State.logFreeRead_freeCount (a : Nat) (s : State) : (s.logFreeRead a).freeCount = s.freeCount + 1 := rfl

@[simp] theorem State.resetKeepingBuf_params (s : State) : s.resetKeepingBuf.params = s.params := rfl
@[simp] theorem State.resetKeepingBuf_pending (s : State) : s.resetKeepingBuf.pending = none := rfl
@[simp] theorem State.resetKeepingBuf_arg0 (s : State) : s.resetKeepingBuf.arg0 = 0 := rfl
@[simp] theorem State.resetKeepingBuf_result (s : State) : s.resetKeepingBuf.result = 0 := rfl
@[simp] theorem State.resetKeepingBuf_seeded (s : State) : s.resetKeepingBuf.seeded = false := rfl
@[simp] theorem State.resetKeepingBuf_mixfull (s : State) : s.resetKeepingBuf.mixfull = false := rfl
@[simp] theorem State.resetKeepingBuf_ovr (s : State) : s.resetKeepingBuf.ovr = false := rfl
@[simp] theorem State.resetKeepingBuf_errseen (s : State) : s.resetKeepingBuf.errseen = false := rfl
@[simp] theorem State.resetKeepingBuf_err (s : State) : s.resetKeepingBuf.err = .ok := rfl
@[simp] theorem State.resetKeepingBuf_eng (s : State) : s.resetKeepingBuf.eng = Engine.initial s.params := rfl
@[simp] theorem State.resetKeepingBuf_pool (s : State) : s.resetKeepingBuf.pool = List.replicate s.params.smxCount 0 := rfl
@[simp] theorem State.resetKeepingBuf_buf (s : State) : s.resetKeepingBuf.buf = s.buf := rfl
@[simp] theorem State.resetKeepingBuf_actions (s : State) : s.resetKeepingBuf.actions = s.actions := rfl
@[simp] theorem State.resetKeepingBuf_reads (s : State) : s.resetKeepingBuf.reads = s.reads := rfl
@[simp] theorem State.resetKeepingBuf_freeCount (s : State) : s.resetKeepingBuf.freeCount = s.freeCount := rfl

@[simp] theorem State.powerOn_params (s : State) : s.powerOn.params = s.params := rfl
@[simp] theorem State.powerOn_pending (s : State) : s.powerOn.pending = none := rfl
@[simp] theorem State.powerOn_arg0 (s : State) : s.powerOn.arg0 = 0 := rfl
@[simp] theorem State.powerOn_result (s : State) : s.powerOn.result = 0 := rfl
@[simp] theorem State.powerOn_seeded (s : State) : s.powerOn.seeded = false := rfl
@[simp] theorem State.powerOn_mixfull (s : State) : s.powerOn.mixfull = false := rfl
@[simp] theorem State.powerOn_ovr (s : State) : s.powerOn.ovr = false := rfl
@[simp] theorem State.powerOn_errseen (s : State) : s.powerOn.errseen = false := rfl
@[simp] theorem State.powerOn_err (s : State) : s.powerOn.err = .ok := rfl
@[simp] theorem State.powerOn_eng (s : State) : s.powerOn.eng = Engine.initial s.params := rfl
@[simp] theorem State.powerOn_pool (s : State) : s.powerOn.pool = List.replicate s.params.smxCount 0 := rfl
@[simp] theorem State.powerOn_buf (s : State) : s.powerOn.buf = [] := rfl
@[simp] theorem State.powerOn_actions (s : State) : s.powerOn.actions = s.actions := rfl
@[simp] theorem State.powerOn_reads (s : State) : s.powerOn.reads = s.reads := rfl
@[simp] theorem State.powerOn_freeCount (s : State) : s.powerOn.freeCount = s.freeCount := rfl

@[simp] theorem State.busy_eq_true (s : State) : s.busy = true ↔ ∃ v, s.pending = some v := by
  simp [State.busy, Option.isSome_iff_exists]

@[simp] theorem State.busy_eq_false (s : State) : s.busy = false ↔ s.pending = none := by
  simp [State.busy]

/-- A check that does not fail lets the command go on. -/
theorem check_false (e : ErrCode) (s : State) (rest : Host.Outcome State Fault Refusal) : check false e s rest = rest := rfl

/-- A check that fails raises its code and does nothing else (60_exceptions.md R290). -/
theorem check_true (e : ErrCode) (s : State) (rest : Host.Outcome State Fault Refusal) :
    check true e s rest = .next (s.raise e) := rfl

/-- Everything a check can do. -/
theorem check_cases {bad : Bool} {e : ErrCode} {s : State} {rest o : Host.Outcome State Fault Refusal}
    (h : check bad e s rest = o) : (bad = true ∧ o = .next (s.raise e)) ∨ (bad = false ∧ rest = o) := by
  cases bad
  · exact .inr ⟨rfl, h⟩
  · exact .inl ⟨rfl, h.symm⟩

/-- Everything a command's read of BUF can do. -/
theorem withBuf_cases {n : Nat} {s : State} {rest : List U64 → Host.Outcome State Fault Refusal}
    {o : Host.Outcome State Fault Refusal} (h : withBuf n s rest = o) :
    (∃ k, s.buf.readWords 0 n = .error k ∧ o = .fault (.bufUnwritten k)) ∨
    (∃ ws, s.buf.readWords 0 n = .ok ws ∧ rest ws = o) := by
  unfold withBuf at h
  split at h
  · next k hk => exact .inl ⟨k, hk, h.symm⟩
  · next ws hw => exact .inr ⟨ws, hw, h⟩

/-- A command's read of written entries goes on with their words. -/
theorem withBuf_ok {n : Nat} {s : State} {rest : List U64 → Host.Outcome State Fault Refusal} {ws : List U64}
    (h : s.buf.readWords 0 n = .ok ws) : withBuf n s rest = rest ws := by
  simp [withBuf, h]

/-- A CMD write with nothing pending latches the word (10_state.md R31). -/
theorem State.writeCmd_idle {s : State} (v : U64) (h : s.pending = none) : s.writeCmd v = { s with pending := some v } := by
  simp [State.writeCmd, h]

/-- A CMD write with a command pending is dropped and sets OVR (10_state.md R38). -/
theorem State.writeCmd_busy {s : State} (v : U64) {w : U64} (h : s.pending = some w) : s.writeCmd v = { s with ovr := true } := by
  simp [State.writeCmd, h]

end Sys2Proof.Machine
end

