-- ==== Sys2Proof/Laws/Bus.lean ====
section
/-! SUPPORT. What the host's accesses can do: which register an address reaches, and what a read or write of each leaves. -/

namespace Sys2Proof.Machine

/-- A defined access inside the window reaches the register of its offset (20_memory.md R70, R71, R74). -/
theorem target_aligned {c : Params} {off : Nat} (h : off < 0x20000) (h8 : off % 8 = 0) :
    target c (c.base + off) 8 = .ok (regAt c off) := by
  unfold target windowBytes
  rw [if_neg (by omega), if_neg (by simp), Nat.add_sub_cancel_left, if_neg (by omega)]

/-- An access of another width or alignment is refused (20_memory.md R74). -/
theorem target_undefined {c : Params} {off bytes : Nat} (h : off < 0x20000) (hb : bytes ≠ 8 ∨ off % 8 ≠ 0) :
    ∃ r, target c (c.base + off) bytes = .error r := by
  unfold target windowBytes
  rw [if_neg (by omega), Nat.add_sub_cancel_left]
  by_cases h8 : bytes = 8
  · rw [if_neg (by simpa using h8), if_pos (by tauto)]; exact ⟨_, rfl⟩
  · rw [if_pos h8]; exact ⟨_, rfl⟩

/-- Past the registers an offset is BUF's or reserved (20_memory.md R71). -/
theorem regAt_high {c : Params} {off : Nat} (h : 0x58 ≤ off) :
    regAt c off = if bufBase ≤ off ∧ off < bufAddr c.bufWords then .buf ((off - bufBase) / 8) else .reserved := by
  unfold regAt
  rw [if_neg (by omega)]

theorem lowReg_ne_buf (n k : Nat) : lowReg n ≠ .buf k := by
  unfold lowReg
  split <;> simp

theorem lowReg_cmd {n : Nat} (h : lowReg n = .cmd) : n = 0 := by
  unfold lowReg at h
  split at h <;> first | rfl | cases h

/-- The offset of a BUF entry is BUF's (20_memory.md R72). -/
theorem regAt_buf {c : Params} {k : Nat} (h : k < c.bufWords) : regAt c (bufAddr k) = .buf k := by
  rw [regAt_high (by unfold bufAddr bufBase; omega), if_pos (by unfold bufAddr; omega)]
  simp [bufAddr]

/-- Every other offset past the registers is reserved (20_memory.md R71, R73). -/
theorem regAt_reserved {c : Params} {off : Nat} (h : 0x58 ≤ off ∧ off < 0x10000 ∨ 0x10000 + 8 * c.bufWords ≤ off) :
    regAt c off = .reserved := by
  rw [regAt_high (by omega), if_neg (by unfold bufAddr bufBase; omega)]

/-- A BUF register is one of the instance's entries. -/
theorem regAt_buf_lt {c : Params} {off k : Nat} (h : regAt c off = .buf k) : k < c.bufWords := by
  unfold regAt at h
  split at h
  · exact absurd h (lowReg_ne_buf _ _)
  split at h
  · next hr => simp only [Reg.buf.injEq] at h; unfold bufAddr at hr; omega
  · simp at h

/-- CMD stands at offset 0 only. -/
theorem regAt_cmd {c : Params} {off : Nat} (h8 : off % 8 = 0) (h : regAt c off = .cmd) : off = 0 := by
  unfold regAt at h
  split at h
  · have := lowReg_cmd h; omega
  · split at h <;> cases h

/-- Everything a host read can do: fault on a BUF entry never written, or log one value. -/
theorem hostRead_cases {addr : Nat} {r : Reg} {s : State} {o : Host.Outcome State Fault Refusal} (h : hostRead addr r s = o) :
    (∃ k, r = .buf k ∧ s.buf.readWord k = none ∧ o = .fault (.bufUnwritten k)) ∨
    (∃ v, o = .next (s.logRead addr v)) ∨ (s.busy = true ∧ o = .next (s.logFreeRead addr)) := by
  subst h
  cases r
  case buf k =>
    simp only [hostRead]
    cases hw : s.buf.readWord k with
    | none => exact .inl ⟨k, rfl, hw, rfl⟩
    | some v =>
      cases hb : s.busy
      · exact .inr (.inl ⟨v, rfl⟩)
      · exact .inr (.inr ⟨rfl, by simp⟩)
  case result =>
    simp only [hostRead]
    cases hb : s.busy
    · exact .inr (.inl ⟨s.result, rfl⟩)
    · exact .inr (.inr ⟨rfl, rfl⟩)
  all_goals exact .inr (.inl ⟨_, rfl⟩)

/-- Everything a host write can do. -/
theorem hostWrite_cases {r : Reg} {v : U64} {s : State} {o : Host.Outcome State Fault Refusal} (h : hostWrite r v s = o) :
    (s.busy = true ∧ o = .fault .writeWhileBusy) ∨ (r = .cmd ∧ o = .next (s.writeCmd v)) ∨
    (r = .arg0 ∧ s.busy = false ∧ o = .next { s with arg0 := v }) ∨
    (∃ k, r = .buf k ∧ s.busy = false ∧ o = .next { s with buf := s.buf.writeWord k v }) ∨ o = .next s := by
  subst h
  cases r
  case cmd => exact .inr (.inl ⟨rfl, rfl⟩)
  case arg0 =>
    cases hb : s.busy
    · exact .inr (.inr (.inl ⟨rfl, rfl, by simp [hostWrite, hb]⟩))
    · exact .inl ⟨rfl, by simp [hostWrite, hb]⟩
  case buf k =>
    cases hb : s.busy
    · exact .inr (.inr (.inr (.inl ⟨k, rfl, rfl, by simp [hostWrite, hb]⟩)))
    · exact .inl ⟨rfl, by simp [hostWrite, hb]⟩
  all_goals exact .inr (.inr (.inr (.inr rfl)))

/-- Everything a host access that goes on can do, by the register it reaches. -/
theorem hostAccess_next {a : HostAccess} {s t : State} (h : hostAccess a s = .next t) :
    (∃ addr bytes, a = .read addr bytes ∧ ((∃ v, t = s.logRead addr v) ∨ (s.busy = true ∧ t = s.logFreeRead addr))) ∨
    (∃ addr bytes v r, a = .write addr bytes v ∧ target s.params addr bytes = .ok r ∧
      ((r = .cmd ∧ t = s.writeCmd v) ∨ (r = .arg0 ∧ s.busy = false ∧ t = { s with arg0 := v }) ∨
        (∃ k, r = .buf k ∧ s.busy = false ∧ t = { s with buf := s.buf.writeWord k v }) ∨ t = s)) := by
  cases a with
  | read addr bytes =>
    simp only [hostAccess] at h
    split at h
    · simp at h
    · next r _ =>
      refine .inl ⟨addr, bytes, rfl, ?_⟩
      rcases hostRead_cases h with ⟨k, _, _, h⟩ | ⟨v, h⟩ | ⟨hb, h⟩
      · simp at h
      · exact .inl ⟨v, by simpa using h⟩
      · exact .inr ⟨hb, by simpa using h⟩
  | write addr bytes v =>
    simp only [hostAccess] at h
    split at h
    · simp at h
    · next r hr =>
      refine .inr ⟨addr, bytes, v, r, rfl, hr, ?_⟩
      rcases hostWrite_cases h with ⟨_, h⟩ | ⟨hc, h⟩ | ⟨hc, hb, h⟩ | ⟨k, hc, hb, h⟩ | h
      · simp at h
      · exact .inl ⟨hc, by simpa using h⟩
      · exact .inr (.inl ⟨hc, hb, by simpa using h⟩)
      · exact .inr (.inr (.inl ⟨k, hc, hb, by simpa using h⟩))
      · exact .inr (.inr (.inr (by simpa using h)))

/-- The register reached is CMD only at BASE, with an 8-byte access. -/
theorem target_cmd {c : Params} {addr bytes : Nat} (h : target c addr bytes = .ok .cmd) : addr = c.base ∧ bytes = 8 := by
  unfold target at h
  split at h
  · simp at h
  · split at h
    · simp at h
    · split at h
      · simp at h
      · next h1 h2 h3 =>
        have h0 := regAt_cmd (by omega) (Except.ok.inj h)
        omega

/-- Everything a step that goes on can do. -/
theorem step_next {s t : State} (h : step s = .next t) :
    ((s.actions = [] ∨ ∃ rest, s.actions = .wait :: rest) ∧ s.pending = none ∧ t = { s with actions := s.actions.tail }) ∨
    ((s.actions = [] ∨ ∃ rest, s.actions = .wait :: rest) ∧
      ∃ v, s.pending = some v ∧ ((∃ i, decode v = .ok i ∧ exec i s = .next t) ∨ (∃ e, decode v = .error e ∧ t = s.raise .illegal))) ∨
    (∃ a rest, s.actions = .access a :: rest ∧ hostAccess a { s with actions := rest } = .next t) ∨
    (∃ rest, s.actions = .powerOn :: rest ∧ t = State.powerOn { s with actions := rest }) := by
  have block : blockStep s = .next t → (s.pending = none ∧ t = s) ∨
      ∃ v, s.pending = some v ∧ ((∃ i, decode v = .ok i ∧ exec i s = .next t) ∨ (∃ e, decode v = .error e ∧ t = s.raise .illegal)) := by
    intro hb
    unfold blockStep at hb
    split at hb
    · next hp => exact .inl ⟨hp, by simpa using hb.symm⟩
    · next v hp =>
      refine .inr ⟨v, hp, ?_⟩
      split at hb
      · next i hd => exact .inl ⟨i, hd, hb⟩
      · next e hd => exact .inr ⟨e, hd, by simpa using hb.symm⟩
  unfold step at h
  split at h
  · next ha =>
    rcases block h with ⟨hp, rfl⟩ | hb
    · exact .inl ⟨.inl ha, hp, by rw [ha]; exact congrArg (fun a => { t with actions := a }) ha⟩
    · exact .inr (.inl ⟨.inl ha, hb⟩)
  · next rest ha =>
    split at h
    · next hb =>
      rcases block h with ⟨hp, rfl⟩ | hb'
      · simp [State.busy, hp] at hb
      · exact .inr (.inl ⟨.inr ⟨rest, ha⟩, hb'⟩)
    · next hb =>
      exact .inl ⟨.inr ⟨rest, ha⟩, by simpa [State.busy] using hb, by rw [ha]; simpa using h.symm⟩
  · next a rest ha => exact .inr (.inr (.inl ⟨a, rest, ha, h⟩))
  · next rest ha => exact .inr (.inr (.inr ⟨rest, ha, by simpa using h.symm⟩))

end Sys2Proof.Machine
end

