-- ==== Sys2Proof/Laws/Commands.lean ====
section
/-! SUPPORT. Inversion lemmas: everything each command can do when it answers a next state, either an error state or its effect with its
checks passed. Later proofs cite these and unfold no meaning. -/

namespace Sys2Proof.Machine

/-- The error state of some code that is not `ok` (60_exceptions.md R290). -/
def Raises (s t : State) : Prop := ∃ e, e ≠ .ok ∧ t = s.raise e

theorem check_next {bad : Bool} {e : ErrCode} {s t : State} {rest : Host.Outcome State Fault Refusal} (he : e ≠ .ok)
    (h : check bad e s rest = .next t) : Raises s t ∨ (bad = false ∧ rest = .next t) := by
  rcases check_cases h with ⟨_, h⟩ | h
  · exact .inl ⟨e, he, by simpa using h⟩
  · exact .inr h

theorem withBuf_next {n : Nat} {s t : State} {rest : List U64 → Host.Outcome State Fault Refusal}
    (h : withBuf n s rest = .next t) : ∃ ws, s.buf.readWords 0 n = .ok ws ∧ rest ws = .next t := by
  rcases withBuf_cases h with ⟨_, _, h⟩ | h
  · simp at h
  · exact h

theorem execEngSeeddef_next {s t : State} (h : execEngSeeddef s = .next t) :
    t = (s.installEngine (seedScalar s.params s.params.defaultSeed s.eng)).succeed := by
  simpa [execEngSeeddef, eq_comm] using h

theorem execEngSeed_next {s t : State} (h : execEngSeed s = .next t) :
    t = (s.installEngine (seedScalar s.params s.arg0 s.eng)).succeed := by
  simpa [execEngSeed, State.arg0Word, eq_comm] using h

theorem execEngSeedmix_next {s t : State} (h : execEngSeedmix s = .next t) :
    Raises s t ∨ (s.mixfull = true ∧ t = (s.installEngine (seedMixer s.params s.pool s.eng)).succeed) := by
  rcases check_next (by simp) h with h | ⟨h1, h⟩
  · exact .inl h
  · exact .inr ⟨by simpa using h1, by simpa [eq_comm] using h⟩

theorem execEngSeedbuf_next {len : Nat} {s t : State} (h : execEngSeedbuf len s = .next t) :
    Raises s t ∨ (len ≤ s.params.bufWords ∧ s.params.stateWords ≤ len ∧
      ∃ ws, s.buf.readWords 0 s.params.stateWords = .ok ws ∧
        t = (s.installEngine (seedWords s.params ws s.eng)).succeed) := by
  rcases check_next (by simp) h with h | ⟨h1, h⟩
  · exact .inl h
  rcases check_next (by simp) h with h | ⟨h2, h⟩
  · exact .inl h
  obtain ⟨ws, hw, h⟩ := withBuf_next h
  exact .inr ⟨by simpa using h1, by simpa using h2, ws, hw, by simpa [eq_comm] using h⟩

theorem execEngNext_next {s t : State} (h : execEngNext s = .next t) :
    Raises s t ∨ (s.seeded = true ∧
      t = { s with result := (engineNext s.params s.eng).1, eng := (engineNext s.params s.eng).2 }.succeed) := by
  rcases check_next (by simp) h with h | ⟨h1, h⟩
  · exact .inl h
  · exact .inr ⟨by simpa using h1, by simpa [eq_comm] using h⟩

theorem execEngGen_next {len : Nat} {s t : State} (h : execEngGen len s = .next t) :
    Raises s t ∨ (len ≤ s.params.bufWords ∧ s.seeded = true ∧
      t = { s with
        buf := s.buf.writeWords 0 (engineGen s.params len s.eng).1, eng := (engineGen s.params len s.eng).2 }.succeed) := by
  rcases check_next (by simp) h with h | ⟨h1, h⟩
  · exact .inl h
  rcases check_next (by simp) h with h | ⟨h2, h⟩
  · exact .inl h
  exact .inr ⟨by simpa using h1, by simpa using h2, by simpa [eq_comm] using h⟩

theorem execEngDiscard_next {s t : State} (h : execEngDiscard s = .next t) :
    Raises s t ∨ (s.seeded = true ∧ t = { s with eng := engineDiscard s.params s.arg0.toNat s.eng }.succeed) := by
  rcases check_next (by simp) h with h | ⟨h1, h⟩
  · exact .inl h
  · exact .inr ⟨by simpa using h1, by simpa [State.arg0Count, eq_comm] using h⟩

theorem execEngJump_next {s t : State} (h : execEngJump s = .next t) :
    Raises s t ∨ (s.params.kind ≠ .cmwc ∧ s.seeded = true ∧ t = { s with eng := xJump s.params s.arg0.toNat s.eng }.succeed) := by
  rcases check_next (by simp) h with h | ⟨h1, h⟩
  · exact .inl h
  rcases check_next (by simp) h with h | ⟨h2, h⟩
  · exact .inl h
  exact .inr ⟨by simpa using h1, by simpa using h2, by simpa [State.arg0Count, eq_comm] using h⟩

theorem execEngSave_next {s t : State} (h : execEngSave s = .next t) :
    Raises s t ∨ (s.seeded = true ∧
      t = { s with
        buf := s.buf.writeWords 0 (engineImage s.params s.eng)
        result := BitVec.ofNat 64 s.params.stateWords }.succeed) := by
  rcases check_next (by simp) h with h | ⟨h1, h⟩
  · exact .inl h
  · exact .inr ⟨by simpa using h1, by simpa [eq_comm] using h⟩

theorem execEngLoad_next {len : Nat} {s t : State} (h : execEngLoad len s = .next t) :
    Raises s t ∨ (len ≤ s.params.bufWords ∧ len = s.params.stateWords ∧
      ∃ ws, s.buf.readWords 0 s.params.stateWords = .ok ws ∧ badImage s.params ws = false ∧
        t = (s.installEngine (engineLoad s.params ws s.eng)).succeed) := by
  rcases check_next (by simp) h with h | ⟨h1, h⟩
  · exact .inl h
  rcases check_next (by simp) h with h | ⟨h2, h⟩
  · exact .inl h
  obtain ⟨ws, hw, h⟩ := withBuf_next h
  rcases check_next (by simp) h with h | ⟨h3, h⟩
  · exact .inl h
  exact .inr ⟨by simpa using h1, by simpa using h2, ws, hw, h3, by simpa [eq_comm] using h⟩

theorem execEngEq_next {len : Nat} {s t : State} (h : execEngEq len s = .next t) :
    Raises s t ∨ (len ≤ s.params.bufWords ∧ s.seeded = true ∧ len = s.params.stateWords ∧
      ∃ ws, s.buf.readWords 0 s.params.stateWords = .ok ws ∧
        t = { s with result := if engineImage s.params s.eng = ws then 1 else 0 }.succeed) := by
  rcases check_next (by simp) h with h | ⟨h1, h⟩
  · exact .inl h
  rcases check_next (by simp) h with h | ⟨h2, h⟩
  · exact .inl h
  rcases check_next (by simp) h with h | ⟨h3, h⟩
  · exact .inl h
  obtain ⟨ws, hw, h⟩ := withBuf_next h
  exact .inr ⟨by simpa using h1, by simpa using h2, by simpa using h3, ws, hw, by simpa [eq_comm] using h⟩

theorem execSmxSeed_next {len : Nat} {s t : State} (h : execSmxSeed len s = .next t) :
    Raises s t ∨ (len ≤ s.params.bufWords ∧ ∃ ws, s.buf.readWords 0 len = .ok ws ∧
      t = { s with pool := absorb s.params (lowWords ws), mixfull := true }.succeed) := by
  rcases check_next (by simp) h with h | ⟨h1, h⟩
  · exact .inl h
  obtain ⟨ws, hw, h⟩ := withBuf_next h
  exact .inr ⟨by simpa using h1, ws, hw, by simpa [eq_comm] using h⟩

theorem execSmxGen_next {len : Nat} {s t : State} (h : execSmxGen len s = .next t) :
    Raises s t ∨ (len ≤ s.params.bufWords ∧ s.mixfull = true ∧
      t = { s with buf := s.buf.writeWords 0 (wideWords (generate s.params s.pool len)) }.succeed) := by
  rcases check_next (by simp) h with h | ⟨h1, h⟩
  · exact .inl h
  rcases check_next (by simp) h with h | ⟨h2, h⟩
  · exact .inl h
  exact .inr ⟨by simpa using h1, by simpa using h2, by simpa [eq_comm] using h⟩

theorem execSmxParam_next {s t : State} (h : execSmxParam s = .next t) :
    Raises s t ∨ (s.mixfull = true ∧
      t = { s with
        buf := s.buf.writeWords 0 (wideWords (param s.params s.pool))
        result := BitVec.ofNat 64 s.params.smxCount }.succeed) := by
  rcases check_next (by simp) h with h | ⟨h1, h⟩
  · exact .inl h
  · exact .inr ⟨by simpa using h1, by simpa [eq_comm] using h⟩

theorem execHshH64_next {s t : State} (h : execHshH64 s = .next t) : t = { s with result := hash64 s.params s.arg0 }.succeed := by
  simpa [execHshH64, State.arg0Word, eq_comm] using h

theorem execHshH32_next {s t : State} (h : execHshH32 s = .next t) :
    t = { s with result := zext64 (hash32 s.params (lo32 s.arg0)) }.succeed := by
  simpa [execHshH32, State.arg0Low, eq_comm] using h

theorem execCtlNop_next {s t : State} (h : execCtlNop s = .next t) : t = s.succeed := by
  simpa [execCtlNop, eq_comm] using h

theorem execCtlClrerr_next {s t : State} (h : execCtlClrerr s = .next t) : t = { s with ovr := false, errseen := false }.succeed := by
  simpa [execCtlClrerr, eq_comm] using h

theorem execCtlReset_next {s t : State} (h : execCtlReset s = .next t) : t = s.resetKeepingBuf.succeed := by
  simpa [execCtlReset, eq_comm] using h

end Sys2Proof.Machine
end

