-- ==== Sys2Proof/Laws/PerInstr.lean ====
section
/-! SUPPORT. Per-instruction lemmas: the four fields of each command's encoding (spec/30_encoding.md R91). -/

namespace Sys2Proof.Laws

theorem opcField_fields (l : BitVec 16) (o : U8) : opcField (0#32 ++ (l ++ (0#8 ++ o))) = o := by
  apply BitVec.eq_of_getLsbD_eq
  intro i hi
  simp only [opcField, BitVec.getLsbD_extractLsb', BitVec.getLsbD_append]
  simp [hi, show i < 16 from by omega, show i < 32 from by omega]

theorem rsvField_fields (l : BitVec 16) (o : U8) : rsvField (0#32 ++ (l ++ (0#8 ++ o))) = 0 := by
  apply BitVec.eq_of_getLsbD_eq
  intro i hi
  simp only [rsvField, BitVec.getLsbD_extractLsb', BitVec.getLsbD_append]
  simp [show 8 + i < 16 from by omega, show 8 + i < 32 from by omega]

theorem lenField_fields (l : BitVec 16) (o : U8) : lenField (0#32 ++ (l ++ (0#8 ++ o))) = l := by
  apply BitVec.eq_of_getLsbD_eq
  intro i hi
  simp only [lenField, BitVec.getLsbD_extractLsb', BitVec.getLsbD_append]
  simp [hi, show 16 + i < 32 from by omega]

theorem highField_fields (l : BitVec 16) (o : U8) : highField (0#32 ++ (l ++ (0#8 ++ o))) = 0 := by
  apply BitVec.eq_of_getLsbD_eq
  intro i hi
  simp only [highField, BitVec.getLsbD_extractLsb', BitVec.getLsbD_append]
  simp

/-- The encoding of a well-formed command holds its OPC, RSV = 0, its LEN and zero high bits (R90, R91, R95). -/
def EncodingFields.Statement (i : Instr) : Prop :=
  i.wellFormed = true → opcField (encode i) = i.opc ∧ rsvField (encode i) = 0 ∧ (lenField (encode i)).toNat = i.len ∧
    highField (encode i) = 0

theorem encodingFields_of_len {i : Instr} (h : i.len ≤ 65535) : EncodingFields.Statement i := fun _ => by
  refine ⟨opcField_fields _ _, rsvField_fields _ _, ?_, highField_fields _ _⟩
  rw [encode, lenField_fields, BitVec.toNat_ofNat]
  exact Nat.mod_eq_of_lt (by omega)

theorem EncodingFields.engSeeddef : EncodingFields.Statement .engSeeddef := encodingFields_of_len (Nat.zero_le _)

theorem EncodingFields.engSeed : EncodingFields.Statement .engSeed := encodingFields_of_len (Nat.zero_le _)

theorem EncodingFields.engSeedmix : EncodingFields.Statement .engSeedmix := encodingFields_of_len (Nat.zero_le _)

theorem EncodingFields.engSeedbuf (len : Nat) : EncodingFields.Statement (.engSeedbuf len) :=
  fun h => encodingFields_of_len (of_decide_eq_true h) h

theorem EncodingFields.engNext : EncodingFields.Statement .engNext := encodingFields_of_len (Nat.zero_le _)

theorem EncodingFields.engGen (len : Nat) : EncodingFields.Statement (.engGen len) :=
  fun h => encodingFields_of_len (of_decide_eq_true h) h

theorem EncodingFields.engDiscard : EncodingFields.Statement .engDiscard := encodingFields_of_len (Nat.zero_le _)

theorem EncodingFields.engJump : EncodingFields.Statement .engJump := encodingFields_of_len (Nat.zero_le _)

theorem EncodingFields.engSave : EncodingFields.Statement .engSave := encodingFields_of_len (Nat.zero_le _)

theorem EncodingFields.engLoad (len : Nat) : EncodingFields.Statement (.engLoad len) :=
  fun h => encodingFields_of_len (of_decide_eq_true h) h

theorem EncodingFields.engEq (len : Nat) : EncodingFields.Statement (.engEq len) :=
  fun h => encodingFields_of_len (of_decide_eq_true h) h

theorem EncodingFields.smxSeed (len : Nat) : EncodingFields.Statement (.smxSeed len) :=
  fun h => encodingFields_of_len (of_decide_eq_true h) h

theorem EncodingFields.smxGen (len : Nat) : EncodingFields.Statement (.smxGen len) :=
  fun h => encodingFields_of_len (of_decide_eq_true h) h

theorem EncodingFields.smxParam : EncodingFields.Statement .smxParam := encodingFields_of_len (Nat.zero_le _)

theorem EncodingFields.hshH64 : EncodingFields.Statement .hshH64 := encodingFields_of_len (Nat.zero_le _)

theorem EncodingFields.hshH32 : EncodingFields.Statement .hshH32 := encodingFields_of_len (Nat.zero_le _)

theorem EncodingFields.ctlNop : EncodingFields.Statement .ctlNop := encodingFields_of_len (Nat.zero_le _)

theorem EncodingFields.ctlClrerr : EncodingFields.Statement .ctlClrerr := encodingFields_of_len (Nat.zero_le _)

theorem EncodingFields.ctlReset : EncodingFields.Statement .ctlReset := encodingFields_of_len (Nat.zero_le _)

end Sys2Proof.Laws
end

