-- ==== Sys2Proof/Laws/Decode.lean ====
section
/-! SUPPORT. What the decoder's opcode map gives, and how a CMD value is put together from its four fields. -/

namespace Sys2Proof

/-- Every row of the opcode map R96: a command without LEN, or one whose OPC and LEN are the ones encoded. -/
theorem opForm_cases {o : U8} {f : OpForm} (h : opForm o = some f) :
    (∃ i, f = .plain i ∧ i.opc = o ∧ i.len = 0 ∧ i.wellFormed = true ∧
      o.toNat ∈ [0x00, 0x01, 0x02, 0x04, 0x06, 0x07, 0x08, 0x42, 0x80, 0x81, 0xC0, 0xC1, 0xC2]) ∨
    (∃ mk, f = .sized mk ∧ (∀ n, (mk n).opc = o ∧ (mk n).len = n ∧ (mk n).wellFormed = decide (n ≤ 65535)) ∧
      o.toNat ∈ [0x03, 0x05, 0x09, 0x0A, 0x40, 0x41]) := by
  unfold opForm at h
  split at h <;> simp only [Option.some.injEq, reduceCtorEq] at h <;> subst h <;>
    first
    | (left; refine ⟨_, rfl, ?_, rfl, rfl, ?_⟩; apply BitVec.eq_of_toNat_eq; simp_all [Instr.opc]; simp_all)
    | (right; refine ⟨_, rfl, fun n => ⟨?_, rfl, rfl⟩, ?_⟩; apply BitVec.eq_of_toNat_eq; simp_all [Instr.opc]; simp_all)

/-- A CMD value whose high half and RSV are zero is its LEN and OPC put together (R90, R91). -/
theorem eq_of_fields {v : U64} (hh : highField v = 0) (hr : rsvField v = 0) :
    v = 0#32 ++ (lenField v ++ (0#8 ++ opcField v)) := by
  have hh' : 0#32 = highField v := hh.symm
  have hr' : 0#8 = rsvField v := hr.symm
  rw [hh', hr']
  apply BitVec.eq_of_getLsbD_eq
  intro i hi
  simp only [BitVec.getLsbD_append, highField, rsvField, lenField, opcField, BitVec.getLsbD_extractLsb']
  rcases Nat.lt_or_ge i 8 with h | h
  · simp [show i < 32 by omega, show i < 16 by omega, h]
  rcases Nat.lt_or_ge i 16 with h' | h'
  · simp [show i < 32 by omega, h', show ¬ i < 8 by omega, show i - 8 < 8 by omega, show 8 + (i - 8) = i by omega]
  rcases Nat.lt_or_ge i 32 with h'' | h''
  · simp [show ¬ i < 16 by omega, h'', show i - 16 < 16 by omega, show 16 + (i - 16) = i by omega]
  · simp [show ¬ i < 32 by omega, show i - 32 < 32 by omega, show 32 + (i - 32) = i by omega]

end Sys2Proof
end

