-- ==== Sys2Proof/Laws/Params.lean ====
section
/-! SUPPORT. What a legal parameter record gives (00_scope.md R7-R15, 42_cmwc.md R160), and that the reference values are legal. -/

namespace Sys2Proof

/-- The reference values are legal for every KIND and every non-zero DEFAULT_SEED. -/
theorem Config.referenceWith_wf (kind : Kind) {seed : U64} (order : ByteOrder) (base : Nat) (h : seed ≠ 0) :
    (Config.referenceWith kind seed order base).wf = true := by
  have h1 : (Config.referenceWith kind seed order base).cmwcWf = true := by
    have : 4096 = 2 ^ Nat.log2 4096 := by decide
    simp [Params.cmwcWf, Config.referenceWith, ← this]
  have h2 : (Config.referenceWith kind seed order base).sizesWf = true := by
    have : decide (seed ≠ 0) = true := by simpa using h
    unfold Params.sizesWf
    rw [show (Config.referenceWith kind seed order base).defaultSeed = seed from rfl, this]
    cases kind <;> rfl
  have h3 : (Config.referenceWith kind seed order base).multsWf = true := by
    simp only [Params.multsWf, Config.referenceWith]; decide
  have h4 : (Config.referenceWith kind seed order base).xshWf = true := by
    simp [Params.xshWf, Config.referenceWith, isShift, Config.xrsrJump, Config.xsh128Jump, Config.xsh1024Jump]
  simp [Params.wf, h1, h2, h3, h4]

/-- The reset instance's parameters are legal, whatever the OPEN values are. -/
theorem Machine.State.reset_params_wf : Machine.State.reset.params.wf = true := by
  refine Config.referenceWith_wf _ _ _ fun h => ?_
  have := Config.defaultSeedPred.isLt
  have h := congrArg BitVec.toNat h
  rw [BitVec.toNat_ofNat, Nat.mod_eq_of_lt (by omega)] at h
  simp at h

/-- The sizes of a legal record (R7, R10). -/
theorem Params.wf_sizes {c : Params} (h : c.wf = true) :
    c.stateWords ≤ c.bufWords ∧ c.smxCount ≤ c.bufWords ∧ c.bufWords ≤ 65535 ∧ 1 ≤ c.smxCount := by
  simp only [Params.wf, Params.sizesWf, Bool.and_eq_true, decide_eq_true_eq] at h
  tauto

/-- The odd constants and the mixer's shift of a legal record (R11-R13). -/
theorem Params.wf_mults {c : Params} (h : c.wf = true) :
    isOdd c.h64Mult = true ∧ isOdd c.h32Mult = true ∧ isOdd c.golden = true ∧ isOdd c.smxMultA = true ∧ isOdd c.smxMixL = true ∧
      c.smxXshift = 16 := by
  simp only [Params.wf, Params.multsWf, Bool.and_eq_true, decide_eq_true_eq] at h
  tauto

/-- The xorshift shift counts of a legal record are not zero (R14, R19). -/
theorem Params.wf_shifts {c : Params} (h : c.wf = true) : 0 < c.xsh128A ∧ 0 < c.xsh128B ∧ 0 < c.xsh1024A ∧ 0 < c.xsh1024B := by
  simp only [Params.wf, Params.xshWf, isShift, Bool.and_eq_true, decide_eq_true_eq] at h
  omega

/-- The CMWC sizes of a legal CMWC record (R8). -/
theorem Params.wf_cmwc {c : Params} (h : c.wf = true) (hk : c.kind = .cmwc) :
    4 ≤ c.cmwcN ∧ c.cmwcN ≤ 4096 ∧ 1 ≤ c.cmwcCmax ∧ c.cmwcCmax ≤ 4294967296 := by
  simp [Params.wf, Params.cmwcWf, hk] at h
  omega

/-- Masking with N - 1 is reducing modulo N (42_cmwc.md R160, R161). -/
theorem Params.and_cmwcN {c : Params} (h : c.wf = true) (hk : c.kind = .cmwc) (n : Nat) : n &&& (c.cmwcN - 1) = n % c.cmwcN := by
  simp [Params.wf, Params.cmwcWf, hk] at h
  obtain ⟨⟨⟨⟨⟨⟨h, _⟩, _⟩, _⟩, _⟩, _⟩, _⟩ := h
  rw [h.1, Nat.and_two_pow_sub_one_eq_mod]

/-- Kinds 1-6 have at least two state words. -/
theorem Params.two_le_stateWords {c : Params} (hk : c.kind ≠ .cmwc) : 2 ≤ c.stateWords := by
  cases h : c.kind <;> simp_all [Params.stateWords]

end Sys2Proof
end

