-- ==== Sys2Proof/Laws/Mixer.lean ====
section
/-! SUPPORT. The seed mixer: lengths, keys, that one pairwise step and its undoing are inverse, and the pairs of the pairwise phase one by
one. -/

namespace Sys2Proof.Machine

/-- The initial absorption fills every slot (41_seed_mixer.md R133). -/
theorem absorbInit_length (c : Params) (n : Nat) (ka : U32) (ins : List U32) : (absorbInit c n ka ins).pool.length = n := by
  induction n generalizing ka ins with
  | zero => rfl
  | succ n ih => simp [absorbInit, ih]

/-- The key after n calls of KeyedHashA (R131). -/
theorem absorbInit_ka (c : Params) (n : Nat) (ka : U32) (ins : List U32) : (absorbInit c n ka ins).ka = ka * c.smxMultA ^ n := by
  induction n generalizing ka ins with
  | zero => simp [absorbInit]
  | succ n ih => simp [absorbInit, ih, nextKeyA]; ring

/-- The initial absorption sees the input words through `getD` only: a missing word is 0 (R133). -/
theorem absorbInit_congr (c : Params) (n : Nat) (ka : U32) (ins ins' : List U32) (h : ∀ k, k < n → ins.getD k 0 = ins'.getD k 0) :
    absorbInit c n ka ins = absorbInit c n ka ins' := by
  induction n generalizing ka ins ins' with
  | zero => rfl
  | succ n ih =>
    have ht : ∀ (l : List U32) (k : Nat), l.tail.getD k 0 = l.getD (k + 1) 0 := fun l k => by cases l <;> rfl
    have hh : ∀ l : List U32, l.headD 0 = l.getD 0 0 := fun l => by cases l <;> rfl
    have : absorbInit c n (nextKeyA c ka) ins.tail = absorbInit c n (nextKeyA c ka) ins'.tail :=
      ih _ _ _ fun k hk => by rw [ht, ht, h (k + 1) (by omega)]
    simp only [absorbInit, this, hh, h 0 (by omega)]

/-- Mixing into a slot keeps the pool's length. -/
theorem mixInto_length (c : Params) (a : Absorbing) (d : Nat) (v : U32) : (mixInto c a d v).pool.length = a.pool.length := by
  simp [mixInto]

/-- The pairwise phase keeps the pool's length. -/
theorem crossMix_length (c : Params) (a : Absorbing) (pairs : List (Nat × Nat)) : (crossMix c a pairs).pool.length = a.pool.length := by
  unfold crossMix
  induction pairs generalizing a with
  | nil => rfl
  | cons p ps ih => rw [List.foldl_cons, ih, mixInto_length]

/-- Mixing in a further word keeps the pool's length. -/
theorem mixRest_length (c : Params) (a : Absorbing) (w : U32) : (mixRest c a w).pool.length = a.pool.length := by
  unfold mixRest
  induction List.range c.smxCount generalizing a with
  | nil => rfl
  | cons d ds ih => simp [ih, mixInto_length]

/-- Absorb leaves COUNT words (10_state.md R53). -/
theorem absorb_length (c : Params) (ins : List U32) : (absorb c ins).length = c.smxCount := by
  have : ∀ (ws : List U32) (a : Absorbing), (ws.foldl (mixRest c) a).pool.length = a.pool.length := by
    intro ws
    induction ws with
    | nil => intro a; rfl
    | cons w ws ih => intro a; simp [ih, mixRest_length]
  simp [absorb, this, crossMix_length, absorbInit_length]

/-- Generate gives as many words as asked for (R137). -/
theorem generateFrom_length (c : Params) (pool : List U32) (m j : Nat) (kb : U32) : (generateFrom c pool m j kb).length = m := by
  induction m generalizing j kb with
  | zero => rfl
  | succ m ih => simp [generateFrom, ih]

/-- Undoing pairwise steps keeps the pool's length. -/
theorem unmixAll_length (c : Params) (pool : List U32) (j : Nat) (pairs : List (Nat × Nat)) :
    (unmixAll c pool j pairs).length = pool.length := by
  induction pairs generalizing j with
  | nil => rfl
  | cons p ps ih => simp [unmixAll, unmix, ih]

/-- Undoing the initial absorption gives one word a slot. -/
theorem unabsorbInit_length (c : Params) (k : Nat) (pool : List U32) : (unabsorbInit c k pool).length = pool.length := by
  induction pool generalizing k with
  | nil => rfl
  | cons p ps ih => simp [unabsorbInit, ih]

/-- Param gives one word a slot (R139). -/
theorem param_length (c : Params) (pool : List U32) : (param c pool).length = pool.length := by
  simp [param, unabsorbInit_length, unmixAll_length]

/-- Odd words are closed under multiplication. -/
theorem isOdd_mul {a b : U32} (ha : isOdd a = true) (hb : isOdd b = true) : isOdd (a * b) = true := by
  have h1 := odd_eq ha
  have h2 := odd_eq hb
  unfold isOdd
  simp only [BitVec.getLsbD, Nat.testBit_zero, BitVec.toNat_mul, decide_eq_true_eq]
  rw [Nat.mod_mod_of_dvd _ (by decide), Nat.mul_mod, h1, h2]

/-- Odd words are closed under powers. -/
theorem isOdd_pow {a : U32} (ha : isOdd a = true) (n : Nat) : isOdd (a ^ n) = true := by
  induction n with
  | zero => rw [pow_zero]; decide
  | succ n ih => rw [pow_succ]; exact isOdd_mul ih ha

/-- Every key K_j is odd when SMX_INIT_A is (R140; log 17). -/
theorem isOdd_keyA {c : Params} (h : isOdd c.smxInitA = true) (hm : isOdd c.smxMultA = true) (j : Nat) : isOdd (keyA c j) = true :=
  isOdd_mul h (isOdd_pow hm j)

/-- K_{j+1} is K_j advanced (R131, R141). -/
theorem keyA_succ (c : Params) (j : Nat) : nextKeyA c (keyA c j) = keyA c (j + 1) := by
  simp [nextKeyA, keyA]; ring

/-- K_0 is SMX_INIT_A (R141). -/
theorem keyA_zero (c : Params) : keyA c 0 = c.smxInitA := by simp [keyA]

/-- With SMX_XSHIFT = 16 the mixer's fold is `fold32` (00_scope.md R13). -/
theorem smxFold_eq {c : Params} (h : c.smxXshift = 16) (v : U32) : smxFold c v = fold32 v := by simp [smxFold, fold32, h]

/-- Undoing a pairwise step gives the pool before it (R140, R141). -/
theorem unmix_mixInto {c : Params} (hx : c.smxXshift = 16) (hl : isOdd c.smxMixL = true) (pool : List U32) {s d j : Nat} (hsd : d ≠ s) :
    unmix c (mixInto c ⟨pool, keyA c j⟩ d (pool.getD s 0)).pool s d j = pool := by
  simp only [mixInto, unmix, mix, keyedHashA, smxFold_eq hx]
  by_cases hd : d < pool.length
  · have hinv := mul_inv32 c.smxMixL hl
    have e1 : keyA c j * c.smxMultA = keyA c (j+1) := keyA_succ c j
    rw [List.getD_eq_getElem?_getD (l := pool.set _ _) (i := s), List.getElem?_set_ne hsd]
    simp only [List.getD_eq_getElem?_getD, List.getElem?_set_self hd, Option.getD_some, fold32_fold32, e1, List.set_set]
    have : ∀ h : U32, (c.smxMixL * pool[d]?.getD 0 - c.smxMixR * h + c.smxMixR * h) * inv32 c.smxMixL = pool[d]?.getD 0 := by
      intro h
      have : (c.smxMixL * pool[d]?.getD 0 - c.smxMixR * h + c.smxMixR * h) * inv32 c.smxMixL = (c.smxMixL * inv32 c.smxMixL) * pool[d]?.getD 0 := by ring
      rw [this, hinv]; simp
    rw [this, List.getElem?_eq_getElem hd, Option.getD_some, List.set_getElem_self]
  · rw [List.set_eq_of_length_le (by simp; omega), List.set_eq_of_length_le (by omega)]

/-- A pairwise step gives back the pool it was undone from (R140, R141). -/
theorem mixInto_unmix {c : Params} (hx : c.smxXshift = 16) (hl : isOdd c.smxMixL = true) (pool : List U32) {s d j : Nat} (hsd : d ≠ s) :
    (mixInto c ⟨unmix c pool s d j, keyA c j⟩ d ((unmix c pool s d j).getD s 0)).pool = pool := by
  simp only [mixInto, unmix, mix, keyedHashA, smxFold_eq hx]
  by_cases hd : d < pool.length
  · have hinv := mul_inv32 c.smxMixL hl
    have e1 : keyA c j * c.smxMultA = keyA c (j+1) := keyA_succ c j
    rw [List.getD_eq_getElem?_getD (l := pool.set _ _) (i := s), List.getElem?_set_ne hsd]
    simp only [List.getD_eq_getElem?_getD, List.getElem?_set_self hd, Option.getD_some, e1, List.set_set]
    have : ∀ x h : U32, c.smxMixL * ((fold32 x + c.smxMixR * h) * inv32 c.smxMixL) - c.smxMixR * h = fold32 x := by
      intro x h
      have : c.smxMixL * ((fold32 x + c.smxMixR * h) * inv32 c.smxMixL) - c.smxMixR * h = (c.smxMixL * inv32 c.smxMixL) * (fold32 x + c.smxMixR * h) - c.smxMixR * h := by ring
      rw [this, hinv]; simp
    rw [this, fold32_fold32, List.getElem?_eq_getElem hd, Option.getD_some, List.set_getElem_self]
  · rw [List.set_eq_of_length_le (by simp; omega), List.set_eq_of_length_le (by omega)]

/-- No pairwise step mixes a slot into itself (R133). -/
theorem mixPairs_ne (n : Nat) : ∀ p ∈ mixPairs n, p.2 ≠ p.1 := by
  intro p hp
  simp only [mixPairs, List.mem_flatten, List.mem_replicate] at hp
  obtain ⟨l, ⟨_, rfl⟩, hp⟩ := hp
  simp only [crossPairs, List.mem_flatMap, List.mem_map, List.mem_filter] at hp
  obtain ⟨s, _, d, ⟨_, hd⟩, rfl⟩ := hp
  simpa using hd

/-- An element of joined lists that all have the same length. -/
theorem getElem?_flatMap_uniform {α β : Type} {f : α → List β} {m : Nat} (hm : 0 < m) {xs : List α} (h : ∀ x ∈ xs, (f x).length = m) (i : Nat) :
    (xs.flatMap f)[i]? = (xs[i / m]?).bind fun x => (f x)[i % m]? := by
  induction xs generalizing i with
  | nil => simp
  | cons x xs ih =>
    have hx := h x (by simp)
    rw [List.flatMap_cons]
    by_cases hi : i < m
    · rw [List.getElem?_append_left (by rw [hx]; exact hi), Nat.div_eq_of_lt hi, Nat.mod_eq_of_lt hi]; simp
    · obtain ⟨j, rfl⟩ : ∃ j, i = j + m := ⟨i - m, by omega⟩
      rw [List.getElem?_append_right (by rw [hx]; omega), hx, Nat.add_sub_cancel, ih fun y hy => h y (by simp [hy]), Nat.add_div_right _ hm,
        Nat.add_mod_right]
      simp

/-- A fold is the end of any sequence that takes the fold's steps. -/
theorem foldl_eq_of_steps {α β : Type} (f : β → α → β) (run : Nat → β) (l : List α)
    (h : ∀ i x, l[i]? = some x → run (i + 1) = f (run i) x) : l.foldl f (run 0) = run l.length := by
  induction l generalizing run with
  | nil => rfl
  | cons x xs ih =>
    rw [List.foldl_cons, ← h 0 x rfl]
    exact ih (fun i => run (i + 1)) fun i y hy => h (i + 1) y (by simpa using hy)

/-- The slots other than `s` are those below it and those above it. -/
theorem filter_ne_range {n s : Nat} (hs : s < n) :
    (List.range n).filter (· != s) = List.range s ++ List.range' (s + 1) (n - 1 - s) := by
  have e : List.range n = List.range s ++ (s :: List.range' (s + 1) (n - 1 - s)) := by
    rw [List.range_eq_range', List.range_eq_range', ← List.range'_succ]
    have := List.range'_append (s := 0) (m := s) (n := n - 1 - s + 1) (step := 1)
    simp only [Nat.zero_add, Nat.one_mul] at this
    rw [this]
    congr 1
    omega
  rw [e, List.filter_append, List.filter_cons_of_neg (by simp), List.filter_eq_self.mpr fun a ha => by simp at ha ⊢; omega,
    List.filter_eq_self.mpr fun a ha => by simp at ha ⊢; omega]

/-- The destinations of the source `s`, one by one (R133). -/
theorem filter_ne_getElem? {n s : Nat} (hs : s < n) {i : Nat} (hi : i < n - 1) :
    ((List.range n).filter (· != s))[i]? = some (if i < s then i else i + 1) := by
  rw [filter_ne_range hs]
  split
  · next h => rw [List.getElem?_append_left (by simpa using h)]; simp [h]
  · next h =>
    rw [List.getElem?_append_right (by simpa using Nat.le_of_not_lt h), List.length_range, List.getElem?_range' (by omega)]
    congr 1
    omega

/-- How many destinations a source has. -/
theorem filter_ne_length {n s : Nat} (hs : s < n) : ((List.range n).filter (· != s)).length = n - 1 := by
  rw [filter_ne_range hs]; simp; omega

/-- One cross-mix round has COUNT·(COUNT - 1) pairs. -/
theorem crossPairs_length (n : Nat) : (crossPairs n).length = n * (n - 1) := by
  rw [crossPairs, List.length_flatMap, List.map_congr_left (g := fun _ => n - 1) fun s hs => by
    rw [List.length_map, filter_ne_length (List.mem_range.mp hs)]]
  simp

/-- The pairs of one cross-mix round, one by one: source outer, destination inner (R133). -/
theorem crossPairs_getElem? {n i : Nat} (h : i < n * (n - 1)) :
    (crossPairs n)[i]? = some (i / (n - 1), if i % (n - 1) < i / (n - 1) then i % (n - 1) else i % (n - 1) + 1) := by
  have hm : 0 < n - 1 := Nat.pos_of_ne_zero fun h0 => by simp [h0] at h
  have hs : i / (n - 1) < n := Nat.div_lt_of_lt_mul (by rwa [Nat.mul_comm])
  rw [crossPairs, getElem?_flatMap_uniform hm fun s hs => by rw [List.length_map, filter_ne_length (List.mem_range.mp hs)],
    List.getElem?_range hs, Option.bind_some, List.getElem?_map, filter_ne_getElem? hs (Nat.mod_lt _ hm)]
  rfl

/-- The whole pairwise phase, the stir included, has ROUNDS·COUNT·(COUNT - 1) pairs (R133, R134). -/
theorem mixPairs_length (n : Nat) : (mixPairs n).length = mixRounds n * (n * (n - 1)) := by simp [mixPairs, crossPairs_length]

/-- The pairs of the whole pairwise phase, one by one: each round is one cross-mix (R134). -/
theorem mixPairs_getElem? {n i : Nat} (h : i < mixRounds n * (n * (n - 1))) :
    (mixPairs n)[i]? = some (i / (n - 1) % n, if i % (n - 1) < i / (n - 1) % n then i % (n - 1) else i % (n - 1) + 1) := by
  have hp : 0 < n * (n - 1) := Nat.pos_of_ne_zero fun h0 => by simp [h0] at h
  have e : mixPairs n = (List.replicate (mixRounds n) ()).flatMap fun _ => crossPairs n := by simp [mixPairs, List.flatMap]
  have hd : i / (n * (n - 1)) < mixRounds n := Nat.div_lt_of_lt_mul (by rwa [Nat.mul_comm])
  rw [e, getElem?_flatMap_uniform hp fun _ _ => crossPairs_length n, List.getElem?_replicate, if_pos hd, Option.bind_some,
    crossPairs_getElem? (Nat.mod_lt _ hp), Nat.mod_mul_left_div_self, Nat.mod_mul_left_mod]

end Sys2Proof.Machine
end

