-- ==== Sys2Proof/Laws/Engine.lean ====
section
/-! SUPPORT. The engine: hashes and expansion, lengths of images and outputs, images word by word, the shape every operation keeps, and the
non-zero state. -/

namespace Sys2Proof.Machine

/-- `fold64` is injective (40_hash.md R111). -/
theorem fold64_injective {x y : U64} (h : fold64 x = fold64 y) : x = y := by
  rw [← fold64_fold64 x, h, fold64_fold64]

/-- `fold32` is injective (40_hash.md R113). -/
theorem fold32_injective {x y : U32} (h : fold32 x = fold32 y) : x = y := by
  rw [← fold32_fold32 x, h, fold32_fold32]

/-- Hash64 is injective for an odd multiplier (40_hash.md R111). -/
theorem hash64_injective {c : Params} (h : isOdd c.h64Mult = true) : Function.Injective (hash64 c) := by
  have round : ∀ x y, hash64Round c x = hash64Round c y → x = y := fun x y e => by
    have := mul_odd_injective h e
    rw [BitVec.xor_comm, BitVec.xor_comm (y >>> 32)] at this
    exact fold64_injective this
  intro x y e
  exact round _ _ (round _ _ (fold64_injective e))

/-- Hash64 fixes 0 (R111). -/
theorem hash64_zero (c : Params) : hash64 c 0 = 0 := by simp [hash64, hash64Round, fold64]

/-- Expand gives as many words as asked for (43_xoroshiro.md R198). -/
theorem expand_length (c : Params) (sv : U64) (w : Nat) : (expand c sv w).length = w := by
  induction w generalizing sv with
  | zero => rfl
  | succ w ih => simp [expand, ih]

/-- Expand word by word (43_xoroshiro.md R198). -/
theorem expand_getElem? (c : Params) (sv : U64) (w k : Nat) (h : k < w) :
    (expand c sv w)[k]? = some (hash64 c (sv + BitVec.ofNat 64 (k + 1) * c.golden)) := by
  induction w generalizing sv k with
  | zero => omega
  | succ w ih =>
    cases k with
    | zero => simp [expand]
    | succ k =>
      simp only [expand, List.getElem?_cons_succ]
      rw [ih _ _ (by omega)]
      have : BitVec.ofNat 64 (k + 1 + 1) = BitVec.ofNat 64 (k+1) + 1 := by rw [BitVec.ofNat_add]; rfl
      rw [this]
      congr 2
      ring

/-- An expansion of two words or more is never all zero: two words differ (43_xoroshiro.md R199). -/
theorem expand_allZero {c : Params} (hwf : c.wf = true) (sv : U64) {w : Nat} (hw : 2 ≤ w) : allZero (expand c sv w) = false := by
  obtain ⟨hh, _, hg, _⟩ := Params.wf_mults hwf
  by_contra hn
  rw [Bool.not_eq_false, allZero, List.all_eq_true] at hn
  have at_ : ∀ k, k < w → hash64 c (sv + BitVec.ofNat 64 (k + 1) * c.golden) = 0 := fun k hk => by
    simpa using hn _ (List.mem_of_getElem? (expand_getElem? c sv w k hk))
  have e : BitVec.ofNat 64 (0 + 1) * c.golden = BitVec.ofNat 64 (1 + 1) * c.golden := by
    simpa using hash64_injective hh ((at_ 0 (by omega)).trans (at_ 1 (by omega)).symm)
  rw [BitVec.ofNat_add 1 1] at e
  have : c.golden = 0 := by
    have h2 : (BitVec.ofNat 64 1 + BitVec.ofNat 64 1) * c.golden = BitVec.ofNat 64 (0 + 1) * c.golden + c.golden := by
      have : BitVec.ofNat 64 1 = (1 : U64) := rfl
      rw [Nat.zero_add, this]; ring
    rw [h2] at e
    simpa using e
  rw [this] at hg
  simp [isOdd] at hg

/-- Pairing 2·n words gives n (43_xoroshiro.md R204). -/
theorem pairWords_length (ws : List U32) (n : Nat) (h : ws.length = 2 * n) : (pairWords ws).length = n := by
  induction n generalizing ws with
  | zero => cases ws <;> simp_all [pairWords]
  | succ n ih =>
    match ws, h with
    | lo :: hi :: rest, h => simp only [pairWords, List.length_cons, ih rest (by simp at h; omega)]

/-- Taking the low half is truncating. -/
theorem lo32_eq_setWidth (v : U64) : lo32 v = v.setWidth 32 := (BitVec.setWidth_eq_extractLsb' (by omega)).symm

/-- The image of kinds 1-6 has STATE_WORDS words (43_xoroshiro.md R197). -/
theorem xImage_length (c : Params) (e : Engine) (hk : c.kind ≠ .cmwc) : (xImage c e).length = c.stateWords := by
  cases h : c.kind <;> simp [xImage, Params.stateWords, h]
  exact absurd h hk

/-- The image has STATE_WORDS words (44_engine_commands.md R230). -/
theorem engineImage_length (c : Params) (e : Engine) : (engineImage c e).length = c.stateWords := by
  by_cases hk : c.kind = .cmwc
  · simp [engineImage, hk, cmwcImage, Params.stateWords]
  · rw [← xImage_length c e hk]
    cases h : c.kind <;> simp_all [engineImage]

/-- CmwcImage word by word (42_cmwc.md R171). -/
theorem cmwcImage_getElem? {c : Params} (hwf : c.wf = true) (hk : c.kind = .cmwc) (e : Engine) (k : Nat) :
    (cmwcImage c e)[k]? = if k < c.cmwcN then some (zext64 (e.q.getD ((e.cur + k) % c.cmwcN) 0)) else if k = c.cmwcN then some (zext64 e.carry) else none := by
  unfold cmwcImage
  split
  · next h => rw [List.getElem?_append_left (by simp [h])]; simp [h, Params.and_cmwcN hwf hk]
  · next h =>
    rw [List.getElem?_append_right (by simp; omega)]
    simp
    split
    · next h2 => subst h2; simp
    · next h2 => rw [List.getElem?_eq_none (by simp; omega)]

/-- Reading a vector at a Fin. -/
theorem vector_get_eq (v : Vector U64 16) (i : Fin 16) : v.get i = v[i.val] := rfl

/-- The image of kinds 1-5 (43_xoroshiro.md R197). -/
theorem xImage_two {c : Params} (hk : c.kind ≠ .cmwc) (h6 : c.kind ≠ .xsh1024s) (e : Engine) : engineImage c e = [e.s0, e.s1] := by
  cases h : c.kind <;> simp_all [engineImage, xImage]

/-- Which CMWC engines have equal images (42_cmwc.md R171). -/
theorem cmwcImage_eq_iff {c : Params} (hwf : c.wf = true) (hk : c.kind = .cmwc) (e₁ e₂ : Engine) :
    cmwcImage c e₁ = cmwcImage c e₂ ↔ (∀ k, k < c.cmwcN → e₁.q.getD ((e₁.cur + k) % c.cmwcN) 0 = e₂.q.getD ((e₂.cur + k) % c.cmwcN) 0) ∧ e₁.carry = e₂.carry := by
  have hz : ∀ a b : U32, zext64 a = zext64 b → a = b := fun a b h => by rw [← lo32_zext64 a, h, lo32_zext64]
  constructor
  · intro h
    refine ⟨fun k hk' => ?_, ?_⟩
    · have := congrArg (·[k]?) h
      simp only [cmwcImage_getElem? hwf hk, hk', if_true, Option.some.injEq] at this
      exact hz _ _ this
    · have := congrArg (·[c.cmwcN]?) h
      simp only [cmwcImage_getElem? hwf hk, lt_irrefl, if_false, if_true, Option.some.injEq] at this
      exact hz _ _ this
  · rintro ⟨h1, h2⟩
    apply List.ext_getElem?
    intro k
    rw [cmwcImage_getElem? hwf hk, cmwcImage_getElem? hwf hk, h2]
    split
    · next h => rw [h1 k h]
    · rfl

/-- Which XSH1024S engines have equal images (43_xoroshiro.md R197). -/
theorem xImage_1024_eq_iff {c : Params} (h6 : c.kind = .xsh1024s) (e₁ e₂ : Engine) :
    engineImage c e₁ = engineImage c e₂ ↔ ∀ k : Fin 16, e₁.s.get (e₁.p + k) = e₂.s.get (e₂.p + k) := by
  simp only [engineImage, h6, xImage, List.ofFn_inj, funext_iff]

/-- ENG.GEN's outputs are as many as asked for (44_engine_commands.md R237). -/
theorem engineGen_length (c : Params) (n : Nat) (e : Engine) : (engineGen c n e).1.length = n := by
  induction n generalizing e with
  | zero => rfl
  | succ n ih => simp [engineGen, ih]

/-- The engine ENG.GEN leaves (R237). -/
theorem engineGen_snd (c : Params) (n : Nat) (e : Engine) : (engineGen c n e).2 = (fun e => (engineNext c e).2)^[n] e := by
  induction n generalizing e with
  | zero => rfl
  | succ n ih => simp [engineGen, ih]

/-- ENG.GEN's outputs one by one (R237). -/
theorem engineGen_getElem? (c : Params) (n : Nat) (e : Engine) (k : Nat) (h : k < n) :
    (engineGen c n e).1[k]? = some (engineNext c ((fun e => (engineNext c e).2)^[k] e)).1 := by
  induction n generalizing e k with
  | zero => omega
  | succ n ih =>
    cases k with
    | zero => simp [engineGen]
    | succ k => simp [engineGen, ih _ k (by omega)]

/-- For kinds 1-6 only the unused Q matters to the shape. -/
theorem shaped_of_q {c : Params} {e e' : Engine} (hk : c.kind ≠ .cmwc) (h : e.shaped c) (hq : e'.q = e.q) : e'.shaped c := ⟨by rw [hq]; exact h.1, fun h => absurd h hk⟩

/-- A function that keeps the shape keeps it any number of times. -/
theorem iterate_shaped {c : Params} {f : Engine → Engine} (hf : ∀ e, e.shaped c → (f e).shaped c) (n : Nat) (e : Engine) (h : e.shaped c) : (f^[n] e).shaped c := by
  induction n generalizing e with
  | zero => exact h
  | succ n ih => rw [Function.iterate_succ_apply]; exact ih _ (hf _ h)

/-- Advancing leaves Q alone. -/
theorem xAdvance_q (c : Params) (e : Engine) : (xAdvance c e).q = e.q := by cases h : c.kind <;> simp [xAdvance, h, xoroAdvance, xsh128Advance, xsh1024Advance]

/-- Installing an image of kinds 1-6 leaves Q alone. -/
theorem xSetImage_q (c : Params) (w : List U64) (e : Engine) : (xSetImage c w e).q = e.q := by cases h : c.kind <;> simp [xSetImage, h]

/-- Discarding on kinds 1-6 leaves Q alone. -/
theorem xDiscard_q (c : Params) (n : Nat) (e : Engine) : (xDiscard c n e).q = e.q := by
  unfold xDiscard
  induction n with
  | zero => rfl
  | succ n ih => rw [Function.iterate_succ_apply', xAdvance_q]; exact ih

/-- Jumping leaves Q alone. -/
theorem xJump_q (c : Params) (n : Nat) (e : Engine) : (xJump c n e).q = e.q := by
  unfold xJump
  induction n with
  | zero => rfl
  | succ n ih => rw [Function.iterate_succ_apply']; simp only [xJumpOnce, xSetImage_q]; exact ih

/-- Next! keeps the shape. -/
theorem engineNext_shaped {c : Params} (hwf : c.wf = true) {e : Engine} (h : e.shaped c) : (engineNext c e).2.shaped c := by
  obtain ⟨h1, h2⟩ := h
  by_cases hk : c.kind = .cmwc
  · have hN := (Params.wf_cmwc hwf hk).1
    refine ⟨?_, fun _ => ?_⟩
    · simp [engineNext, hk, cmwcStep, h1]
    · simp only [engineNext, hk, cmwcStep, cmwcNextCur, Params.and_cmwcN hwf hk]
      exact Nat.mod_lt _ (by omega)
  · refine ⟨?_, fun h => absurd h hk⟩
    cases hk' : c.kind <;> simp_all [engineNext, xNext, xAdvance, xoroAdvance, xsh128Advance, xsh1024Advance]

/-- CmwcStep! keeps the shape (42_cmwc.md R161). -/
theorem cmwcStep_shaped {c : Params} (hwf : c.wf = true) (hk : c.kind = .cmwc) {e : Engine} (h : e.shaped c) : (cmwcStep c e).2.shaped c := by
  have := engineNext_shaped hwf h
  simpa [engineNext, hk] using this

/-- Filling before the warm-up gives the shape (42_cmwc.md R167). -/
theorem cmwcFill_shaped {c : Params} (hwf : c.wf = true) (hk : c.kind = .cmwc) (w : List U64) (e : Engine) : (cmwcFill c w e).shaped c := by
  have hN := (Params.wf_cmwc hwf hk).1
  refine ⟨by simp [cmwcFill, Params.qWords, hk], fun _ => ?_⟩
  simp only [cmwcFill]; omega

/-- SeedScalar! keeps the shape. -/
theorem seedScalar_shaped {c : Params} (hwf : c.wf = true) {e : Engine} (h : e.shaped c) (v : U64) : (seedScalar c v e).shaped c := by
  cases hk : c.kind <;> simp only [seedScalar, hk]
  case cmwc => exact iterate_shaped (fun e => cmwcStep_shaped hwf hk) _ _ (cmwcFill_shaped hwf hk _ _)
  all_goals exact shaped_of_q (by simp [hk]) h (by simp [xSeedScalar, xWarmup, xDiscard_q, xSetImage_q])

/-- SeedWords! keeps the shape. -/
theorem seedWords_shaped {c : Params} (hwf : c.wf = true) {e : Engine} (h : e.shaped c) (w : List U64) : (seedWords c w e).shaped c := by
  cases hk : c.kind <;> simp only [seedWords, hk]
  case cmwc => exact iterate_shaped (fun e => cmwcStep_shaped hwf hk) _ _ (cmwcFill_shaped hwf hk _ _)
  all_goals exact shaped_of_q (by simp [hk]) h (by simp [xSeedWords, xWarmup, xDiscard_q, xSetImage_q])

/-- SeedMixer! keeps the shape. -/
theorem seedMixer_shaped {c : Params} (hwf : c.wf = true) {e : Engine} (h : e.shaped c) (p : List U32) : (seedMixer c p e).shaped c := by
  cases hk : c.kind <;> simp only [seedMixer, hk]
  case cmwc => exact iterate_shaped (fun e => cmwcStep_shaped hwf hk) _ _ (cmwcFill_shaped hwf hk _ _)
  all_goals exact shaped_of_q (by simp [hk]) h (by simp [xSeedMixer, xWarmup, xDiscard_q, xSetImage_q])

/-- Discard! keeps the shape. -/
theorem engineDiscard_shaped {c : Params} (hwf : c.wf = true) {e : Engine} (h : e.shaped c) (n : Nat) : (engineDiscard c n e).shaped c := by
  cases hk : c.kind <;> simp only [engineDiscard, hk]
  case cmwc => exact iterate_shaped (fun e => cmwcStep_shaped hwf hk) _ _ h
  all_goals exact shaped_of_q (by simp [hk]) h (xDiscard_q ..)

/-- Load! keeps the shape. -/
theorem engineLoad_shaped {c : Params} (hwf : c.wf = true) {e : Engine} (h : e.shaped c) (w : List U64) : (engineLoad c w e).shaped c := by
  cases hk : c.kind <;> simp only [engineLoad, hk]
  case cmwc => 
    have hN := (Params.wf_cmwc hwf hk).1
    refine ⟨by simp [cmwcLoad, Params.qWords, hk], fun _ => ?_⟩
    simp only [cmwcLoad]; omega
  all_goals exact shaped_of_q (by simp [hk]) h (xSetImage_q ..)

/-- Repeated Next! keeps the shape. -/
theorem engineGen_shaped {c : Params} (hwf : c.wf = true) (n : Nat) {e : Engine} (h : e.shaped c) : (engineGen c n e).2.shaped c := by
  induction n generalizing e with
  | zero => exact h
  | succ n ih => exact ih (engineNext_shaped hwf h)

/-- The power-on engine has the shape. -/
theorem initial_shaped {c : Params} (hwf : c.wf = true) : (Engine.initial c).shaped c :=
  ⟨by simp [Engine.initial], fun hk => by have := (Params.wf_cmwc hwf hk).1; simp only [Engine.initial]; omega⟩

/-- What non-zero means for kinds 1-5 (10_state.md R50). -/
theorem nonzero_two {c : Params} (hk : c.kind ≠ .cmwc) (h6 : c.kind ≠ .xsh1024s) (e : Engine) : e.nonzero c ↔ ¬(e.s0 = 0 ∧ e.s1 = 0) := by
  cases h : c.kind <;> simp_all [Engine.nonzero, engineImage, xImage, allZero]

/-- What non-zero means for XSH1024S, wherever P stands (10_state.md R50). -/
theorem nonzero_1024 {c : Params} (h6 : c.kind = .xsh1024s) (e : Engine) : e.nonzero c ↔ ∃ k : Fin 16, e.s.get k ≠ 0 := by
  have : e.nonzero c ↔ ∃ k : Fin 16, e.s.get (e.p + k) ≠ 0 := by
    simp only [Engine.nonzero, engineImage, h6, xImage, allZero, List.all_eq_false, List.mem_ofFn]
    constructor
    · rintro ⟨x, ⟨k, rfl⟩, h⟩; exact ⟨k, by simpa using h⟩
    · rintro ⟨k, h⟩; exact ⟨_, ⟨k, rfl⟩, by simpa using h⟩
  rw [this]
  constructor
  · rintro ⟨k, h⟩; exact ⟨_, h⟩
  · rintro ⟨k, h⟩; exact ⟨k - e.p, by rwa [add_sub_cancel]⟩

/-- Only 0 rotates to 0. -/
theorem rotl64_eq_zero {x : U64} {k : Nat} (h0 : 0 < k) (hk : k < 64) (h : rotl64 x k = 0) : x = 0 := by
  apply BitVec.eq_of_getLsbD_eq
  intro i hi
  simp only [rotl64] at h
  by_cases hik : i + k < 64
  · have := congrArg (fun v => v.getLsbD (i + k)) h
    simp [hik] at this
    rw [BitVec.getLsbD_eq_getElem hi]; simpa using this.1
  · have := congrArg (fun v => v.getLsbD (i + k - 64)) h
    simp [BitVec.getLsbD_or, BitVec.getLsbD_ushiftRight, show i + k - 64 < k by omega] at this
    rw [show 64 - k + (i + k - 64) = i by omega] at this
    simpa using this

/-- Installing words that are not all zero (43_xoroshiro.md R197). -/
theorem xSetImage_nonzero {c : Params} (hk : c.kind ≠ .cmwc) {w : List U64} (hl : w.length = c.stateWords) (h : allZero w = false) (e : Engine) :
    (xSetImage c w e).nonzero c := by
  simp only [allZero, List.all_eq_false] at h
  obtain ⟨x, hx, h0⟩ := h
  obtain ⟨k, hk', rfl⟩ := List.mem_iff_getElem.mp hx
  by_cases h6 : c.kind = .xsh1024s
  · rw [nonzero_1024 h6]
    simp only [xSetImage, h6]
    have : k < 16 := by simpa [hl, Params.stateWords, h6] using hk'
    refine ⟨⟨k, this⟩, ?_⟩
    simp only [vector_get_eq, Vector.getElem_ofFn, List.getD_eq_getElem?_getD, List.getElem?_eq_getElem hk', Option.getD_some]
    simpa using h0
  · rw [nonzero_two hk h6]
    have h2 : w.length = 2 := by rw [hl]; cases h : c.kind <;> simp_all [Params.stateWords]
    have hs : (xSetImage c w e).s0 = w.getD 0 0 ∧ (xSetImage c w e).s1 = w.getD 1 0 := by cases h : c.kind <;> simp_all [xSetImage]
    rintro ⟨ha, hb⟩
    rw [hs.1] at ha; rw [hs.2] at hb
    apply h0
    have : k = 0 ∨ k = 1 := by omega
    rcases this with rfl | rfl
    · simpa [List.getElem?_eq_getElem hk'] using ha
    · simpa [List.getElem?_eq_getElem hk'] using hb

end Sys2Proof.Machine
end

