-- ==== Sys2Proof/Laws/Exec.lean ====
section
/-! SUPPORT. Everything a completing command can store to BUF, and the shape of the engine and pool it leaves. -/

namespace Sys2Proof.Machine

/-- A completing command stores nothing, or `storedWords` words from BUF[0] on, all of them inside BUF (20_memory.md R86). -/
theorem exec_buf {i : Instr} {s t : State} (hI : s.Inv) (h : exec i s = .next t) :
    t.buf = s.buf ∨ ∃ ws, ws.length = storedWords i s ∧ ws.length ≤ s.params.bufWords ∧ t.buf = s.buf.writeWords 0 ws := by
  have hsw := Params.wf_sizes hI.params
  have hr : Raises s t → t.buf = s.buf := by rintro ⟨e, _, rfl⟩; rfl
  cases i <;> simp only [exec] at h
  case engSeeddef => have := execEngSeeddef_next h; subst this; exact .inl rfl
  case engSeed => have := execEngSeed_next h; subst this; exact .inl rfl
  case engSeedmix => rcases execEngSeedmix_next h with h | ⟨h1, rfl⟩; exact .inl (hr h); exact .inl rfl
  case engSeedbuf => rcases execEngSeedbuf_next h with h | ⟨h1, h2, ws, h3, rfl⟩; exact .inl (hr h); exact .inl rfl
  case engNext => rcases execEngNext_next h with h | ⟨h1, rfl⟩; exact .inl (hr h); exact .inl rfl
  case engGen => rcases execEngGen_next h with h | ⟨h1, h2, rfl⟩; exact .inl (hr h); exact .inr ⟨_, engineGen_length .., by rw [engineGen_length]; exact h1, rfl⟩
  case engDiscard => rcases execEngDiscard_next h with h | ⟨h1, rfl⟩; exact .inl (hr h); exact .inl rfl
  case engJump => rcases execEngJump_next h with h | ⟨h1, h2, rfl⟩; exact .inl (hr h); exact .inl rfl
  case engSave => rcases execEngSave_next h with h | ⟨h1, rfl⟩; exact .inl (hr h); exact .inr ⟨_, engineImage_length .., by rw [engineImage_length]; exact hsw.1, rfl⟩
  case engLoad => rcases execEngLoad_next h with h | ⟨h1, h2, ws, h3, h4, rfl⟩; exact .inl (hr h); exact .inl rfl
  case engEq => rcases execEngEq_next h with h | ⟨h1, h2, h3, ws, h4, rfl⟩; exact .inl (hr h); exact .inl rfl
  case smxSeed => rcases execSmxSeed_next h with h | ⟨h1, ws, h4, rfl⟩; exact .inl (hr h); exact .inl rfl
  case smxGen =>
    rcases execSmxGen_next h with h | ⟨h1, h2, rfl⟩; exact .inl (hr h)
    have : ∀ p n, (wideWords (generate s.params p n)).length = n := fun p n => by simp [wideWords, generateFrom_length, generate]
    exact .inr ⟨_, this .., by rw [this]; exact h1, rfl⟩
  case smxParam =>
    rcases execSmxParam_next h with h | ⟨h2, rfl⟩; exact .inl (hr h)
    have : (wideWords (param s.params s.pool)).length = s.params.smxCount := by simp [wideWords, param_length, hI.pool]
    exact .inr ⟨_, this, by rw [this]; exact hsw.2.1, rfl⟩
  case hshH64 => have := execHshH64_next h; subst this; exact .inl rfl
  case hshH32 => have := execHshH32_next h; subst this; exact .inl rfl
  case ctlNop => have := execCtlNop_next h; subst this; exact .inl rfl
  case ctlClrerr => have := execCtlClrerr_next h; subst this; exact .inl rfl
  case ctlReset => have := execCtlReset_next h; subst this; exact .inl rfl

/-- A completing command keeps the engine's shape and POOL's length (10_state.md R47, R51, R53). -/
theorem exec_engine_pool {i : Instr} {s t : State} (hI : s.Inv) (he : exec i s = .next t) : t.eng.shaped t.params ∧ t.pool.length = t.params.smxCount := by
  have hr : Raises s t → t.eng.shaped t.params ∧ t.pool.length = t.params.smxCount := by rintro ⟨e, _, rfl⟩; exact ⟨hI.engine, hI.pool⟩
  have hp := hI.pool
  have hE := hI.engine
  cases i <;> simp only [exec] at he
  case engSeeddef => have := execEngSeeddef_next he; subst this; exact ⟨seedScalar_shaped hI.params hE _, hp⟩
  case engSeed => have := execEngSeed_next he; subst this; exact ⟨seedScalar_shaped hI.params hE _, hp⟩
  case engSeedmix => rcases execEngSeedmix_next he with h | ⟨h1, rfl⟩; exact hr h; exact ⟨seedMixer_shaped hI.params hE _, hp⟩
  case engSeedbuf => rcases execEngSeedbuf_next he with h | ⟨h1, h2, ws, h3, rfl⟩; exact hr h; exact ⟨seedWords_shaped hI.params hE _, hp⟩
  case engNext => rcases execEngNext_next he with h | ⟨h1, rfl⟩; exact hr h; exact ⟨engineNext_shaped hI.params hE, hp⟩
  case engGen => rcases execEngGen_next he with h | ⟨h1, h2, rfl⟩; exact hr h; exact ⟨engineGen_shaped hI.params _ hE, hp⟩
  case engDiscard => rcases execEngDiscard_next he with h | ⟨h1, rfl⟩; exact hr h; exact ⟨engineDiscard_shaped hI.params hE _, hp⟩
  case engJump => rcases execEngJump_next he with h | ⟨h1, h2, rfl⟩; exact hr h; exact ⟨shaped_of_q h1 hE (xJump_q ..), hp⟩
  case engSave => rcases execEngSave_next he with h | ⟨h1, rfl⟩; exact hr h; exact ⟨hE, hp⟩
  case engLoad => rcases execEngLoad_next he with h | ⟨h1, h2, ws, h3, h4, rfl⟩; exact hr h; exact ⟨engineLoad_shaped hI.params hE _, hp⟩
  case engEq => rcases execEngEq_next he with h | ⟨h1, h2, h3, ws, h4, rfl⟩; exact hr h; exact ⟨hE, hp⟩
  case smxSeed => rcases execSmxSeed_next he with h | ⟨h1, ws, h4, rfl⟩; exact hr h; exact ⟨hE, absorb_length ..⟩
  case smxGen => rcases execSmxGen_next he with h | ⟨h1, h2, rfl⟩; exact hr h; exact ⟨hE, hp⟩
  case smxParam => rcases execSmxParam_next he with h | ⟨h2, rfl⟩; exact hr h; exact ⟨hE, hp⟩
  case hshH64 => have := execHshH64_next he; subst this; exact ⟨hE, hp⟩
  case hshH32 => have := execHshH32_next he; subst this; exact ⟨hE, hp⟩
  case ctlNop => have := execCtlNop_next he; subst this; exact ⟨hE, hp⟩
  case ctlClrerr => have := execCtlClrerr_next he; subst this; exact ⟨hE, hp⟩
  case ctlReset => have := execCtlReset_next he; subst this; exact ⟨initial_shaped hI.params, by simp⟩

end Sys2Proof.Machine
end

