-- ==== Sys2Proof/Tests/Slice0.lean ====
section
/-! SUPPORT. The model's own tests: words decoded, ill-formed terms refused, the vectors of spec/95_test_vectors.md one step at a time, and for
every obligation with hypotheses a concrete case that meets them all. -/

namespace Sys2Proof.Tests

-- One test at a time: evaluated side by side they hold several times the memory.
set_option Elab.async false

open Sys2Proof.Machine

/-- The reference parameters with DEFAULT_SEED = 1, BASE = 0x1000. -/
def params (k : Kind) : Params := Config.referenceWith k 1 .little 0x1000

/-- An instance after power-on. -/
def inst (k : Kind) : State := State.powerOnOf (params k)

/-- An instance with the words `ws` in BUF. -/
def withBufWords (k : Kind) (ws : List U64) : State := { inst k with buf := Memory.writeWords [] 0 ws }

/-- A seeded instance of kind 1-5 with the image [a, b]. -/
def seeded2 (k : Kind) (a b : U64) : State :=
  { inst k with seeded := true, eng := { Engine.initial (params k) with s0 := a, s1 := b } }

/-- A seeded XSH1024S instance with the words `ws` and cursor `p`. -/
def seeded16 (ws : List U64) (p : Fin 16) : State :=
  { inst .xsh1024s with
    seeded := true
    eng := { Engine.initial (params .xsh1024s) with s := Vector.ofFn fun k => ws.getD k.val 0, p := p } }

/-- A CMWC instance of the reference multiplier and bound with N = 4. -/
def params4 (compl : Bool) : Params := { params .cmwc with cmwcN := 4, cmwcCompl := compl }

/-- A seeded CMWC instance with N = 4, the words `q`, carry `c` and CUR = 0. -/
def seeded4 (compl : Bool) (q : List U32) (c : U32) : State :=
  { State.powerOnOf (params4 compl) with
    seeded := true
    eng := { Engine.initial (params4 compl) with q := q, carry := c } }

/-- A mixer holding `pool`. -/
def mixed (k : Kind) (pool : List U32) : State := { inst k with mixfull := true, pool := pool }

/-- The state a step leaves, through `f`. -/
def view {α : Type} (f : State → α) (o : Host.Outcome State Fault Refusal) : Option α :=
  match o with
  | .next s => some (f s)
  | .fault _ | .refused _ => none

/-- The engine's image after a step. -/
def image : Host.Outcome State Fault Refusal → Option (List U64) := view fun s => engineImage s.params s.eng

/-- RESULT after a step. -/
def result : Host.Outcome State Fault Refusal → Option U64 := view (·.result)

/-- STATUS after a step. -/
def status : Host.Outcome State Fault Refusal → Option U64 := view statusWord

/-- BUF[0..n-1] after a step. -/
def words (n : Nat) : Host.Outcome State Fault Refusal → Option (List (Option U64)) :=
  view fun s => (List.range n).map fun k => s.buf.readWord k

/-- POOL after a step. -/
def pool : Host.Outcome State Fault Refusal → Option (List U32) := view (·.pool)

/-- The value the host read last. -/
def lastRead : Host.Outcome State Fault Refusal → Option (Option (Nat × U64)) := view (·.reads.head?)

/-! ### Decoding: OPC at 7:0, RSV = 0 at 15:8, LEN at 31:16 (30_encoding.md R91, R96) -/

theorem test_decode_engSeeddef : decode 0x00000000 = .ok .engSeeddef := rfl
theorem test_decode_engSeed : decode 0x00000001 = .ok .engSeed := rfl
theorem test_decode_engSeedmix : decode 0x00000002 = .ok .engSeedmix := rfl
theorem test_decode_engSeedbuf : decode 0x00010003 = .ok (.engSeedbuf 1) := rfl
theorem test_decode_engNext : decode 0x00000004 = .ok .engNext := rfl
theorem test_decode_engGen : decode 0x00100005 = .ok (.engGen 16) := rfl
theorem test_decode_engDiscard : decode 0x00000006 = .ok .engDiscard := rfl
theorem test_decode_engJump : decode 0x00000007 = .ok .engJump := rfl
theorem test_decode_engSave : decode 0x00000008 = .ok .engSave := rfl
theorem test_decode_engLoad : decode 0x10010009 = .ok (.engLoad 4097) := rfl
theorem test_decode_engEq : decode 0x0003000A = .ok (.engEq 3) := rfl
theorem test_decode_smxSeed : decode 0xFFFF0040 = .ok (.smxSeed 65535) := rfl
theorem test_decode_smxGen : decode 0x00060041 = .ok (.smxGen 6) := rfl
theorem test_decode_smxParam : decode 0x00000042 = .ok .smxParam := rfl
theorem test_decode_hshH64 : decode 0x00000080 = .ok .hshH64 := rfl
theorem test_decode_hshH32 : decode 0x00000081 = .ok .hshH32 := rfl
theorem test_decode_ctlNop : decode 0x000000C0 = .ok .ctlNop := rfl
theorem test_decode_ctlClrerr : decode 0x000000C1 = .ok .ctlClrerr := rfl
theorem test_decode_ctlReset : decode 0x000000C2 = .ok .ctlReset := rfl

/-- Illegal values, each for its first reason (95_test_vectors.md 2.8, 30_encoding.md R98). -/
theorem test_decode_illegal :
    decode 0x0B = .error .opcode ∧ decode 0x43 = .error .opcode ∧ decode 0xFF = .error .opcode ∧ decode 0x100 = .error .rsv ∧
      decode 0x000100C0 = .error .len ∧ decode 0x1000000C0 = .error .highBits := ⟨rfl, rfl, rfl, rfl, rfl, rfl⟩

/-- The encoder writes P2's words (95_test_vectors.md). -/
theorem test_encode : encode (.smxSeed 5) = 0x00050040 ∧ encode (.engGen 4) = 0x00040005 ∧ encode .smxParam = 0x42 := ⟨rfl, rfl, rfl⟩

/-! ### WellFormed: an ill-formed term for each check -/

theorem test_wellFormed_len :
    (Instr.engSeedbuf 65536).wellFormed = false ∧ (Instr.engGen 65536).wellFormed = false ∧ (Instr.engLoad 65536).wellFormed = false ∧
      (Instr.engEq 65536).wellFormed = false ∧ (Instr.smxSeed 65536).wellFormed = false ∧ (Instr.smxGen 65536).wellFormed = false ∧
      (Instr.smxGen 65535).wellFormed = true := by decide

theorem test_params_cmwcWf :
    ({ params .cmwc with cmwcN := 12 } : Params).cmwcWf = false ∧ ({ params .cmwc with cmwcN := 2 } : Params).cmwcWf = false ∧
      ({ params .cmwc with cmwcN := 8192 } : Params).cmwcWf = false ∧ ({ params .cmwc with cmwcCmax := 0 } : Params).cmwcWf = false ∧
      ({ params .cmwc with cmwcCmax := 4294967297 } : Params).cmwcWf = false ∧ (params .cmwc).cmwcWf = true := by decide +kernel

theorem test_params_sizesWf :
    ({ params .xsh1024s with bufWords := 15 } : Params).sizesWf = false ∧ ({ params .xsh128p with smxCount := 8193 } : Params).sizesWf = false ∧
      ({ params .xsh128p with bufWords := 65536 } : Params).sizesWf = false ∧ ({ params .xsh128p with smxCount := 0 } : Params).sizesWf = false ∧
      ({ params .xsh128p with defaultSeed := 0 } : Params).sizesWf = false ∧ (params .xsh1024s).sizesWf = true := by decide +kernel

theorem test_params_multsWf :
    ({ params .cmwc with h64Mult := 2 } : Params).multsWf = false ∧ ({ params .cmwc with h32Mult := 2 } : Params).multsWf = false ∧
      ({ params .cmwc with golden := 2 } : Params).multsWf = false ∧ ({ params .cmwc with mShixo := 2 } : Params).multsWf = false ∧
      ({ params .cmwc with smxMultA := 2 } : Params).multsWf = false ∧ ({ params .cmwc with smxMultB := 2 } : Params).multsWf = false ∧
      ({ params .cmwc with smxMixL := 2 } : Params).multsWf = false ∧ ({ params .cmwc with smxMixR := 2 } : Params).multsWf = false ∧
      ({ params .cmwc with smxXshift := 15 } : Params).multsWf = false ∧ (params .cmwc).multsWf = true := by decide +kernel

theorem test_params_xshWf :
    ({ params .cmwc with xsh128A := 0 } : Params).xshWf = false ∧ ({ params .cmwc with xsh128B := 64 } : Params).xshWf = false ∧
      ({ params .cmwc with xsh128C := 0 } : Params).xshWf = false ∧ ({ params .cmwc with xsh1024A := 64 } : Params).xshWf = false ∧
      ({ params .cmwc with xsh1024B := 0 } : Params).xshWf = false ∧ ({ params .cmwc with xsh1024C := 64 } : Params).xshWf = false ∧
      ({ params .cmwc with xrsrJump := [1] } : Params).xshWf = false ∧ ({ params .cmwc with xsh128Jump := [] } : Params).xshWf = false ∧
      ({ params .cmwc with xsh1024Jump := [1] } : Params).xshWf = false ∧ (params .cmwc).xshWf = true := by decide +kernel

/-! ### One step of each command (expected values: 95_test_vectors.md, section named) -/

/-- 2.1 -/
theorem test_hshH64 : result (exec .hshH64 { inst .cmwc with arg0 := 0x0123456789ABCDEF }) = some 0x3EFDEA49C590F4EC := by decide +kernel

/-- 2.1: bits 63:32 of ARG0 are ignored. -/
theorem test_hshH32 : result (exec .hshH32 { inst .cmwc with arg0 := 0xFFFFFFFF00000001 }) = some 0x31251BA7 := by decide +kernel

/-- 2.2: LEN > COUNT; and bits 63:32 of a BUF word are ignored. -/
theorem test_smxSeed :
    pool (exec (.smxSeed 5) (withBufWords .xrsr128p [1, 2, 3, 4, 5])) = some [0x1972E474, 0x97FBC94D, 0x60E1C8E9, 0xB35D9559] ∧
      pool (exec (.smxSeed 4) (withBufWords .xrsr128p [0x100000001, 2, 3, 4])) = some [0x85F1460B, 0x2D16026D, 0xCF8EFCD9, 0x95E48D0D] := by
  decide +kernel

/-- 2.2: LEN = 0, and COUNT = 1 and 2 with their stir round. -/
theorem test_smxSeed_counts :
    pool (exec (.smxSeed 0) (inst .xrsr128p)) = some [0xFE40EB07, 0x4F363A36, 0x4EB2009D, 0xC89A7AA7] ∧
      absorb { params .cmwc with smxCount := 1 } [7] = [0x87304D02] ∧
      absorb { params .cmwc with smxCount := 2 } [1, 2] = [0x4042DA9C, 0xA2D5D0E4] := by decide +kernel

/-- The same vectors through `absorbAfter`: a word past COUNT, and the stir round. -/
theorem test_absorbAfter :
    absorbAfter (params .cmwc) [1, 2, 3, 4, 5] (absorbCalls (params .cmwc) 5) = [0x1972E474, 0x97FBC94D, 0x60E1C8E9, 0xB35D9559] ∧
      absorbAfter { params .cmwc with smxCount := 2 } [1, 2] (absorbCalls { params .cmwc with smxCount := 2 } 2) = [0x4042DA9C, 0xA2D5D0E4] := by
  decide +kernel

/-- An all-zero complementary state with N = 4, by hand from R161: N outputs of 0xFFFFFFFE, then 18781 (log 29). -/
theorem test_cmwc_allZero :
    (engineGen (params4 true) 5 (Engine.initial (params4 true))).1 = [0xFFFFFFFE, 0xFFFFFFFE, 0xFFFFFFFE, 0xFFFFFFFE, 0x495D] := by
  decide +kernel

/-- 2.2: six words from a pool of four. -/
theorem test_smxGen :
    words 6 (exec (.smxGen 6) (mixed .xrsr128p [0x85F1460B, 0x2D16026D, 0xCF8EFCD9, 0x95E48D0D])) =
      some [some 0xFD6DFF8B, some 0xD4A801EC, some 0x18A0C9DC, some 0x0FC9D615, some 0x6C8E0218, some 0xF49DC889] := by decide +kernel

/-- 2.2: Param of a pool seeded with five words. -/
theorem test_smxParam :
    words 4 (exec .smxParam (mixed .xrsr128p [0x1972E474, 0x97FBC94D, 0x60E1C8E9, 0xB35D9559])) =
      some [some 0x64929EE3, some 0xFAA13A1E, some 0xE6AE67B1, some 0xBD6A5CD4] := by decide +kernel

/-- 2.4, 2.6: ENG.SEED 0. -/
theorem test_engSeed :
    image (exec .engSeed (inst .xrsr128p)) = some [0x2BE88057361E08F1, 0x5C77F182F6D2AF0B] ∧
      image (exec .engSeed (inst .xsh128p)) = some [0x5DC1F2770557EA4B, 0x81B56526AEE00B22] := by decide +kernel

/-- 2.6: ENG.SEED 0 on XSH1024S. -/
theorem test_engSeed_1024 :
    (image (exec .engSeed (inst .xsh1024s))).map (·.take 2) = some [0xBB0AE245B78E7DA9, 0x0302506F7326BC6B] := by decide +kernel

/-- 2.4: Expand(1, 2); and ENG.SEEDDEF with DEFAULT_SEED = 1 warms those words up (70_reset_and_hazards.md R313). -/
theorem test_engSeeddef :
    expand (params .xrsr128p) 1 2 = [0x68CB58C58E88561B, 0xCE9987A8598840F3] ∧
      image (exec .engSeeddef (inst .xrsr128p)) = image (exec .engSeed { inst .xrsr128p with arg0 := 1 }) := by decide +kernel

/-- 2.4: SMX.SEED of [1, 2, 3, 4] before. -/
theorem test_engSeedmix :
    image (exec .engSeedmix (mixed .xrsr128p [0x85F1460B, 0x2D16026D, 0xCF8EFCD9, 0x95E48D0D])) =
      some [0xCD6DB3CB41C0A4C4, 0xC70859A7533B6A9A] := by decide +kernel

/-- 2.4: [5, 0]; and [0, 0] gives the ENG.SEED 0 image. -/
theorem test_engSeedbuf :
    image (exec (.engSeedbuf 2) (withBufWords .xrsr128p [5, 0])) = some [0x329875331693AC53, 0xB6C933F8F3A8C269] ∧
      image (exec (.engSeedbuf 2) (withBufWords .xrsr128p [0, 0])) = some [0x2BE88057361E08F1, 0x5C77F182F6D2AF0B] := by decide +kernel

/-- 2.4: the first output after ENG.SEED 0, per output function. -/
theorem test_engNext_xoroshiro :
    result (exec .engNext (seeded2 .xrsr128p 0x2BE88057361E08F1 0x5C77F182F6D2AF0B)) = some 0x886071DA2CF0B7FC ∧
      result (exec .engNext (seeded2 .xrsr128ps 0x2BE88057361E08F1 0x5C77F182F6D2AF0B)) = some 0x886071DAA490C626 ∧
      result (exec .engNext (seeded2 .xrsr128pss 0x2BE88057361E08F1 0x5C77F182F6D2AF0B)) = some 0x959379C79A2B55D2 ∧
      result (exec .engNext (seeded2 .xrsr128psss 0x2BE88057361E08F1 0x5C77F182F6D2AF0B)) = some 0x959379C70FB82C15 ∧
      image (exec .engNext (seeded2 .xrsr128p 1 2)) = some [0x008000000000C003, 0x0000003000000000] := by decide +kernel

/-- 2.6, 2.3: the other three kinds; the CMWC corner case (c). -/
theorem test_engNext_others :
    result (exec .engNext (seeded2 .xsh128p 0x5DC1F2770557EA4B 0x81B56526AEE00B22)) = some 0xDF77579DB437F56D ∧
      result (exec .engNext (seeded16 [1, 2, 3, 4, 5, 6, 7, 8, 9, 10, 11, 12, 13, 14, 15, 16] 0)) = some 0xC0562E31B467F91F ∧
      result (exec .engNext (seeded4 true [0xFFFFFFFF, 0xFFFFFFFF, 0xFFFFFFFF, 0xFFFFFFFF] 0xFFFFFFFF)) = some 0xFFFFFFFF := by decide +kernel

/-- 2.3: three outputs of each all-ones row (no Q word is read twice, so N = 4 gives the table's values). -/
theorem test_engGen_cmwc :
    words 3 (exec (.engGen 3) (seeded4 true [0xFFFFFFFF, 0xFFFFFFFF, 0xFFFFFFFF, 0xFFFFFFFF] 0xFFFFFFFF)) =
        some [some 0xFFFFFFFF, some 0xFFFFB6A0, some 0xFFFFB6A0] ∧
      words 3 (exec (.engGen 3) (seeded4 false [0xFFFFFFFF, 0xFFFFFFFF, 0xFFFFFFFF, 0xFFFFFFFF] 0)) =
        some [some 0xFFFFFFFF, some 0x0000495D, some 0x0000495E] ∧
      words 3 (exec (.engGen 3) (seeded4 true [0xFFFFFFFF, 0xFFFFFFFF, 0xFFFFFFFF, 0xFFFFFFFF] 1)) =
        some [some 0xFFFFFFFD, some 0xFFFFB6A0, some 0xFFFFB6A0] := by decide +kernel

/-- 2.4, 2.6: three outputs from [1, 2]. -/
theorem test_engGen_64 :
    words 3 (exec (.engGen 3) (seeded2 .xsh128p 1 2)) = some [some 0x3, some 0x800025, some 0x2040083] ∧
      words 3 (exec (.engGen 3) (seeded2 .xrsr128psss 1 2)) =
        some [some 0x84BAFC29B7B70490, some 0xE607C40E4D9C0047, some 0xA964B7F8E857C641] := by decide +kernel

/-- 2.4: three advances of [1, 2]; ARG0 = 0 changes nothing. -/
theorem test_engDiscard :
    image (exec .engDiscard { seeded2 .xrsr128p 1 2 with arg0 := 3 }) = some [0x2080C82020C0C363, 0x8000363010040003] ∧
      image (exec .engDiscard (seeded2 .xrsr128p 1 2)) = some [1, 2] := by decide +kernel

/-- 2.5: two jumps of XRSR128P, one of XSH128P. -/
theorem test_engJump :
    image (exec .engJump { seeded2 .xrsr128p 1 2 with arg0 := 2 }) = some [0xD465AD462E23C0C9, 0xDCEA6EAB7A6D8477] ∧
      image (exec .engJump { seeded2 .xsh128p 1 2 with arg0 := 1 }) = some [0xDF64846A19FBE8EA, 0x57EB0217359B17BF] := by decide +kernel

/-- 2.5: one jump of XSH1024S; the cursor ends at 0. -/
theorem test_engJump_1024 :
    (image (exec .engJump { seeded16 [1, 2, 3, 4, 5, 6, 7, 8, 9, 10, 11, 12, 13, 14, 15, 16] 0 with arg0 := 1 })).map (·.take 3) =
      some [0x759BA80B5A39FC27, 0x6A48DB8209C3AA8E, 0x82D34EFA8D6BFB07] := by decide +kernel

/-- 2.6: the image starts at S[P] and wraps. -/
theorem test_engSave :
    words 16 (exec .engSave (seeded16 [1, 0x100200003, 0x80100004, 4, 5, 6, 7, 8, 9, 10, 11, 12, 13, 14, 15, 16] 2)) =
      some [some 0x80100004, some 4, some 5, some 6, some 7, some 8, some 9, some 10, some 11, some 12, some 13, some 14, some 15, some 16,
        some 1, some 0x100200003] := by decide +kernel

/-- 42_cmwc.md R171: Q from the cursor, wrapped, then the carry; RESULT is the length. -/
theorem test_engSave_cmwc :
    words 5 (exec .engSave { seeded4 true [10, 11, 12, 13] 7 with eng := { (seeded4 true [10, 11, 12, 13] 7).eng with cur := 3 } }) =
        some [some 13, some 10, some 11, some 12, some 7] ∧
      result (exec .engSave (seeded4 true [10, 11, 12, 13] 7)) = some 5 := by decide +kernel

/-- 2.4, 2.8: ENG.LOAD installs with no warm-up; all zero and CMWC words of 2^32 are bad values. -/
theorem test_engLoad :
    image (exec (.engLoad 2) (withBufWords .xrsr128p [1, 2])) = some [1, 2] ∧
      status (exec (.engLoad 2) (withBufWords .xrsr128p [0, 0])) = some 0x710 ∧
      status (exec (.engLoad 5) { seeded4 true [0, 0, 0, 0] 0 with buf := Memory.writeWords [] 0 [1, 2, 0x100000000, 4, 5], seeded := false }) =
        some 0x710 := by decide +kernel

/-- 2.7: ENG.EQ 2 with equal words and with one word changed. -/
theorem test_engEq :
    result (exec (.engEq 2) { seeded2 .xrsr128p 1 2 with buf := Memory.writeWords [] 0 [1, 2] }) = some 1 ∧
      result (exec (.engEq 2) { seeded2 .xrsr128p 1 2 with buf := Memory.writeWords [] 0 [1, 0], result := 1 }) = some 0 := by decide +kernel

/-- 2.8: CTL.NOP on STATUS 0x412, CTL.CLRERR on 0x41A, CTL.RESET on 0x016. -/
theorem test_ctl :
    status (exec .ctlNop { seeded2 .xrsr128p 1 2 with errseen := true, err := .unseeded }) = some 0x012 ∧
      status (exec .ctlClrerr { seeded2 .xrsr128p 1 2 with errseen := true, ovr := true, err := .unseeded }) = some 0x002 ∧
      status (exec .ctlReset { seeded2 .xrsr128p 1 2 with mixfull := true, errseen := true, buf := Memory.writeWords [] 0 [9] }) = some 0 ∧
      words 1 (exec .ctlReset { inst .xrsr128p with buf := Memory.writeWords [] 0 [9] }) = some [some 9] := by decide +kernel

/-- 2.8: the error rows from power-on, by command word. -/
theorem test_errors :
    status (step ((inst .xrsr128p).withFetchWord 32 0x0000000B)) = some 0x110 ∧
      status (step ((inst .xrsr128p).withFetchWord 32 0x20010005)) = some 0x210 ∧
      status (step ((inst .cmwc).withFetchWord 32 0x00000007)) = some 0x310 ∧
      status (step ((inst .xrsr128p).withFetchWord 32 0x00000004)) = some 0x410 ∧
      status (step ((inst .xrsr128p).withFetchWord 32 0x0003000A)) = some 0x410 ∧
      status (step ((inst .xrsr128p).withFetchWord 32 0x00000002)) = some 0x510 ∧
      status (step ((inst .xrsr128p).withFetchWord 32 0x00000041)) = some 0x510 ∧
      status (step ((inst .xsh1024s).withFetchWord 32 0x000F0003)) = some 0x610 ∧
      status (step ((inst .cmwc).withFetchWord 32 0x10000003)) = some 0x610 ∧
      status (step ((inst .xrsr128p).withFetchWord 32 0x00030009)) = some 0x210 := by decide +kernel

/-! ### The host's side -/

/-- A CMD write while BUSY = 1 takes STATUS from 0x003 to 0x00B (2.8). -/
theorem test_ovr :
    statusWord { seeded2 .xrsr128p 1 2 with pending := some 4 } = 0x003 ∧
      status (step { seeded2 .xrsr128p 1 2 with pending := some 4, actions := [hostC (params .xrsr128p) .ctlNop] }) = some 0x00B := by
  decide +kernel

/-- CONFIG of the reference CMWC instance: OUTW 32, COUNT 4, LOG2N 12, COMPL 1, KIND 0 (10_state.md R41). -/
theorem test_config :
    lastRead (step { inst .cmwc with actions := [hostR (params .cmwc) 0x20] }) = some (some (0x1020, 0x20040C10)) := by decide +kernel

/-- P1's first two lines and the assembler of 30_encoding.md R100 (`ENG.GEN 16` = 0x00100005), in either case of the letters. -/
theorem test_assemble :
    (assemble "ENG.GEN 16").map encode = some 0x00100005 ∧ assemble "eng.load 0x1001" = some (.engLoad 4097) ∧ assemble "CTL.NOP" = some .ctlNop ∧
      assemble "CTL.NOP 1" = none ∧ assemble "ENG.GEN" = none ∧ assemble "ENG.GEN 65536" = none := by decide +kernel

/-- 2.7: the image [1, 2] serializes as `1 2` and a line feed, and reads back; too few tokens fail. -/
theorem test_record :
    renderRecord [1, 2] = "1 2\n".toList ∧ parseRecord 2 "1 2\n".toList = some [1, 2] ∧ parseRecord 2 "1\n".toList = none ∧
      parseRecord 1 "18446744073709551616".toList = none ∧ parseRecord 1 "1x".toList = none ∧
      parseRecord 4 ['1', '\x0b', '2', '\x0c', '3', '\t', '4', '\r'] = some [1, 2, 3, 4] := by decide +kernel

/-- The raw byte stream in either byte order (00_scope.md R17). -/
theorem test_stream :
    streamBytes (params .cmwc) 4 0x11223344 = [0x44, 0x33, 0x22, 0x11] ∧
      streamBytes { params .cmwc with hostByteOrder := .big } 4 0x11223344 = [0x11, 0x22, 0x33, 0x44] := by decide +kernel

/-! ### Witnesses: for every obligation with hypotheses, concrete cases that meet them all -/

theorem params_wf (k : Kind) : (params k).wf = true := Config.referenceWith_wf k .little _ (by decide)

theorem params4_wf : (params4 true).wf = true := by decide +kernel

/-- A state of legal parameters whose BUF was written from empty meets the invariant. -/
theorem inv_of {s : State} (hwf : s.params.wf = true) (ws : List U64) (hl : ws.length ≤ s.params.bufWords) (hb : s.buf = Memory.writeWords [] 0 ws)
    (he : s.eng.shaped s.params) (hp : s.pool.length = s.params.smxCount) : s.Inv := by
  refine ⟨hwf, ?_, ?_, ?_, he, hp⟩
  · rw [hb]; exact Memory.writeWords_wf Memory.nil_wf 0 ws
  · rw [hb]; exact Memory.within_writeWords (by simp [Memory.within]) (by omega)
  · rw [hb]; exact Memory.wholeEntries_writeWords Memory.nil_wf Memory.nil_wholeEntries 0 ws

theorem seeded2_inv : (seeded2 .xrsr128p 1 2).Inv :=
  inv_of (params_wf _) [] (Nat.zero_le _) rfl ⟨rfl, fun h => absurd h (by decide)⟩ rfl

theorem seeded16_inv : (seeded16 [1] 15).Inv :=
  inv_of (params_wf _) [] (Nat.zero_le _) rfl ⟨rfl, fun h => absurd h (by decide)⟩ rfl

theorem seeded4_inv : (seeded4 true [1, 2, 3, 4] 5).Inv :=
  inv_of params4_wf [] (Nat.zero_le _) rfl ⟨rfl, fun _ => by decide⟩ rfl

theorem mixed_inv : (mixed .xrsr128p [1, 2, 3, 4]).Inv :=
  inv_of (params_wf _) [] (Nat.zero_le _) rfl ⟨rfl, fun h => absurd h (by decide)⟩ rfl

theorem bufHolds_written (s : State) (ws : List U64) (h : s.buf = Memory.writeWords [] 0 ws) : s.bufHolds ws := fun k hk => by
  rw [h, Memory.readWord_writeWords Memory.nil_wf, if_pos (by omega), Nat.sub_zero]

theorem readWord_seven : (withBufWords .cmwc [7]).buf.readWord 0 ≠ none := by
  rw [show (withBufWords .cmwc [7]).buf.readWord 0 = some 7 from Memory.readWord_writeWord_same Memory.nil_wf 0 7]
  simp

theorem witness_DecodeAfterEncode : (Instr.engGen 65535).wellFormed = true ∧ (Instr.engGen 0).wellFormed = true ∧ Instr.ctlNop.wellFormed = true := by
  decide

theorem witness_EncodeAfterDecode : decode 0xFFFF0005 = .ok (.engGen 65535) ∧ decode 0xC2 = .ok .ctlReset := ⟨rfl, rfl⟩

/-- Both ways the host can leave the step to the block. -/
theorem witness_StepRunsDecodedCommand :
    (∃ s : State, s.pending = some 0x00100005 ∧ decode 0x00100005 = .ok (.engGen 16) ∧ s.actions = []) ∧
      ∃ s : State, s.pending = some 0x04 ∧ decode 0x04 = .ok .engNext ∧ s.actions = [.wait] :=
  ⟨⟨{ inst .cmwc with pending := some 0x00100005 }, rfl, rfl, rfl⟩, ⟨{ inst .cmwc with pending := some 0x04, actions := [.wait] }, rfl, rfl, rfl⟩⟩

theorem witness_StepRaisesIllegal :
    (∃ s : State, s.pending = some 0x100000000 ∧ (0x100000000 : U64).toNat / 4294967296 ≠ 0 ∧ s.actions = []) ∧
    (∃ s : State, s.pending = some 0x100 ∧ (0x100 : U64).toNat / 256 % 256 ≠ 0 ∧ s.actions = [.wait]) ∧
    (∃ s : State, s.pending = some 0x0B ∧ decode 0x0B = .error .opcode ∧ s.actions = []) ∧
      ∃ s : State, s.pending = some 0x100C0 ∧ (0x100C0 : U64).toNat % 256 ∉ [0x03, 0x05, 0x09, 0x0A, 0x40, 0x41] ∧
        (0x100C0 : U64).toNat / 65536 % 65536 ≠ 0 ∧ s.actions = [] :=
  ⟨⟨{ inst .cmwc with pending := some 0x100000000 }, rfl, by decide, rfl⟩,
    ⟨{ inst .cmwc with pending := some 0x100, actions := [.wait] }, rfl, by decide, rfl⟩, ⟨{ inst .cmwc with pending := some 0x0B }, rfl, rfl, rfl⟩,
    ⟨{ inst .cmwc with pending := some 0x100C0 }, rfl, by decide, by decide, rfl⟩⟩

theorem witness_IdleBlockDoesNothing :
    (∃ s : State, s.pending = none ∧ s.actions = []) ∧ ∃ s : State, s.pending = none ∧ s.actions = [.wait] :=
  ⟨⟨inst .cmwc, rfl, rfl⟩, ⟨{ inst .cmwc with actions := [.wait] }, rfl, rfl⟩⟩

/-- BUSY rising at a CMD write, falling at a completion and at a power-on reset, and a pending word kept over a host access. -/
theorem witness_BusyLifetime :
    (∃ s t : State, step s = .next t ∧ s.pending = none ∧ t.pending = some 0xC0) ∧
    (∃ s t : State, step s = .next t ∧ s.pending = some 0xC0 ∧ t.pending = none ∧ s.actions = []) ∧
    (∃ s t : State, step s = .next t ∧ s.pending = some 0xC0 ∧ t.pending = none ∧ s.actions = [.powerOn]) ∧
    ∃ s t : State, step s = .next t ∧ s.pending = some 0xC0 ∧ t.pending = some 0xC0 :=
  ⟨⟨{ inst .cmwc with actions := [.access (.write 0x1000 8 0xC0)] }, _, rfl, rfl, rfl⟩, ⟨{ inst .cmwc with pending := some 0xC0 }, _, rfl, rfl, rfl, rfl⟩,
    ⟨{ inst .cmwc with pending := some 0xC0, actions := [.powerOn] }, _, rfl, rfl, rfl, rfl⟩,
    ⟨{ inst .cmwc with pending := some 0xC0, actions := [.access (.read 0x1008 8)] }, _, rfl, rfl, rfl⟩⟩

theorem witness_PowerOnReset : ∃ s : State, s.actions = [.powerOn] ∧ s.pending = some 4 :=
  ⟨{ inst .cmwc with actions := [.powerOn], pending := some 4 }, rfl, rfl⟩

theorem witness_HostReadsChangeNothing :
    (∃ s t : State, s.actions = [.access (.read 0x1008 8)] ∧ step s = .next t) ∧
      ∃ s t : State, s.actions = [.access (.read 0x1018 8)] ∧ s.pending = some 4 ∧ step s = .next t :=
  ⟨⟨{ inst .cmwc with actions := [.access (.read 0x1008 8)] }, _, rfl, rfl⟩,
    ⟨{ inst .cmwc with actions := [.access (.read 0x1018 8)], pending := some 4 }, _, rfl, rfl, rfl⟩⟩

/-- The first and last registers, and RESULT with BUSY = 0. -/
theorem witness_RegistersReadAsMapped :
    ∃ s : State, s.actions = [.access (.read (s.params.base + 0x00) 8)] ∧ ∃ s : State, s.actions = [.access (.read (s.params.base + 0x50) 8)] ∧
      ∃ s : State, s.pending = none ∧ s.actions = [.access (.read (s.params.base + 0x18) 8)] :=
  ⟨{ inst .cmwc with actions := [hostR (params .cmwc) 0x00] }, rfl, { inst .cmwc with actions := [hostR (params .cmwc) 0x50] }, rfl,
    { inst .cmwc with actions := [hostR (params .cmwc) 0x18] }, rfl, rfl⟩

/-- A written entry, and the last entry of the window, never written. -/
theorem witness_BufReadsWhenIdle :
    (∃ s : State, 0 < s.params.bufWords ∧ s.pending = none ∧ s.buf.readWord 0 = some 7 ∧
      s.actions = [.access (.read (s.params.base + 0x10000 + 8 * 0) 8)]) ∧
    ∃ s : State, 8191 < s.params.bufWords ∧ s.pending = none ∧ s.buf.readWord 8191 = none ∧
      s.actions = [.access (.read (s.params.base + 0x10000 + 8 * 8191) 8)] :=
  ⟨⟨{ withBufWords .cmwc [7] with actions := [.access (.read (0x1000 + 0x10000 + 8 * 0) 8)] }, by decide, rfl,
      Memory.readWord_writeWord_same Memory.nil_wf 0 7, rfl⟩,
    ⟨{ inst .cmwc with actions := [.access (.read (0x1000 + 0x10000 + 8 * 8191) 8)] }, by decide, rfl, rfl, rfl⟩⟩

theorem witness_HostWritesStore :
    (∃ s : State, s.pending = none ∧ s.buf.wf ∧ s.actions = [.access (.write (s.params.base + 0x10) 8 5)]) ∧
    ∃ s : State, s.pending = none ∧ s.buf.wf ∧ 8191 < s.params.bufWords ∧ s.actions = [.access (.write (s.params.base + 0x10000 + 8 * 8191) 8 5)] :=
  ⟨⟨{ inst .cmwc with actions := [.access (.write (0x1000 + 0x10) 8 5)] }, rfl, Memory.nil_wf, rfl⟩,
    ⟨{ inst .cmwc with actions := [.access (.write (0x1000 + 0x10000 + 8 * 8191) 8 5)] }, rfl, Memory.nil_wf, by decide, rfl⟩⟩

theorem witness_CmdWriteLatchesOrDrops :
    (∃ s : State, s.actions = [.access (.write s.params.base 8 4)] ∧ s.pending = none) ∧
      ∃ s : State, s.actions = [.access (.write s.params.base 8 4)] ∧ s.pending ≠ none :=
  ⟨⟨{ inst .cmwc with actions := [.access (.write 0x1000 8 4)] }, rfl, rfl⟩,
    ⟨{ inst .cmwc with actions := [.access (.write 0x1000 8 4)], pending := some 4 }, rfl, by simp⟩⟩

/-- The last read-only register; the first reserved offset, the last before BUF, and one past BUF. -/
theorem witness_IgnoredAccesses :
    (∃ s : State, s.actions = [.access (.write (s.params.base + 0x50) 8 1)]) ∧ (∃ s : State, s.actions = [.access (.read s.params.base 8)]) ∧
    (∃ s : State, 0x58 ≤ 0x58 ∧ s.actions = [.access (.write (s.params.base + 0x58) 8 1)]) ∧
    (∃ s : State, 0xFFF8 < 0x10000 ∧ s.actions = [.access (.read (s.params.base + 0xFFF8) 8)]) ∧
    ∃ s : State, 0x10000 + 8 * s.params.bufWords ≤ 0x1FFF8 ∧ s.actions = [.access (.read (s.params.base + 0x1FFF8) 8)] :=
  ⟨⟨{ inst .cmwc with actions := [.access (.write (0x1000 + 0x50) 8 1)] }, rfl⟩, ⟨{ inst .cmwc with actions := [.access (.read 0x1000 8)] }, rfl⟩,
    ⟨{ inst .cmwc with actions := [.access (.write (0x1000 + 0x58) 8 1)] }, by decide, rfl⟩,
    ⟨{ inst .cmwc with actions := [.access (.read (0x1000 + 0xFFF8) 8)] }, by decide, rfl⟩,
    ⟨{ inst .cmwc with params := { params .cmwc with bufWords := 8191 }, actions := [.access (.read (0x1000 + 0x1FFF8) 8)] }, by decide, rfl⟩⟩

theorem witness_BusyWritesFault :
    (∃ s : State, s.pending ≠ none ∧ s.actions = [.access (.write (s.params.base + 0x10) 8 1)]) ∧
      ∃ s : State, s.pending ≠ none ∧ 8191 < s.params.bufWords ∧ s.actions = [.access (.write (s.params.base + (0x10000 + 8 * 8191)) 8 1)] :=
  ⟨⟨{ inst .cmwc with pending := some 4, actions := [.access (.write (0x1000 + 0x10) 8 1)] }, by simp, rfl⟩,
    ⟨{ inst .cmwc with pending := some 4, actions := [.access (.write (0x1000 + (0x10000 + 8 * 8191)) 8 1)] }, by simp, by decide, rfl⟩⟩

theorem witness_BusyReadsAreFree :
    (∃ s : State, s.pending ≠ none ∧ s.actions = [.access (.read (s.params.base + 0x18) 8)]) ∧
      ∃ s : State, s.pending ≠ none ∧ 0 < s.params.bufWords ∧ s.buf.readWord 0 ≠ none ∧
        s.actions = [.access (.read (s.params.base + (0x10000 + 8 * 0)) 8)] :=
  ⟨⟨{ inst .cmwc with pending := some 4, actions := [.access (.read (0x1000 + 0x18) 8)] }, by simp, rfl⟩,
    ⟨{ withBufWords .cmwc [7] with pending := some 4, actions := [.access (.read (0x1000 + (0x10000 + 8 * 0)) 8)] }, by simp, by decide,
      readWord_seven, rfl⟩⟩

theorem witness_UndefinedAccessesRefused :
    (∃ s : State, 4 ≠ 8 ∧ s.actions = [.access (.read (s.params.base + 0x18) 4)]) ∧
      ∃ s : State, 0x1FFFF % 8 ≠ 0 ∧ s.actions = [.access (.write (s.params.base + 0x1FFFF) 8 1)] :=
  ⟨⟨{ inst .cmwc with actions := [.access (.read (0x1000 + 0x18) 4)] }, by decide, rfl⟩,
    ⟨{ inst .cmwc with actions := [.access (.write (0x1000 + 0x1FFFF) 8 1)] }, by decide, rfl⟩⟩

theorem witness_AwaitedResultIsVisible :
    ∃ s t : State, Instr.hshH64.wellFormed = true ∧ s.pending = none ∧ s.actions = hostExec s.params .hshH64 ++ [hostR s.params 0x18] ∧
      exec .hshH64 { s with pending := some (encode .hshH64), actions := [.wait, hostR s.params 0x18] } = .next t :=
  ⟨{ inst .cmwc with actions := hostExec (params .cmwc) .hshH64 ++ [hostR (params .cmwc) 0x18] }, _, rfl, rfl, rfl, rfl⟩

/-- Each check of positions 2-6 failing first. -/
theorem witness_FirstFailedCheckIsRaised :
    firstError (.engGen 8193) (inst .xrsr128p) = .badLength ∧ firstError .engJump (inst .cmwc) = .unsupported ∧
      firstError (.engEq 3) (inst .xrsr128p) = .unseeded ∧ firstError .engSeedmix (inst .xrsr128p) = .mixerEmpty ∧
      firstError (.engSeedbuf 1) (inst .xrsr128p) = .insufficientEntropy ∧ firstError (.engLoad 3) (inst .xrsr128p) = .badLength := by
  decide +kernel

/-- A completion in error and one in success. -/
theorem witness_CompletionIsErrorOrSuccess :
    (∃ s t : State, exec .engNext s = .next t ∧ firstError .engNext s ≠ .ok) ∧
      ∃ s t : State, exec .engNext s = .next t ∧ firstError .engNext s = .ok ∧ s.errseen = true :=
  ⟨⟨inst .xrsr128p, _, rfl, by decide +kernel⟩, ⟨{ seeded2 .xrsr128p 1 2 with errseen := true }, _, rfl, by decide +kernel, rfl⟩⟩

theorem witness_CommandsCompleteOrFaultUnwritten : ∃ s : State, ∀ k, k < (Instr.smxSeed 1).len → (s.buf.readWord k).isSome :=
  ⟨withBufWords .cmwc [7], fun k hk => by
    obtain rfl : k = 0 := by simpa [Instr.len] using hk
    exact Option.isSome_iff_ne_none.mpr readWord_seven⟩

/-- RegisterFrame and EngineAndMixerFrame: a command outside each list of OPCs that completes with success. -/
theorem witness_Frames :
    (∃ s t : State, exec .engDiscard s = .next t ∧ t.err = .ok ∧ ¬ Instr.isOneOf .engDiscard [0x04, 0x08, 0x0A, 0x42, 0x80, 0x81, 0xC2]) ∧
    (∃ s t : State, exec .hshH64 s = .next t ∧ t.err = .ok ∧
      ¬ Instr.isOneOf .hshH64 [0x00, 0x01, 0x02, 0x03, 0x04, 0x05, 0x06, 0x07, 0x09, 0xC2] ∧ ¬ Instr.isOneOf .hshH64 [0x40, 0xC2]) ∧
    ∃ s t : State, exec .engNext s = .next t ∧ t.err = .ok ∧ ¬ Instr.isOneOf .engNext [0x00, 0x01, 0x02, 0x03, 0x09, 0xC2] :=
  ⟨⟨seeded2 .xrsr128p 1 2, _, rfl, rfl, by decide⟩, ⟨inst .cmwc, _, rfl, rfl, by decide, by decide⟩, ⟨seeded2 .xrsr128p 1 2, _, rfl, rfl, by decide⟩⟩

/-- A storing command and one that stores nothing, from states that meet the invariant. -/
theorem witness_StorageFrame :
    (∃ s t : State, s.Inv ∧ exec .engSave s = .next t ∧ storedWords .engSave s = 2) ∧
      ∃ s t : State, s.Inv ∧ exec .engNext s = .next t ∧ storedWords .engNext s = 0 :=
  ⟨⟨seeded2 .xrsr128p 1 2, _, seeded2_inv, rfl, rfl⟩, ⟨seeded2 .xrsr128p 1 2, _, seeded2_inv, rfl, rfl⟩⟩

/-- Each of the eight changes happens in some step. -/
theorem witness_StatusBitsRiseAndFall :
    (∃ s t : State, step s = .next t ∧ s.seeded = true ∧ t.seeded = false ∧ s.mixfull = true ∧ t.mixfull = false ∧ s.ovr = true ∧ t.ovr = false ∧
      s.errseen = true ∧ t.errseen = false) ∧
    (∃ s t : State, step s = .next t ∧ s.seeded = false ∧ t.seeded = true) ∧ (∃ s t : State, step s = .next t ∧ s.mixfull = false ∧ t.mixfull = true) ∧
    (∃ s t : State, step s = .next t ∧ s.ovr = false ∧ t.ovr = true) ∧ ∃ s t : State, step s = .next t ∧ s.errseen = false ∧ t.errseen = true :=
  ⟨⟨{ inst .cmwc with seeded := true, mixfull := true, ovr := true, errseen := true, pending := some 0xC2 }, _, rfl, rfl, rfl, rfl, rfl, rfl, rfl, rfl, rfl⟩,
    ⟨{ inst .xrsr128p with pending := some 1 }, _, rfl, rfl, rfl⟩, ⟨{ inst .xrsr128p with pending := some 0x40 }, _, rfl, rfl, rfl⟩,
    ⟨{ inst .cmwc with pending := some 0xC0, actions := [.access (.write 0x1000 8 0xC0)] }, _, rfl, rfl, rfl⟩,
    ⟨{ inst .cmwc with pending := some 4 }, _, rfl, rfl, rfl⟩⟩

theorem witness_SmxSeedCommand :
    (∃ s : State, ([] : List U64).length ≤ s.params.bufWords ∧ s.bufHolds []) ∧
      ∃ s : State, [1, 2, 3, 4, 5].length ≤ s.params.bufWords ∧ s.bufHolds [1, 2, 3, 4, 5] :=
  ⟨⟨inst .cmwc, by decide, bufHolds_written _ [] rfl⟩, ⟨withBufWords .cmwc [1, 2, 3, 4, 5], by decide, bufHolds_written _ _ rfl⟩⟩

theorem witness_AbsorbPadsWithZeros : ([1, 2, 3] : List U32).length < (params .cmwc).smxCount := by decide

/-- InitialAbsorption's slot 3 of 4 and GenerateWords' word 65534 of 65535. -/
theorem witness_MixerWords : 3 < (params .cmwc).smxCount ∧ 65534 < (Instr.smxGen 65535).len := by decide

/-- LEN = 0 and LEN = BUF_WORDS. -/
theorem witness_SmxGenCommand :
    ∃ s : State, s.buf.wf ∧ s.mixfull = true ∧ 0 ≤ s.params.bufWords ∧ 8192 ≤ s.params.bufWords :=
  ⟨mixed .cmwc [1, 2, 3, 4], Memory.nil_wf, rfl, by decide, by decide⟩

theorem witness_SmxParamCommand : ∃ s : State, s.Inv ∧ s.mixfull = true := ⟨mixed .xrsr128p [1, 2, 3, 4], mixed_inv, rfl⟩

/-- ParamReproducesPool and ParamRecoversWords, for COUNT = 4 and for COUNT = 1. -/
theorem witness_Param :
    (∃ (c : Params) (l : List U32), c.wf = true ∧ isOdd c.smxInitA = true ∧ l.length = c.smxCount) ∧
      ∃ (c : Params) (l : List U32), c.wf = true ∧ isOdd c.smxInitA = true ∧ l.length = c.smxCount ∧ c.smxCount = 1 :=
  ⟨⟨params .cmwc, [1, 2, 3, 4], params_wf _, by decide, rfl⟩,
    ⟨{ params .cmwc with smxCount := 1 }, [7], by decide +kernel, by decide, rfl, rfl⟩⟩

/-- CMWC, a two-word kind (not all zero, and all zero) and XSH1024S; LEN above STATE_WORDS. -/
theorem witness_SeedbufCommand :
    (∃ (s : State) (ws : List U64), 5 ≤ s.params.bufWords ∧ s.params.stateWords ≤ 5 ∧ ws.length = s.params.stateWords ∧ s.bufHolds ws ∧
      s.params.kind = .cmwc) ∧
    (∃ (s : State) (ws : List U64), 3 ≤ s.params.bufWords ∧ s.params.stateWords ≤ 3 ∧ ws.length = s.params.stateWords ∧ s.bufHolds ws ∧ 0 ∉ ws) ∧
    (∃ (s : State) (ws : List U64), 2 ≤ s.params.bufWords ∧ s.params.stateWords ≤ 2 ∧ ws.length = s.params.stateWords ∧ s.bufHolds ws ∧ ws = [0, 0]) ∧
    ∃ (s : State) (ws : List U64), 16 ≤ s.params.bufWords ∧ s.params.stateWords ≤ 16 ∧ ws.length = s.params.stateWords ∧ s.bufHolds ws :=
  ⟨⟨{ State.powerOnOf (params4 true) with buf := Memory.writeWords [] 0 [1, 2, 3, 4, 5] }, [1, 2, 3, 4, 5], by decide, by decide, rfl,
      bufHolds_written _ _ rfl, rfl⟩,
    ⟨withBufWords .xrsr128p [5, 6], [5, 6], by decide, by decide, rfl, bufHolds_written _ _ rfl, by decide⟩,
    ⟨withBufWords .xrsr128p [0, 0], [0, 0], by decide, by decide, rfl, bufHolds_written _ _ rfl, rfl⟩,
    ⟨withBufWords .xsh1024s (List.replicate 16 3), List.replicate 16 3, by decide, by decide, rfl, bufHolds_written _ _ rfl⟩⟩

theorem witness_SeedmixCommand : ∃ s : State, s.mixfull = true := ⟨mixed .xrsr128p [1, 2, 3, 4], rfl⟩

/-- HashesAreBijections and ExpandNeverAllZero, the latter at W = 2. -/
theorem witness_legal : ∃ (c : Params) (w : Nat), c.wf = true ∧ 2 ≤ w ∧ w = 2 := ⟨params .xrsr128p, 2, params_wf _, by decide, rfl⟩

theorem witness_SeedingNeverLeavesZero :
    (∃ s t : State, s.params.wf = true ∧ s.params.kind ≠ .cmwc ∧ Instr.isOneOf .engSeed [0x00, 0x01, 0x02, 0x03, 0x09] ∧
      exec .engSeed s = .next t ∧ t.err = .ok) ∧
    ∃ s t : State, s.params.wf = true ∧ s.params.kind ≠ .cmwc ∧ Instr.isOneOf .engSeedmix [0x00, 0x01, 0x02, 0x03, 0x09] ∧
      exec .engSeedmix s = .next t ∧ t.err = .ok :=
  ⟨⟨inst .xsh1024s, _, params_wf _, by decide, by decide, rfl, rfl⟩, ⟨mixed .xsh128p [1, 2, 3, 4], _, params_wf _, by decide, by decide, rfl, rfl⟩⟩

/-- CmwcNextCommand; CarryBound with both of its premises, A below 2^32 and below CMAX. -/
theorem witness_Cmwc :
    ∃ s : State, s.params.wf = true ∧ s.params.kind = .cmwc ∧ s.seeded = true ∧ s.params.cmwcA.toNat < 2 ^ 32 ∧
      s.params.cmwcA.toNat < s.params.cmwcCmax :=
  ⟨seeded4 true [1, 2, 3, 4] 5, params4_wf, rfl, rfl, by decide, by decide⟩

/-- Each kind 1-6 seeded: the three ENG.NEXT statements. -/
theorem witness_NextCommands :
    (seeded2 .xrsr128p 1 2).seeded = true ∧ (seeded2 .xrsr128p 1 2).params.kind = .xrsr128p ∧ (seeded2 .xrsr128ps 1 2).params.kind = .xrsr128ps ∧
      (seeded2 .xrsr128pss 1 2).params.kind = .xrsr128pss ∧ (seeded2 .xrsr128psss 1 2).params.kind = .xrsr128psss ∧
      (seeded2 .xsh128p 1 2).params.kind = .xsh128p ∧ (seeded16 [1] 15).params.kind = .xsh1024s ∧ (seeded16 [1] 15).seeded = true :=
  ⟨rfl, rfl, rfl, rfl, rfl, rfl, rfl, rfl⟩

theorem next_not_jump : ∀ v, some (4 : U64) = some v → decode v ≠ .ok .engJump := by
  intro v h
  obtain rfl := Option.some.inj h
  rw [test_decode_engNext]
  simp

theorem witness_NonzeroKeptByEveryStepButJump :
    ∃ s t : State, s.params.wf = true ∧ s.NonzeroInv ∧ (∀ v, s.pending = some v → decode v ≠ .ok .engJump) ∧ step s = .next t ∧ s.seeded = true ∧
      s.params.kind ≠ .cmwc :=
  ⟨{ seeded2 .xrsr128p 1 2 with pending := some 4 }, _, params_wf _, fun _ _ => (by decide : _ = false),
    next_not_jump, rfl, rfl, by decide⟩

/-- JumpSumsImages and both clauses of JumpCommand. -/
theorem witness_Jump :
    (∃ s : State, s.params.kind ≠ .cmwc ∧ s.seeded = true) ∧ (∃ s : State, s.params.kind = .cmwc) ∧ ∃ c : Params, c.kind = .xsh1024s :=
  ⟨⟨seeded2 .xrsr128p 1 2, by decide, rfl⟩, ⟨inst .cmwc, rfl⟩, ⟨params .xsh1024s, rfl⟩⟩

/-- GenIsRepeatedNext at LEN = 0 and LEN = BUF_WORDS; DiscardThenNext at ARG0 = 0 and 2^64 - 1. -/
theorem witness_GenDiscard :
    (∃ s : State, s.buf.wf ∧ s.seeded = true ∧ 0 ≤ s.params.bufWords ∧ 8192 ≤ s.params.bufWords) ∧
      (∃ s : State, s.seeded = true ∧ s.arg0 = 0) ∧ ∃ s : State, s.seeded = true ∧ s.arg0 = 0xFFFFFFFFFFFFFFFF :=
  ⟨⟨seeded2 .xrsr128p 1 2, Memory.nil_wf, rfl, by decide, by decide⟩, ⟨seeded2 .xrsr128p 1 2, rfl, rfl⟩,
    ⟨{ seeded2 .xrsr128p 1 2 with arg0 := 0xFFFFFFFFFFFFFFFF }, rfl, rfl⟩⟩

/-- SaveCommand for CMWC, a two-word kind and XSH1024S with its cursor at the end. -/
theorem witness_SaveCommand :
    (∃ s : State, s.Inv ∧ s.seeded = true ∧ s.params.kind = .cmwc) ∧ (∃ s : State, s.Inv ∧ s.seeded = true ∧ s.params.kind = .xrsr128p) ∧
      ∃ s : State, s.Inv ∧ s.seeded = true ∧ s.params.kind = .xsh1024s :=
  ⟨⟨_, seeded4_inv, rfl, rfl⟩, ⟨_, seeded2_inv, rfl, rfl⟩, ⟨_, seeded16_inv, rfl, rfl⟩⟩

/-- Bad and good images, CMWC and not; the CMWC words at 2^32 - 1 and 2^32. -/
theorem witness_LoadChecksValues :
    (∃ (s : State) (ws : List U64), ws.length = s.params.stateWords ∧ ws.length ≤ s.params.bufWords ∧ s.bufHolds ws ∧ s.params.kind = .cmwc ∧
      ∀ w ∈ ws, w.toNat < 2 ^ 32) ∧
    (∃ (s : State) (ws : List U64), ws.length = s.params.stateWords ∧ ws.length ≤ s.params.bufWords ∧ s.bufHolds ws ∧ s.params.kind = .cmwc ∧
      ∃ w ∈ ws, 2 ^ 32 ≤ w.toNat) ∧
    (∃ (s : State) (ws : List U64), ws.length = s.params.stateWords ∧ ws.length ≤ s.params.bufWords ∧ s.bufHolds ws ∧ s.params.kind ≠ .cmwc ∧
      ∀ w ∈ ws, w = 0) ∧
    ∃ (s : State) (ws : List U64), ws.length = s.params.stateWords ∧ ws.length ≤ s.params.bufWords ∧ s.bufHolds ws ∧ s.params.kind ≠ .cmwc ∧
      ¬ ∀ w ∈ ws, w = 0 :=
  ⟨⟨{ State.powerOnOf (params4 true) with buf := Memory.writeWords [] 0 [1, 2, 3, 4, 0xFFFFFFFF] }, [1, 2, 3, 4, 0xFFFFFFFF], rfl, by decide,
      bufHolds_written _ _ rfl, rfl, by simp⟩,
    ⟨{ State.powerOnOf (params4 true) with buf := Memory.writeWords [] 0 [1, 2, 3, 4, 0x100000000] }, [1, 2, 3, 4, 0x100000000], rfl, by decide,
      bufHolds_written _ _ rfl, rfl, by simp⟩,
    ⟨withBufWords .xrsr128p [0, 0], [0, 0], rfl, by decide, bufHolds_written _ _ rfl, by decide, by simp⟩,
    ⟨withBufWords .xrsr128p [0, 1], [0, 1], rfl, by decide, bufHolds_written _ _ rfl, by decide, by simp⟩⟩

theorem witness_EqComparesImages :
    ∃ (s : State) (ws : List U64), s.Inv ∧ s.seeded = true ∧ ws.length = s.params.stateWords ∧ s.bufHolds ws :=
  ⟨{ seeded2 .xrsr128p 1 2 with buf := Memory.writeWords [] 0 [1, 2] }, [1, 2],
    inv_of (params_wf _) [1, 2] (by decide) rfl ⟨rfl, fun h => absurd h (by decide)⟩ rfl, rfl, rfl, bufHolds_written _ _ rfl⟩

/-- The second engine's BUF is the first one's after the save. -/
theorem witness_SaveThenLoadResumes :
    ∃ s₁ s₂ t₁ : State, s₁.Inv ∧ s₁.NonzeroInv ∧ s₁.seeded = true ∧ s₂.params = s₁.params ∧ exec .engSave s₁ = .next t₁ ∧
      ∀ k, k < s₁.params.stateWords → s₂.buf.readWord k = t₁.buf.readWord k :=
  ⟨seeded2 .xrsr128p 1 2, { inst .xrsr128p with buf := Memory.writeWords [] 0 [1, 2] }, _, seeded2_inv, fun _ _ => (by decide : _ = false), rfl, rfl,
    rfl, fun _ _ => rfl⟩

/-- Two different CMWC engines with one image: the second is the first, rotated. -/
theorem witness_ImageDeterminesFuture :
    ∃ e₁ e₂ : Engine, (params4 true).wf = true ∧ e₁.shaped (params4 true) ∧ e₂.shaped (params4 true) ∧
      engineImage (params4 true) e₁ = engineImage (params4 true) e₂ ∧ e₁ ≠ e₂ :=
  ⟨{ Engine.initial (params4 true) with q := [1, 2, 3, 4] }, { Engine.initial (params4 true) with q := [4, 1, 2, 3], cur := 1 }, params4_wf,
    ⟨rfl, fun _ => by decide⟩, ⟨rfl, fun _ => by decide⟩, by decide +kernel, by decide +kernel⟩

theorem witness_InvariantKeptByEveryStep : ∃ s t : State, s.Inv ∧ step s = .next t ∧ s.seeded = true :=
  ⟨seeded4 true [1, 2, 3, 4] 5, _, seeded4_inv, rfl, rfl⟩

end Sys2Proof.Tests
end

section
/-! PROOFS. What a step can do, said once: how a command completes (an inductive predicate with one constructor for each way), and which
fields a host access leaves alone. -/

namespace Sys2Proof.Machine

/-! ### How a command completes -/

/-- The engines that the five seeding commands install (44_engine_commands.md R232-R235, R241). -/
inductive Installs (s : State) : Engine → Prop
  | scalar (v : U64) : Installs s (seedScalar s.params v s.eng)
  | mixer : Installs s (seedMixer s.params s.pool s.eng)
  | words (ws : List U64) (hl : ws.length = s.params.stateWords) : Installs s (seedWords s.params ws s.eng)
  | image (ws : List U64) (hl : ws.length = s.params.stateWords) (hgood : badImage s.params ws = false) :
      Installs s (engineLoad s.params ws s.eng)

/-- The engines that the other commands leave: the one before after some number of outputs (none for most of them), or after a jump
(44_engine_commands.md R236-R239). -/
inductive Runs (i : Instr) (s : State) : Engine → Prop
  | advanced (n : Nat) : Runs i s ((fun e => (engineNext s.params e).2)^[n] s.eng)
  | jumped (z : Nat) (hi : i = .engJump) : Runs i s (xJump s.params z s.eng)

/-- The ways in which a command completes: in error (60_exceptions.md R290), or with success (R291) and the effect of its class. -/
inductive Completes (i : Instr) (s : State) : State → Prop
  | raised (e : ErrCode) (he : e ≠ .ok) : Completes i s (s.raise e)
  | installed (e : Engine) (hi : i.opc ∈ [0x00, 0x01, 0x02, 0x03, 0x09]) (he : Installs s e) :
      Completes i s (s.installEngine e).succeed
  | ran (e : Engine) (b : Memory) (r : U64) (hi : i.opc ∈ [0x04, 0x05, 0x06, 0x07, 0x08, 0x0A, 0x41, 0x42, 0x80, 0x81, 0xC0])
      (he : Runs i s e) (hr : i.opc ∉ [0x04, 0x08, 0x0A, 0x42, 0x80, 0x81, 0xC2] → r = s.result) :
      Completes i s { s with eng := e, buf := b, result := r }.succeed
  | absorbed (p : List U32) (hi : i.opc ∈ [0x40]) : Completes i s { s with pool := p, mixfull := true }.succeed
  | cleared (hi : i = .ctlClrerr) : Completes i s { s with ovr := false, errseen := false }.succeed
  | reset (hi : i = .ctlReset) : Completes i s s.resetKeepingBuf.succeed

/-- An error state is a completion. -/
theorem Raises.completes {i : Instr} {s t : State} (h : Raises s t) : Completes i s t := by
  obtain ⟨e, he, rfl⟩ := h
  exact .raised e he

/-- Discarding is advancing with the outputs dropped (42_cmwc.md R165, 43_xoroshiro.md R196). -/
theorem engineDiscard_eq_iterate (c : Params) (z : Nat) (e : Engine) :
    engineDiscard c z e = (fun e => (engineNext c e).2)^[z] e := by
  cases hk : c.kind <;> simp only [engineDiscard, engineNext, cmwcDiscard, xDiscard, xNext, hk]

/-- A command that answers a next state completes in one of the ways of `Completes`. -/
theorem exec_completes {i : Instr} {s t : State} (h : exec i s = .next t) : Completes i s t := by
  have kept : Runs i s s.eng := .advanced 0
  cases i <;> simp only [exec] at h
  case engSeeddef => rw [execEngSeeddef_next h]; exact .installed _ (by simp [Instr.opc]) (.scalar _)
  case engSeed => rw [execEngSeed_next h]; exact .installed _ (by simp [Instr.opc]) (.scalar _)
  case engSeedmix =>
    rcases execEngSeedmix_next h with h | ⟨_, rfl⟩
    · exact h.completes
    · exact .installed _ (by simp [Instr.opc]) .mixer
  case engSeedbuf =>
    rcases execEngSeedbuf_next h with h | ⟨_, _, ws, hws, rfl⟩
    · exact h.completes
    · exact .installed _ (by simp [Instr.opc]) (.words ws (Memory.readWords_ok hws).1)
  case engLoad =>
    rcases execEngLoad_next h with h | ⟨_, _, ws, hws, hgood, rfl⟩
    · exact h.completes
    · exact .installed _ (by simp [Instr.opc]) (.image ws (Memory.readWords_ok hws).1 hgood)
  case engNext =>
    rcases execEngNext_next h with h | ⟨_, rfl⟩
    · exact h.completes
    · exact .ran _ s.buf _ (by simp [Instr.opc]) (.advanced 1) (by simp [Instr.opc])
  case engGen =>
    rcases execEngGen_next h with h | ⟨_, _, rfl⟩
    · exact h.completes
    · exact .ran _ _ s.result (by simp [Instr.opc]) (engineGen_snd .. ▸ .advanced _) fun _ => rfl
  case engDiscard =>
    rcases execEngDiscard_next h with h | ⟨_, rfl⟩
    · exact h.completes
    · exact .ran _ s.buf s.result (by simp [Instr.opc]) (engineDiscard_eq_iterate .. ▸ .advanced _) fun _ => rfl
  case engJump =>
    rcases execEngJump_next h with h | ⟨_, _, rfl⟩
    · exact h.completes
    · exact .ran _ s.buf s.result (by simp [Instr.opc]) (.jumped _ rfl) fun _ => rfl
  case engSave =>
    rcases execEngSave_next h with h | ⟨_, rfl⟩
    · exact h.completes
    · exact .ran s.eng _ _ (by simp [Instr.opc]) kept (by simp [Instr.opc])
  case engEq =>
    rcases execEngEq_next h with h | ⟨_, _, _, _, _, rfl⟩
    · exact h.completes
    · exact .ran s.eng s.buf _ (by simp [Instr.opc]) kept (by simp [Instr.opc])
  case smxSeed =>
    rcases execSmxSeed_next h with h | ⟨_, _, _, rfl⟩
    · exact h.completes
    · exact .absorbed _ (by simp [Instr.opc])
  case smxGen =>
    rcases execSmxGen_next h with h | ⟨_, _, rfl⟩
    · exact h.completes
    · exact .ran s.eng _ s.result (by simp [Instr.opc]) kept fun _ => rfl
  case smxParam =>
    rcases execSmxParam_next h with h | ⟨_, rfl⟩
    · exact h.completes
    · exact .ran s.eng _ _ (by simp [Instr.opc]) kept (by simp [Instr.opc])
  case hshH64 => rw [execHshH64_next h]; exact .ran s.eng s.buf _ (by simp [Instr.opc]) kept (by simp [Instr.opc])
  case hshH32 => rw [execHshH32_next h]; exact .ran s.eng s.buf _ (by simp [Instr.opc]) kept (by simp [Instr.opc])
  case ctlNop => rw [execCtlNop_next h]; exact .ran s.eng s.buf s.result (by simp [Instr.opc]) kept fun _ => rfl
  case ctlClrerr => rw [execCtlClrerr_next h]; exact .cleared rfl
  case ctlReset => rw [execCtlReset_next h]; exact .reset rfl

/-! ### What a completion leaves unchanged -/

/-- A completion leaves nothing pending (10_state.md R35). -/
theorem Completes.pending_eq {i : Instr} {s t : State} (h : Completes i s t) : t.pending = none := by
  cases h <;> rfl

/-- A completion keeps the build-time parameters (00_scope.md R7). -/
theorem Completes.params_eq {i : Instr} {s t : State} (h : Completes i s t) : t.params = s.params := by
  cases h <;> rfl

/-- Only CTL.RESET writes ARG0 (10_state.md R32, log 15). -/
theorem Completes.arg0_eq {i : Instr} {s t : State} (h : Completes i s t) (hi : i ≠ .ctlReset) : t.arg0 = s.arg0 := by
  cases h
  case reset h => exact absurd h hi
  all_goals rfl

/-- Only six commands and CTL.RESET write RESULT (10_state.md R33, log 15). -/
theorem Completes.result_eq {i : Instr} {s t : State} (h : Completes i s t)
    (hi : i.opc ∉ [0x04, 0x08, 0x0A, 0x42, 0x80, 0x81, 0xC2]) : t.result = s.result := by
  cases h
  case ran hr => exact hr hi
  case reset h => subst h; simp [Instr.opc] at hi
  all_goals rfl

/-- Settles O24, by the ways in which a command completes. -/
theorem registerFrame : Obligations.RegisterFrame := by
  intro i s t h
  have hc := exec_completes h
  have host : t.actions = s.actions ∧ t.reads = s.reads ∧ t.freeCount = s.freeCount := by
    cases hc <;> exact ⟨rfl, rfl, rfl⟩
  obtain ⟨hactions, hreads, hcount⟩ := host
  exact ⟨hc.params_eq, hactions, hreads, hcount, hc.arg0_eq, hc.result_eq⟩

end Sys2Proof.Machine
end

section
/-! PROOFS. What a host access leaves, the lifetime of BUSY and of the sticky bits, and the reset values. -/

namespace Sys2Proof.Machine

/-! ### What a host access leaves -/

/-- A write that reaches BUF reaches one of BUF_WORDS entries (20_memory.md R72). -/
theorem target_buf_lt {c : Params} {addr bytes k : Nat} (h : target c addr bytes = .ok (.buf k)) : k < c.bufWords := by
  unfold target at h
  split at h
  · cases h
  split at h
  · cases h
  split at h
  · cases h
  · exact regAt_buf_lt (Except.ok.inj h)

/-- The ways in which a host access that goes on leaves the block: untouched (every read, every ignored write), a CMD write, an ARG0 write or
a write of one BUF entry (20_memory.md R71-R77, 70_reset_and_hazards.md R314). -/
inductive Accesses (a : HostAccess) (s : State) : State → Prop
  | kept (reads : List (Nat × U64)) (n : Nat) : Accesses a s { s with reads := reads, freeCount := n }
  | latched (v : U64) (ha : a = .write s.params.base 8 v) (hidle : s.pending = none) : Accesses a s { s with pending := some v }
  | dropped (v : U64) (ha : a = .write s.params.base 8 v) (hbusy : s.pending ≠ none) : Accesses a s { s with ovr := true }
  | arg0Written (v : U64) : Accesses a s { s with arg0 := v }
  | bufWritten (k : Nat) (v : U64) (hk : k < s.params.bufWords) : Accesses a s { s with buf := s.buf.writeWord k v }

/-- A host access that goes on is one of the ways of `Accesses`. -/
theorem hostAccess_accesses {a : HostAccess} {s t : State} (h : hostAccess a s = .next t) : Accesses a s t := by
  rcases hostAccess_next h with ⟨addr, bytes, rfl, ⟨v, rfl⟩ | ⟨_, rfl⟩⟩ | ⟨addr, bytes, v, r, rfl, hr, hw⟩
  · exact .kept ..
  · exact .kept ..
  rcases hw with ⟨rfl, rfl⟩ | ⟨_, _, rfl⟩ | ⟨k, rfl, _, rfl⟩ | rfl
  · obtain ⟨rfl, rfl⟩ := target_cmd hr
    cases hp : s.pending with
    | none => rw [State.writeCmd_idle v hp]; exact .latched v rfl hp
    | some w => rw [State.writeCmd_busy v hp]; exact .dropped v rfl (by simp [hp])
  · exact .arg0Written v
  · exact .bufWritten k v (target_buf_lt hr)
  · exact .kept t.reads t.freeCount

/-! ### The steps of host and block -/

/-- The ways in which a step of host and block goes on: an idle block or a passed WAIT, a completion, an illegal word, a host access, or a
power-on reset (20_memory.md R80, 30_encoding.md R97, 70_reset_and_hazards.md R311). -/
inductive Steps (s : State) : State → Prop
  | idle (rest : List HostAction) (hp : s.pending = none) : Steps s { s with actions := rest }
  | completed (v : U64) (i : Instr) (t : State) (hp : s.pending = some v) (hd : decode v = .ok i) (he : exec i s = .next t)
      (ha : s.actions = [] ∨ ∃ rest, s.actions = .wait :: rest) : Steps s t
  | illegal (v : U64) (hp : s.pending = some v) (ha : s.actions = [] ∨ ∃ rest, s.actions = .wait :: rest) : Steps s (s.raise .illegal)
  | accessed (a : HostAccess) (rest : List HostAction) (t : State) (ha : s.actions = .access a :: rest)
      (h : Accesses a { s with actions := rest } t) : Steps s t
  | poweredOn (rest : List HostAction) (ha : s.actions = .powerOn :: rest) : Steps s (State.powerOn { s with actions := rest })

/-- A step that goes on is one of the ways of `Steps`. -/
theorem step_steps {s t : State} (h : step s = .next t) : Steps s t := by
  rcases step_next h with ⟨_, hp, rfl⟩ | ⟨ha, v, hp, ⟨i, hd, he⟩ | ⟨_, _, rfl⟩⟩ | ⟨a, rest, ha, h⟩ | ⟨rest, ha, rfl⟩
  · exact .idle _ hp
  · exact .completed v i t hp hd he ha
  · exact .illegal v hp ha
  · exact .accessed a rest t ha (hostAccess_accesses h)
  · exact .poweredOn rest ha

/-! ### The invariant of every reachable state -/

/-- The invariant speaks of the parameters, the engine, the pool and BUF only. -/
theorem State.Inv.congr {s t : State} (hI : s.Inv) (hc : t.params = s.params) (he : t.eng = s.eng) (hp : t.pool = s.pool)
    (hb : t.buf = s.buf) : t.Inv := by
  obtain ⟨h1, h2, h3, h4, h5, h6⟩ := hI
  constructor <;> simpa only [hc, he, hp, hb]

/-- Writing words inside BUF keeps what the invariant says of the storage (20_memory.md R86). -/
theorem State.Inv.writeWords {s : State} (hI : s.Inv) {k : Nat} {ws : List U64} (hk : k + ws.length ≤ s.params.bufWords) :
    State.Inv { s with buf := s.buf.writeWords k ws } :=
  { hI with
    canonical := Memory.writeWords_wf hI.canonical k ws
    within := Memory.within_writeWords hI.within hk
    whole := Memory.wholeEntries_writeWords hI.canonical hI.whole k ws }

/-- A power-on state of legal parameters meets the invariant (10_state.md R57). -/
theorem State.inv_powerOnOf {c : Params} (hc : c.wf = true) : (State.powerOnOf c).Inv where
  params := hc
  canonical := Memory.nil_wf
  within := fun _ h => nomatch h
  whole := Memory.nil_wholeEntries
  engine := initial_shaped hc
  pool := List.length_replicate

/-- A completing command keeps the invariant. -/
theorem exec_inv {i : Instr} {s t : State} (hI : s.Inv) (h : exec i s = .next t) : t.Inv := by
  have hc : t.params = s.params := (exec_completes h).params_eq
  obtain ⟨heng, hpool⟩ := exec_engine_pool hI h
  have hbuf : t.buf.wf ∧ t.buf.within s.params.bufWords ∧ t.buf.wholeEntries := by
    rcases exec_buf hI h with hb | ⟨ws, _, hle, hb⟩
    · rw [hb]; exact ⟨hI.canonical, hI.within, hI.whole⟩
    · have hw := hI.writeWords (k := 0) (ws := ws) (by omega)
      rw [hb]; exact ⟨hw.canonical, hw.within, hw.whole⟩
  obtain ⟨hcanonical, hwithin, hwhole⟩ := hbuf
  exact ⟨hc ▸ hI.params, hcanonical, hc ▸ hwithin, hwhole, heng, hpool⟩

/-- A host access keeps the invariant. -/
theorem Accesses.inv {a : HostAccess} {s t : State} (h : Accesses a s t) (hI : s.Inv) : t.Inv := by
  cases h
  case bufWritten k v hk => exact hI.writeWords (ws := [v]) hk
  all_goals exact hI.congr rfl rfl rfl rfl

/-- Settles O60: each way of stepping keeps the invariant. -/
theorem invariantKeptByEveryStep : Obligations.InvariantKeptByEveryStep := by
  intro s t hI h
  cases step_steps h with
  | idle rest => exact hI.congr rfl rfl rfl rfl
  | completed v i t _ _ he => exact exec_inv hI he
  | illegal => exact hI.congr rfl rfl rfl rfl
  | accessed a rest t _ hacc => exact hacc.inv (hI.congr rfl rfl rfl rfl)
  | poweredOn rest => exact (State.inv_powerOnOf hI.params).congr rfl rfl rfl rfl

/-- Settles O59: reset is the power-on state of legal parameters, and is not seeded. -/
theorem invariantAtReset : Obligations.InvariantAtReset :=
  ⟨State.inv_powerOnOf State.reset_params_wf, fun _ hseeded => nomatch hseeded⟩

/-! ### BUSY -/

/-- A host access keeps PENDING, but for a CMD write that is latched (10_state.md R31). -/
theorem Accesses.pending_cases {a : HostAccess} {s t : State} (h : Accesses a s t) :
    t.pending = s.pending ∨ s.pending = none ∧ ∃ v, t.pending = some v ∧ a = .write s.params.base 8 v := by
  cases h with
  | latched v ha hidle => exact .inr ⟨hidle, v, rfl, ha⟩
  | _ => exact .inl rfl

/-- Settles O8: only a CMD write latches a word, and only a block step or power-on drops it. -/
theorem busyLifetime : Obligations.BusyLifetime := by
  intro s t h
  cases step_steps h with
  | idle rest hp => simp [hp]
  | completed v i t hp _ he ha =>
    have hnone := (exec_completes he).pending_eq
    rcases ha with ha | ha <;> simp [hp, hnone, ha]
  | illegal v hp ha => rcases ha with ha | ha <;> simp [hp, ha]
  | accessed a rest t ha hacc => rcases hacc.pending_cases with hkept | ⟨hidle, v, hlatched, rfl⟩ <;> simp_all
  | poweredOn rest ha => simp [ha]

end Sys2Proof.Machine
end

section
/-! PROOFS. STATUS bit by bit, the reset values, and BUF as the host reads it. -/

namespace Sys2Proof.Machine

/-! ### The sticky bits -/

/-- Which commands a falling or rising bit of STATUS names when they complete (10_state.md R36-R39). -/
theorem Completes.statusBits {i : Instr} {s t : State} (h : Completes i s t) :
    (s.seeded = true → t.seeded = false → i.opc ∈ [0xC2]) ∧ (s.mixfull = true → t.mixfull = false → i.opc ∈ [0xC2]) ∧
    (s.ovr = true → t.ovr = false → i.opc ∈ [0xC1, 0xC2]) ∧ (s.errseen = true → t.errseen = false → i.opc ∈ [0xC1, 0xC2]) ∧
    (s.seeded = false → t.seeded = true → i.opc ∈ [0x00, 0x01, 0x02, 0x03, 0x09]) ∧
    (s.mixfull = false → t.mixfull = true → i.opc ∈ [0x40]) ∧ (s.ovr = false → t.ovr = false) ∧
    (s.errseen = false → t.errseen = true → t.err ≠ .ok) := by
  cases h with
  | raised e he => simp_all
  | installed e hi => simp_all
  | ran => simp_all
  | absorbed p hi => simp_all
  | cleared hi => simp [hi, Instr.opc]
  | reset hi => simp [hi, Instr.opc]

/-- A host access changes no bit of STATUS but BUSY and OVR, and OVR only by a CMD write that is dropped (10_state.md R38). -/
theorem Accesses.statusBits {a : HostAccess} {s t : State} (h : Accesses a s t) :
    t.seeded = s.seeded ∧ t.mixfull = s.mixfull ∧ t.errseen = s.errseen ∧
    (t.ovr = s.ovr ∨ t.ovr = true ∧ s.pending ≠ none ∧ ∃ v, a = .write s.params.base 8 v) := by
  cases h with
  | dropped v ha hbusy => exact ⟨rfl, rfl, rfl, .inr ⟨rfl, hbusy, v, ha⟩⟩
  | _ => exact ⟨rfl, rfl, rfl, .inl rfl⟩

/-- Settles O27: each way of stepping changes the bits as its own rule says. -/
theorem statusBitsRiseAndFall : Obligations.StatusBitsRiseAndFall := by
  intro s t h runs resets
  cases step_steps h with
  | idle rest => simp_all
  | completed v i t hp hd he =>
    have run : ∀ opcs, i.opc ∈ opcs → runs opcs := fun _ hi => ⟨v, i, hp, hd, hi⟩
    obtain ⟨seededFalls, mixfullFalls, ovrFalls, errseenFalls, seededRises, mixfullRises, ovrKept, errseenRises⟩ :=
      (exec_completes he).statusBits
    refine ⟨fun h h' => .inr (run _ (seededFalls h h')), fun h h' => .inr (run _ (mixfullFalls h h')),
      fun h h' => .inr (run _ (ovrFalls h h')), fun h h' => .inr (run _ (errseenFalls h h')),
      fun h h' => run _ (seededRises h h'), fun h h' => run _ (mixfullRises h h'), fun h h' => ?_,
      fun h h' => ⟨by simp [hp], errseenRises h h'⟩⟩
    simp [ovrKept h] at h'
  | illegal v hp => simp_all
  | accessed a rest t ha hacc =>
    obtain ⟨hseeded, hmixfull, herrseen, hovr⟩ := hacc.statusBits
    rcases hovr with hovr | ⟨hovr, hbusy, v, rfl⟩ <;> simp_all
  | poweredOn rest ha =>
    have reset : ∀ opcs, resets opcs := fun _ => .inl ⟨rest, ha⟩
    simp [reset]

/-! ### Reset -/

/-- STATUS reads 0 when no bit and no code is set (10_state.md R34). -/
theorem statusWord_eq_zero {s : State} (hbusy : s.pending = none) (hseeded : s.seeded = false) (hmixfull : s.mixfull = false)
    (hovr : s.ovr = false) (herrseen : s.errseen = false) (herr : s.err = .ok) : statusWord s = 0 := by
  simp [statusWord, State.busy, ErrCode.code, hbusy, hseeded, hmixfull, hovr, herrseen, herr]

/-- BUF with nothing written holds no word (10_state.md R46). -/
theorem Memory.readWord_nil (k : Nat) : Memory.readWord [] k = none := rfl

/-- Settles O9: power-on gives every element its R57 value. -/
theorem powerOnReset : Obligations.PowerOnReset := by
  refine ⟨⟨statusWord_eq_zero rfl rfl rfl rfl rfl rfl, rfl, rfl, rfl, Memory.readWord_nil⟩, fun s rest ha => ?_⟩
  exact ⟨State.powerOn { s with actions := rest }, by simp [step, ha], statusWord_eq_zero rfl rfl rfl rfl rfl rfl, rfl, rfl, rfl,
    Memory.readWord_nil, rfl, rfl⟩

/-! ### BUF as the host reads it -/

/-- A host access at the head of the list is what the step does. -/
theorem step_access {s : State} {a : HostAccess} {rest : List HostAction} (ha : s.actions = .access a :: rest) :
    step s = hostAccess a { s with actions := rest } := by
  simp [step, ha]

/-- A host read of a BUF entry of the window reaches that entry (20_memory.md R72). -/
theorem hostAccess_read_buf {s : State} {k : Nat} (hk : k < s.params.bufWords) (hw : k < 8192) :
    hostAccess (.read (s.params.base + 0x10000 + 8 * k) 8) s = hostRead (s.params.base + 0x10000 + 8 * k) (.buf k) s := by
  have haddr : s.params.base + 0x10000 + 8 * k = s.params.base + bufAddr k := by simp only [bufAddr, bufBase]; omega
  have hwindow : bufAddr k < 0x20000 ∧ bufAddr k % 8 = 0 := by simp only [bufAddr, bufBase]; omega
  rw [haddr, hostAccess, target_aligned hwindow.1 hwindow.2, regAt_buf hk]

/-- Settles O12: the read reaches the entry, and with BUSY = 0 logs its word or faults. -/
theorem bufReadsWhenIdle : Obligations.BufReadsWhenIdle := by
  intro s k rest hk hw hidle ha
  have hstep := (step_access ha).trans (hostAccess_read_buf (s := { s with actions := rest }) hk hw)
  refine ⟨fun v hv => ?_, fun hnone => ?_⟩
  · simp [hstep, hostRead, hv, hidle, State.busy, State.logRead]
  · simp [hstep, hostRead, hnone]

/-! ### The fields of STATUS and CONFIG -/

/-- The bits of STATUS, its ERR field and its reserved fields (10_state.md R34). -/
theorem statusWord_fields (s : State) :
    (statusWord s).getLsbD 0 = s.busy ∧ (statusWord s).getLsbD 1 = s.seeded ∧ (statusWord s).getLsbD 2 = s.mixfull ∧
    (statusWord s).getLsbD 3 = s.ovr ∧ (statusWord s).getLsbD 4 = s.errseen ∧ (statusWord s).extractLsb' 5 3 = 0 ∧
    (statusWord s).extractLsb' 8 4 = s.err.code ∧ (statusWord s).extractLsb' 12 52 = 0 := by
  simp (disch := decide) only [statusWord, BitVec.extractLsb'_append_eq_of_add_le (w := 12),
    BitVec.extractLsb'_append_eq_of_add_le (w := 8), BitVec.extractLsb'_append_eq_left, BitVec.getLsbD_append]
  simp

/-- The fields of CONFIG (10_state.md R41). -/
theorem configWord_fields (c : Params) :
    (configWord c).extractLsb' 0 4 = kindCode c.kind ∧ (configWord c).getLsbD 4 = complBit c ∧ (configWord c).extractLsb' 5 3 = 0 ∧
    (configWord c).extractLsb' 8 8 = log2nField c ∧ (configWord c).extractLsb' 16 8 = BitVec.ofNat 8 c.smxCount ∧
    (configWord c).extractLsb' 24 8 = BitVec.ofNat 8 (outWidth c) ∧ (configWord c).extractLsb' 32 32 = 0 := by
  simp (disch := decide) only [configWord, BitVec.extractLsb'_append_eq_of_add_le (w := 32),
    BitVec.extractLsb'_append_eq_of_add_le (w := 24), BitVec.extractLsb'_append_eq_of_add_le (w := 16),
    BitVec.extractLsb'_append_eq_of_add_le (w := 8), BitVec.extractLsb'_append_eq_of_add_le (w := 5),
    BitVec.extractLsb'_append_eq_left, BitVec.extractLsb'_append_eq_right, BitVec.getLsbD_append]
  simp

/-- Settles O20: the fields are the codes and views of the model, and those take the listed values. -/
theorem statusAndConfigFields : Obligations.StatusAndConfigFields := by
  refine ⟨fun s => ?_, fun c => ?_⟩
  · obtain ⟨hbusy, hseeded, hmixfull, hovr, herrseen, hlow, herr, hhigh⟩ := statusWord_fields s
    refine ⟨hbusy, hseeded, hmixfull, hovr, herrseen, hlow, hhigh, ?_⟩
    rw [herr]
    cases s.err <;> decide
  · obtain ⟨hkind, hcompl, hlow, hlog2n, hcount, hwidth, hhigh⟩ := configWord_fields c
    refine ⟨?_, hcompl.trans ?_, hlow, hlog2n.trans ?_, hcount, hwidth.trans ?_, hhigh⟩
    · rw [hkind]
      cases c.kind <;> decide
    · cases hk : c.kind <;> simp [complBit, hk]
    · cases hk : c.kind <;> simp [log2nField, hk]
    · cases hk : c.kind <;> simp [outWidth, hk]

end Sys2Proof.Machine
end

section
/-! PROOFS. The non-zero state of the 64-bit engines: advancing keeps it, every seeding ends in it, and so every step but a jump keeps it
(10_state.md R50). -/

namespace Sys2Proof.Machine

section Advance

variable {c : Params} {e : Engine}

/-- The xoroshiro128 advance takes only 0 to 0: S1 comes back from its rotation, then S0 from its own (43_xoroshiro.md R191). -/
theorem xoroAdvance_eq_zero (h0 : (xoroAdvance e).s0 = 0) (h1 : (xoroAdvance e).s1 = 0) : e.s0 = 0 ∧ e.s1 = 0 := by
  have hx : e.s1 ^^^ e.s0 = 0 := rotl64_eq_zero (by decide) (by decide) h1
  have hs0 : e.s0 = 0 := rotl64_eq_zero (k := 55) (by decide) (by decide) (by simpa [xoroAdvance, hx] using h0)
  exact ⟨hs0, by simpa [hs0] using hx⟩

/-- The xorshift128 advance takes only 0 to 0 (43_xoroshiro.md R194). -/
theorem xsh128Advance_eq_zero (hwf : c.wf = true) (h0 : (xsh128Advance c e).s0 = 0) (h1 : (xsh128Advance c e).s1 = 0) :
    e.s0 = 0 ∧ e.s1 = 0 := by
  obtain ⟨hA, hB, -, -⟩ := Params.wf_shifts hwf
  have hs1 : e.s1 = 0 := h0
  have ha : e.s0 ^^^ (e.s0 <<< c.xsh128A) = 0 := xorShr_eq_zero hB (by simpa [xsh128Advance, hs1] using h1)
  exact ⟨xorShl_eq_zero hA ha, hs1⟩

/-- The word xorshift1024 writes is 0 for S[P] = 0 only when S[P+1] was 0 (43_xoroshiro.md R195). -/
theorem xsh1024Word_eq_zero (hwf : c.wf = true) {s1 : U64} (h : xsh1024Word c 0 s1 = 0) : s1 = 0 := by
  obtain ⟨-, -, hA, hB⟩ := Params.wf_shifts hwf
  exact xorShl_eq_zero hA (xorShr_eq_zero hB (by simpa [xsh1024Word] using h))

/-- S after the xorshift1024 advance, word by word (43_xoroshiro.md R195). -/
theorem xsh1024Advance_get (c : Params) (e : Engine) (k : Fin 16) :
    (xsh1024Advance c e).s.get k =
      if k = nextP e.p then xsh1024Word c (e.s.get e.p) (e.s.get (nextP e.p)) else e.s.get k := by
  simp only [xsh1024Advance, vector_get_eq, Vector.getElem_set, Fin.val_inj, eq_comm (a := k)]

/-- The xorshift1024 advance takes only 0 to 0: every word but S[P+1] stands, and that one is undone from the word written. -/
theorem xsh1024Advance_eq_zero (hwf : c.wf = true) (h : ∀ k, (xsh1024Advance c e).s.get k = 0) (k : Fin 16) : e.s.get k = 0 := by
  have others : ∀ k, k ≠ nextP e.p → e.s.get k = 0 := fun k hk => by
    simpa [xsh1024Advance_get, hk] using h k
  by_cases hk : k = nextP e.p
  · have hp : e.s.get e.p = 0 := others _ (by simp [nextP])
    have hw := h k
    rw [xsh1024Advance_get, if_pos hk, hp] at hw
    exact hk ▸ xsh1024Word_eq_zero hwf hw
  · exact others k hk

/-- Advancing keeps a non-zero state (the spec's own inference R208). -/
theorem xAdvance_nonzero (hwf : c.wf = true) (hk : c.kind ≠ .cmwc) (h : e.nonzero c) : (xAdvance c e).nonzero c := by
  by_cases h6 : c.kind = .xsh1024s
  · rw [nonzero_1024 h6] at h ⊢
    by_contra hzero
    obtain ⟨k, hne⟩ := h
    refine hne (xsh1024Advance_eq_zero hwf (fun k => ?_) k)
    simpa [xAdvance, h6] using not_exists.mp hzero k
  · rw [nonzero_two hk h6] at h ⊢
    rintro ⟨h0, h1⟩
    refine h ?_
    cases hkind : c.kind <;> simp only [xAdvance, hkind] at h0 h1
    case cmwc => exact absurd hkind hk
    case xsh1024s => exact absurd hkind h6
    case xsh128p => exact xsh128Advance_eq_zero hwf h0 h1
    all_goals exact xoroAdvance_eq_zero h0 h1

/-- Discarding keeps a non-zero state. -/
theorem xDiscard_nonzero (hwf : c.wf = true) (hk : c.kind ≠ .cmwc) (n : Nat) (h : e.nonzero c) : (xDiscard c n e).nonzero c := by
  induction n with
  | zero => exact h
  | succ n ih =>
    rw [xDiscard, Function.iterate_succ_apply']
    exact xAdvance_nonzero hwf hk ih

end Advance

/-- The state after an output of kinds 1-6 is the advanced one (43_xoroshiro.md R193-R195). -/
theorem engineNext_snd {c : Params} (hk : c.kind ≠ .cmwc) (e : Engine) : (engineNext c e).2 = xAdvance c e := by
  cases h : c.kind <;> simp_all [engineNext, xNext]

/-- Outputs keep a non-zero state. -/
theorem iterate_engineNext_nonzero {c : Params} {e : Engine} (hwf : c.wf = true) (hk : c.kind ≠ .cmwc) (n : Nat) (h : e.nonzero c) :
    ((fun e => (engineNext c e).2)^[n] e).nonzero c := by
  rw [show (fun e => (engineNext c e).2) = xAdvance c from funext (engineNext_snd hk)]
  exact xDiscard_nonzero hwf hk n h

/-! ### Seeding -/

/-- The words that a seeding from words installs are not all zero (43_xoroshiro.md R199, R203). -/
theorem seedWordsOrFallback_spec {c : Params} (hwf : c.wf = true) (hk : c.kind ≠ .cmwc) {w : List U64} (hl : w.length = c.stateWords) :
    (seedWordsOrFallback c w).length = c.stateWords ∧ allZero (seedWordsOrFallback c w) = false := by
  unfold seedWordsOrFallback
  split
  · exact ⟨expand_length .., expand_allZero hwf _ (Params.two_le_stateWords hk)⟩
  · next h => exact ⟨hl, by simpa using h⟩

/-- The words that a seeding from the mixer installs are not all zero (43_xoroshiro.md R199, R204). -/
theorem mixerWordsOrFallback_spec {c : Params} (hwf : c.wf = true) (hk : c.kind ≠ .cmwc) (pool : List U32) :
    (mixerWordsOrFallback c pool).length = c.stateWords ∧ allZero (mixerWordsOrFallback c pool) = false := by
  unfold mixerWordsOrFallback
  dsimp only
  split
  · exact ⟨expand_length .., expand_allZero hwf _ (Params.two_le_stateWords hk)⟩
  · next h => exact ⟨pairWords_length _ _ (generateFrom_length ..), by simpa using h⟩

/-- Installing words that are not all zero and warming up gives a non-zero state (43_xoroshiro.md R201). -/
theorem xWarmup_xSetImage_nonzero {c : Params} (hwf : c.wf = true) (hk : c.kind ≠ .cmwc) {w : List U64}
    (h : w.length = c.stateWords ∧ allZero w = false) (e : Engine) : (xWarmup c (xSetImage c w e)).nonzero c :=
  xDiscard_nonzero hwf hk _ (xSetImage_nonzero hk h.1 h.2 e)

/-- Each of the five seeding commands installs a non-zero state. -/
theorem Installs.nonzero {s : State} {e : Engine} (hwf : s.params.wf = true) (hk : s.params.kind ≠ .cmwc) (h : Installs s e) :
    e.nonzero s.params := by
  cases h with
  | scalar v =>
    have hx : seedScalar s.params v s.eng = xSeedScalar s.params v s.eng := by
      cases hkind : s.params.kind <;> simp_all [seedScalar]
    exact hx ▸ xWarmup_xSetImage_nonzero hwf hk ⟨expand_length .., expand_allZero hwf v (Params.two_le_stateWords hk)⟩ s.eng
  | mixer =>
    have hx : seedMixer s.params s.pool s.eng = xSeedMixer s.params s.pool s.eng := by
      cases hkind : s.params.kind <;> simp_all [seedMixer]
    exact hx ▸ xWarmup_xSetImage_nonzero hwf hk (mixerWordsOrFallback_spec hwf hk s.pool) s.eng
  | words ws hl =>
    have hx : seedWords s.params ws s.eng = xSeedWords s.params ws s.eng := by
      cases hkind : s.params.kind <;> simp_all [seedWords]
    exact hx ▸ xWarmup_xSetImage_nonzero hwf hk (seedWordsOrFallback_spec hwf hk hl) s.eng
  | image ws hl hgood =>
    have hx : engineLoad s.params ws s.eng = xSetImage s.params ws s.eng ∧ badImage s.params ws = allZero ws := by
      cases hkind : s.params.kind <;> simp_all [engineLoad, badImage]
    exact hx.1 ▸ xSetImage_nonzero hk hl (hx.2 ▸ hgood) s.eng

/-- Settles O43: of a seeding command's completions only the one that installs an engine leaves ERR = 0. -/
theorem seedingNeverLeavesZero : Obligations.SeedingNeverLeavesZero := by
  intro i s t hwf hk hi h hok
  have other : ∀ opcs : List U8, (∀ o ∈ [0x00, 0x01, 0x02, 0x03, 0x09], o ∉ opcs) → i.opc ∉ opcs := fun _ hd => hd _ hi
  cases exec_completes h with
  | raised e he => exact absurd hok he
  | installed e _ he => exact ⟨rfl, Installs.nonzero (s := s) hwf hk he⟩
  | ran e b r hrun => exact absurd hrun (other _ (by decide))
  | absorbed p habsorb => exact absurd habsorb (other _ (by decide))
  | cleared hclear => subst hclear; exact absurd hi (by decide)
  | reset hreset => subst hreset; exact absurd hi (by decide)

/-! ### Every step -/

/-- A completion that is not a jump keeps the non-zero invariant. -/
theorem Completes.nonzeroInv {i : Instr} {s t : State} (h : Completes i s t) (hwf : s.params.wf = true) (hn : s.NonzeroInv)
    (hi : i ≠ .engJump) : t.NonzeroInv := by
  intro hk hseeded
  cases h with
  | raised | absorbed | cleared => exact hn hk hseeded
  | installed e _ he => exact Installs.nonzero (s := s) hwf hk he
  | ran e b r _ he =>
    cases he with
    | advanced n => exact iterate_engineNext_nonzero hwf hk n (hn hk hseeded)
    | jumped z hjump => exact absurd hjump hi
  | reset => nomatch hseeded

/-- The non-zero invariant speaks of the parameters, SEEDED and the engine only. -/
theorem State.NonzeroInv.congr {s t : State} (hn : s.NonzeroInv) (hc : t.params = s.params) (hs : t.seeded = s.seeded)
    (he : t.eng = s.eng) : t.NonzeroInv := by
  intro hk hseeded
  rw [hc, he]
  exact hn (hc ▸ hk) (hs ▸ hseeded)

/-- Settles O49: each way of stepping keeps the non-zero invariant, a completing ENG.JUMP left out. -/
theorem nonzeroKeptByEveryStepButJump : Obligations.NonzeroKeptByEveryStepButJump := by
  intro s t hwf hn hjump h
  cases step_steps h with
  | idle | illegal => exact hn.congr rfl rfl rfl
  | completed v i t hp hd he => exact (exec_completes he).nonzeroInv hwf hn fun hi => hjump v hp (hi ▸ hd)
  | accessed a rest t _ hacc => cases hacc <;> exact hn.congr rfl rfl rfl
  | poweredOn rest => exact fun _ hseeded => nomatch hseeded

end Sys2Proof.Machine
end

section
/-! PROOFS. Engines with equal images stay so, output by output (10_state.md R52): an image names the words from the cursor on, and a step
reads and writes only words that stand at fixed places of it. -/

namespace Sys2Proof.Machine

variable {c : Params} {e₁ e₂ : Engine}

/-- For kinds 1-5 the image is S0 and S1, and these are all that an output and an advance read (43_xoroshiro.md R191-R194). -/
theorem engineNext_congr_two (hk : c.kind ≠ .cmwc) (h6 : c.kind ≠ .xsh1024s) (h : engineImage c e₁ = engineImage c e₂) :
    (engineNext c e₁).1 = (engineNext c e₂).1 ∧ engineImage c (engineNext c e₁).2 = engineImage c (engineNext c e₂).2 := by
  rw [xImage_two hk h6, xImage_two hk h6] at h ⊢
  obtain ⟨h0, h1⟩ : e₁.s0 = e₂.s0 ∧ e₁.s1 = e₂.s1 := by simpa using h
  cases hkind : c.kind <;>
    simp_all [engineNext, xNext, xAdvance, xoroAdvance, xsh128Advance]

/-- The xorshift1024 advance in terms of the words counted from the cursor: the new word 0 is made of words 0 and 1, and every other word k
was word k + 1 (43_xoroshiro.md R195). -/
theorem xsh1024Advance_get_add (c : Params) (e : Engine) (k : Fin 16) :
    (xsh1024Advance c e).s.get ((xsh1024Advance c e).p + k) =
      if k = 0 then xsh1024Word c (e.s.get (e.p + 0)) (e.s.get (e.p + 1)) else e.s.get (e.p + (1 + k)) := by
  have hp : (xsh1024Advance c e).p = e.p + 1 := rfl
  rw [hp, xsh1024Advance_get, add_zero, add_assoc]
  simp [nextP]

/-- For XSH1024S an output and an advance read the words counted from the cursor, which the image names (43_xoroshiro.md R195, R197). -/
theorem engineNext_congr_1024 (h6 : c.kind = .xsh1024s) (h : engineImage c e₁ = engineImage c e₂) :
    (engineNext c e₁).1 = (engineNext c e₂).1 ∧ engineImage c (engineNext c e₁).2 = engineImage c (engineNext c e₂).2 := by
  rw [xImage_1024_eq_iff h6] at h ⊢
  have hwords : ∀ k, (xsh1024Advance c e₁).s.get ((xsh1024Advance c e₁).p + k) = (xsh1024Advance c e₂).s.get ((xsh1024Advance c e₂).p + k) :=
    fun k => by simp only [xsh1024Advance_get_add, h]
  have hout := hwords 0
  simp only [add_zero] at hout
  simp only [engineNext, xNext, xAdvance, h6]
  exact ⟨by rw [hout], hwords⟩

/-- The CMWC step in terms of the words of Q counted from the cursor: the new word 0 is the output, and every other word k was word k + 1,
modulo N (42_cmwc.md R161). -/
theorem cmwcStep_q_getD (hwf : c.wf = true) (hkind : c.kind = .cmwc) {e : Engine} (he : e.shaped c) {k : Nat} (hk : k < c.cmwcN) :
    (cmwcStep c e).2.q.getD (((cmwcStep c e).2.cur + k) % c.cmwcN) 0 =
      if k = 0 then (cmwcStep c e).1 else e.q.getD ((e.cur + (1 + k) % c.cmwcN) % c.cmwcN) 0 := by
  have hlen : e.q.length = c.cmwcN := by simpa [Params.qWords, hkind] using he.1
  have hcur : (cmwcStep c e).2.cur = (e.cur + 1) % c.cmwcN := Params.and_cmwcN hwf hkind _
  have hq : (cmwcStep c e).2.q = e.q.set (cmwcStep c e).2.cur (cmwcStep c e).1 := rfl
  have hpos : 0 < c.cmwcN := by omega
  rw [hq, hcur, Nat.mod_add_mod, Nat.add_mod_mod, ← Nat.add_assoc]
  by_cases h0 : k = 0
  · simp [h0, hlen, Nat.mod_lt _ hpos]
  · have hne : (e.cur + 1) % c.cmwcN ≠ (e.cur + 1 + k) % c.cmwcN := fun h =>
      h0 ((Nat.ModEq.add_left_cancel' (e.cur + 1) (show e.cur + 1 + 0 ≡ e.cur + 1 + k [MOD c.cmwcN] from h)).eq_of_lt_of_lt hpos hk).symm
    simp [h0, List.getElem?_set_ne hne]

/-- For CMWC an output reads the word of Q after the cursor and the carry, which the image names (42_cmwc.md R161, R171). -/
theorem engineNext_congr_cmwc (hwf : c.wf = true) (hkind : c.kind = .cmwc) (h₁ : e₁.shaped c) (h₂ : e₂.shaped c)
    (h : engineImage c e₁ = engineImage c e₂) :
    (engineNext c e₁).1 = (engineNext c e₂).1 ∧ engineImage c (engineNext c e₁).2 = engineImage c (engineNext c e₂).2 := by
  have hN := (Params.wf_cmwc hwf hkind).1
  simp only [engineImage, engineNext, hkind] at h ⊢
  rw [cmwcImage_eq_iff hwf hkind] at h ⊢
  obtain ⟨hq, hcarry⟩ := h
  have hcore : cmwcCore c (e₁.q.getD (cmwcNextCur c e₁.cur) 0) e₁.carry = cmwcCore c (e₂.q.getD (cmwcNextCur c e₂.cur) 0) e₂.carry := by
    simp only [cmwcNextCur, Params.and_cmwcN hwf hkind, hq 1 (by omega), hcarry]
  have hout : (cmwcStep c e₁).1 = (cmwcStep c e₂).1 := congrArg (fun r : U32 × U32 => cmwcStored c r.1) hcore
  refine ⟨congrArg zext64 hout, fun k hk => ?_, congrArg Prod.snd hcore⟩
  rw [cmwcStep_q_getD hwf hkind h₁ hk, cmwcStep_q_getD hwf hkind h₂ hk, hout, hq _ (Nat.mod_lt _ (by omega))]

/-- Settles O58, kind by kind. -/
theorem imageDeterminesFuture : Obligations.ImageDeterminesFuture := by
  intro c e₁ e₂ hwf h₁ h₂ h
  by_cases hk : c.kind = .cmwc
  · exact engineNext_congr_cmwc hwf hk h₁ h₂ h
  · by_cases h6 : c.kind = .xsh1024s
    · exact engineNext_congr_1024 h6 h
    · exact engineNext_congr_two hk h6 h

end Sys2Proof.Machine
end

section
/-! PROOFS. The host's accesses by the register they reach, the storage frame of the commands, and a command seen through from its CMD write
to the read of its RESULT (spec/20_memory.md). -/

namespace Sys2Proof.Machine

/-! ### The frame of BUF -/

/-- Settles O26: a command stores nothing, or `storedWords` words from BUF[0] on. -/
theorem storageFrame : Obligations.StorageFrame := by
  intro i s t hI h
  rcases exec_buf hI h with hbuf | ⟨ws, hlen, _, hbuf⟩
  · rw [hbuf]
    exact ⟨fun _ _ => rfl, fun _ _ => rfl, hI.canonical⟩
  · rw [hbuf, ← hlen]
    refine ⟨fun a ha => Memory.readByte_writeWords_frame hI.canonical ws (by simpa using ha), fun k hk => ?_,
      Memory.writeWords_wf hI.canonical 0 ws⟩
    rw [Memory.readWord_writeWords hI.canonical, if_neg (by omega)]

/-! ### Host accesses by register -/

/-- Settles O10: a read that goes on logs one value, and no more. -/
theorem hostReadsChangeNothing : Obligations.HostReadsChangeNothing := by
  intro s t addr bytes rest ha h
  rw [step_access ha] at h
  rcases hostAccess_next h with ⟨_, _, _, ⟨v, rfl⟩ | ⟨_, rfl⟩⟩ | ⟨_, _, _, _, hwrite, _⟩
  · rfl
  · rfl
  · cases hwrite

/-- Settles O18: an access of another width or alignment reaches no register. -/
theorem undefinedAccessesRefused : Obligations.UndefinedAccessesRefused := by
  intro s a off bytes v rest haccess hoff hundefined ha
  obtain ⟨r, hr⟩ := target_undefined (c := s.params) hoff hundefined
  refine ⟨r, ?_⟩
  rw [step_access ha]
  rcases haccess with rfl | rfl <;> simp [hostAccess, hr]

section Aligned

variable {s : State} {off : Nat} {v : U64} {rest : List HostAction}

/-- A defined read at the head of the host's list reads the register of its offset (20_memory.md R71). -/
theorem step_read (hoff : off < 0x20000) (h8 : off % 8 = 0) (ha : s.actions = .access (.read (s.params.base + off) 8) :: rest) :
    step s = hostRead (s.params.base + off) (regAt s.params off) { s with actions := rest } := by
  rw [step_access ha, hostAccess, target_aligned hoff h8]

/-- A defined write at the head of the host's list writes the register of its offset (20_memory.md R71). -/
theorem step_write (hoff : off < 0x20000) (h8 : off % 8 = 0) (ha : s.actions = .access (.write (s.params.base + off) 8 v) :: rest) :
    step s = hostWrite (regAt s.params off) v { s with actions := rest } := by
  rw [step_access ha, hostAccess, target_aligned hoff h8]

end Aligned

/-- The nine read-only registers ignore writes (20_memory.md R75). -/
theorem hostWrite_readOnly (c : Params) {off : Nat} (v : U64) (s : State)
    (hoff : off ∈ [0x08, 0x18, 0x20, 0x28, 0x30, 0x38, 0x40, 0x48, 0x50]) : hostWrite (regAt c off) v s = .next s := by
  simp only [List.mem_cons, List.not_mem_nil, or_false] at hoff
  rcases hoff with rfl | rfl | rfl | rfl | rfl | rfl | rfl | rfl | rfl <;> rfl

/-- Settles O15, clause by clause: read-only registers, CMD, reserved offsets. -/
theorem ignoredAccesses : Obligations.IgnoredAccesses := by
  intro s off v rest
  refine ⟨fun hro ha => ?_, fun ha => ?_, fun h8 hoff hreserved => ⟨fun ha => ?_, fun ha => ?_⟩⟩
  · obtain ⟨hoff, h8⟩ : off < 0x20000 ∧ off % 8 = 0 := by
      simp only [List.mem_cons, List.not_mem_nil, or_false] at hro
      omega
    rw [step_write hoff h8 ha, hostWrite_readOnly _ _ _ hro]
  · exact step_read (off := 0) (by decide) rfl ha
  · rw [step_write hoff h8 ha, regAt_reserved hreserved, hostWrite]
  · rw [step_read hoff h8 ha, regAt_reserved hreserved]
    rfl

/-- Settles O13: with BUSY = 0 the write reaches ARG0, or one entry of BUF, whose laws say what else reads as before. -/
theorem hostWritesStore : Obligations.HostWritesStore := by
  intro s v rest hidle hwf
  refine ⟨fun ha => ?_, fun k hk hwindow ha => ⟨{ s with actions := rest, buf := s.buf.writeWord k v }, ?_, rfl,
    Memory.readWord_writeWord_same hwf k v, fun j hj => Memory.readWord_writeWord_ne hwf v hj,
    fun a ha => Memory.readByte_writeWord_frame hwf v ha⟩⟩
  · have hstep := step_write (off := 0x10) (by decide) rfl ha
    simpa [regAt, lowReg, hostWrite, State.busy, hidle] using hstep
  · have hentry : bufAddr k = 0x10000 + 8 * k := rfl
    have hstep := step_write (off := bufAddr k) (by omega) (by omega) (by rw [ha, hentry, Nat.add_assoc])
    simpa [regAt_buf hk, hostWrite, State.busy, hidle] using hstep

/-! ### The block's step -/

/-- The host has nothing listed or waits: with a word pending the step is the block's (20_memory.md R80). -/
theorem step_busy {s : State} (hbusy : s.busy = true) (ha : s.actions = [] ∨ ∃ rest, s.actions = .wait :: rest) :
    step s = blockStep s := by
  rcases ha with ha | ⟨rest, ha⟩ <;> simp only [step, ha, hbusy, if_true]

/-- WAIT passes once nothing is pending (30_encoding.md R101). -/
theorem step_wait_idle {s : State} {rest : List HostAction} (hidle : s.pending = none) (ha : s.actions = .wait :: rest) :
    step s = .next { s with actions := rest } := by
  simp [step, ha, State.busy, hidle]

/-- Settles O5: the step is the block's, and the block runs the command its word decodes to. -/
theorem stepRunsDecodedCommand : Obligations.StepRunsDecodedCommand := by
  intro s v i hp hd ha
  rw [step_busy (by simp [hp]) ha]
  simp only [blockStep, hp, hd]

end Sys2Proof.Machine

namespace Sys2Proof

/-- The opcode map gives a command's own row back (30_encoding.md R96). -/
theorem opForm_opc (i : Instr) :
    (opForm i.opc = some (.plain i) ∧ i.len = 0) ∨ ∃ mk, opForm i.opc = some (.sized mk) ∧ mk i.len = i := by
  cases i
  case engSeedbuf | engGen | engLoad | engEq | smxSeed | smxGen => exact .inr ⟨_, rfl, rfl⟩
  all_goals exact .inl ⟨rfl, rfl⟩

/-- A well-formed command's LEN is a 16-bit count (30_encoding.md R93). -/
theorem Instr.len_le {i : Instr} (h : i.wellFormed = true) : i.len ≤ 65535 := by
  cases i
  case engSeedbuf | engGen | engLoad | engEq | smxSeed | smxGen => exact of_decide_eq_true h
  all_goals exact Nat.zero_le _

/-- Decoding the encoding of a well-formed command gives it back (30_encoding.md R90-R97). -/
theorem decode_encode {i : Instr} (h : i.wellFormed = true) : decode (encode i) = .ok i := by
  obtain ⟨hopc, hrsv, hlen, hhigh⟩ := Laws.encodingFields_of_len (Instr.len_le h) h
  rcases opForm_opc i with ⟨hform, hzero⟩ | ⟨mk, hform, hmk⟩
  · have hlen0 : lenField (encode i) = 0 := BitVec.eq_of_toNat_eq (hlen.trans hzero)
    simp [decode, hhigh, hrsv, hopc, hform, hlen0]
  · simp [decode, hhigh, hrsv, hopc, hform, hlen, hmk]

end Sys2Proof

namespace Sys2Proof.Machine

/-! ### From the CMD write to the read of RESULT -/

/-- A run of a machine goes on from its first step's next state. -/
theorem run_succ_of_step {M : Host.Core} {s s' : M.State} (n : Nat) (h : M.step s = .next s') : M.run (n + 1) s = M.run n s' := by
  simp only [Host.Core.run, h]

/-- A CMD write with BUSY = 0 latches its word (10_state.md R31). -/
theorem step_cmd_idle {s : State} {v : U64} {rest : List HostAction} (hidle : s.pending = none)
    (ha : s.actions = .access (.write (s.params.base + 0) 8 v) :: rest) : step s = .next { s with actions := rest, pending := some v } := by
  have hstep := step_write (off := 0) (by decide) rfl ha
  simpa [regAt, lowReg, hostWrite, State.writeCmd_idle, hidle] using hstep

/-- A read of RESULT with BUSY = 0 logs RESULT (70_reset_and_hazards.md R317). -/
theorem step_result_idle {s : State} {rest : List HostAction} (hidle : s.pending = none)
    (ha : s.actions = .access (.read (s.params.base + 0x18) 8) :: rest) :
    step s = .next { s with actions := rest, reads := (s.params.base + 0x18, s.result) :: s.reads } := by
  have hstep := step_read (off := 0x18) (by decide) rfl ha
  simpa [regAt, lowReg, hostRead, State.busy, State.logRead, hidle] using hstep

/-- Settles O19: the four steps are the CMD write, the command, the WAIT that passes, and the read. -/
theorem awaitedResultIsVisible : Obligations.AwaitedResultIsVisible := by
  intro s t i hwf hidle ha hexec
  obtain ⟨hparams, hactions, -⟩ := registerFrame i _ t hexec
  have htidle : t.pending = none := (exec_completes hexec).pending_eq
  have hread : hostR s.params 0x18 = .access (.read (t.params.base + 0x18) 8) := by rw [hparams]; rfl
  have latched := step_cmd_idle hidle ha
  have completed := (stepRunsDecodedCommand _ (encode i) i rfl (decode_encode hwf) (.inr ⟨_, rfl⟩)).trans hexec
  have passed := step_wait_idle htidle hactions
  have seen := step_result_idle (s := { t with actions := [hostR s.params 0x18] }) htidle (congrArg (· :: []) hread)
  calc Host.Core.run core 4 s
    _ = Host.Core.run core 3 { s with pending := some (encode i), actions := [.wait, hostR s.params 0x18] } := run_succ_of_step (M := core) 3 latched
    _ = Host.Core.run core 2 t := run_succ_of_step (M := core) 2 completed
    _ = Host.Core.run core 1 { t with actions := [hostR s.params 0x18] } := run_succ_of_step (M := core) 1 passed
    _ = .next { t with actions := [], reads := (t.params.base + 0x18, t.result) :: t.reads } := run_succ_of_step (M := core) 0 seen

end Sys2Proof.Machine
end

section
/-! PROOFS. The encoding and its decoder (spec/30_encoding.md): the fields of a CMD value in numbers, which values decode and to what, and the
two directions of the round trip. -/

namespace Sys2Proof

/-! ### The fields of a CMD value in numbers (30_encoding.md R90, R91) -/

theorem highField_toNat (v : U64) : (highField v).toNat = v.toNat / 4294967296 := Machine.hi32_toNat v

theorem rsvField_toNat (v : U64) : (rsvField v).toNat = v.toNat / 256 % 256 := by
  simp [rsvField, BitVec.extractLsb'_toNat, Nat.shiftRight_eq_div_pow]

theorem opcField_toNat (v : U64) : (opcField v).toNat = v.toNat % 256 := by
  simp [opcField, BitVec.extractLsb'_toNat]

theorem lenField_toNat (v : U64) : (lenField v).toNat = v.toNat / 65536 % 65536 := by
  simp [lenField, BitVec.extractLsb'_toNat, Nat.shiftRight_eq_div_pow]

/-! ### Which values decode -/

/-- A value decodes when its high half and RSV are zero and its OPC has a row in the map, with LEN zero unless the row takes it
(30_encoding.md R97). -/
theorem decode_eq_ok_iff {v : U64} {i : Instr} :
    decode v = .ok i ↔ highField v = 0 ∧ rsvField v = 0 ∧
      ((opForm (opcField v) = some (.plain i) ∧ lenField v = 0) ∨
        ∃ mk, opForm (opcField v) = some (.sized mk) ∧ mk (lenField v).toNat = i) := by
  by_cases hhigh : highField v = 0#32
  · by_cases hrsv : rsvField v = 0#8
    · rcases hform : opForm (opcField v) with _ | (j | mk)
      · simp [decode, hhigh, hrsv, hform]
      · by_cases hlen : lenField v = 0#16 <;> simp [decode, hhigh, hrsv, hform, hlen]
      · simp [decode, hhigh, hrsv, hform]
    · simp [decode, hhigh, hrsv]
  · simp [decode, hhigh]

/-- The values that decode, whatever to: as `decode_eq_ok_iff`, by the row's form alone (30_encoding.md R97). -/
theorem exists_decode_eq_ok_iff {v : U64} :
    (∃ i, decode v = .ok i) ↔ highField v = 0 ∧ rsvField v = 0 ∧
      ∃ f, opForm (opcField v) = some f ∧ ((∃ mk, f = .sized mk) ∨ lenField v = 0) := by
  simp only [decode_eq_ok_iff]
  constructor
  · rintro ⟨i, hhigh, hrsv, ⟨hform, hzero⟩ | ⟨mk, hform, -⟩⟩
    · exact ⟨hhigh, hrsv, _, hform, .inr hzero⟩
    · exact ⟨hhigh, hrsv, _, hform, .inl ⟨mk, rfl⟩⟩
  · rintro ⟨hhigh, hrsv, i | mk, hform, hlen⟩
    · exact ⟨i, hhigh, hrsv, .inl ⟨hform, hlen.resolve_left nofun⟩⟩
    · exact ⟨_, hhigh, hrsv, .inr ⟨mk, hform, rfl⟩⟩

/-- The OPCs with a row in the opcode map are DEFINED (30_encoding.md R96, R97). -/
theorem exists_opForm_eq_some_iff {o : U8} :
    (∃ f, opForm o = some f) ↔
      o.toNat ∈ [0x00, 0x01, 0x02, 0x03, 0x04, 0x05, 0x06, 0x07, 0x08, 0x09, 0x0A, 0x40, 0x41, 0x42, 0x80, 0x81, 0xC0, 0xC1, 0xC2] := by
  constructor
  · rintro ⟨f, hform⟩
    rcases opForm_cases hform with ⟨_, _, _, _, _, hmem⟩ | ⟨_, _, _, hmem⟩ <;>
      simp only [List.mem_cons, List.not_mem_nil, or_false] at hmem ⊢ <;> omega
  · intro hmem
    simp only [List.mem_cons, List.not_mem_nil, or_false] at hmem
    rcases hmem with h | h | h | h | h | h | h | h | h | h | h | h | h | h | h | h | h | h | h <;> simp [opForm, h]

/-- The rows that take LEN are those of LENSET (30_encoding.md R94, R97). -/
theorem opForm_sized_iff {o : U8} {f : OpForm} (hform : opForm o = some f) :
    (∃ mk, f = .sized mk) ↔ o.toNat ∈ [0x03, 0x05, 0x09, 0x0A, 0x40, 0x41] := by
  rcases opForm_cases hform with ⟨i, rfl, -, -, -, hplain⟩ | ⟨mk, rfl, -, hsized⟩
  · simp only [List.mem_cons, List.not_mem_nil, or_false, reduceCtorEq, exists_false, false_iff] at hplain ⊢
    omega
  · exact iff_of_true ⟨mk, rfl⟩ hsized

/-- A command's row gives its OPC and LEN (30_encoding.md R91, R93). -/
theorem fields_of_decode {v : U64} {i : Instr} (h : decode v = .ok i) :
    i.opc = opcField v ∧ i.len = (lenField v).toNat ∧ i.wellFormed = true := by
  obtain ⟨-, -, ⟨hform, hzero⟩ | ⟨mk, hform, rfl⟩⟩ := decode_eq_ok_iff.mp h
  · rcases opForm_cases hform with ⟨j, hj, hopc, hlen, hwf, -⟩ | ⟨_, hmk, -⟩
    · cases hj
      exact ⟨hopc, by rw [hlen, hzero]; rfl, hwf⟩
    · cases hmk
  · rcases opForm_cases hform with ⟨_, hj, -⟩ | ⟨_, hmk, hfields, -⟩
    · cases hj
    · cases hmk
      obtain ⟨hopc, hlen, hwf⟩ := hfields (lenField v).toNat
      exact ⟨hopc, hlen, by rw [hwf, decide_eq_true (by omega)]⟩

/-- Settles O1, word by word. -/
theorem specWordsDecode : Obligations.SpecWordsDecode :=
  ⟨rfl, rfl, rfl, rfl, rfl, rfl, rfl, rfl, rfl, rfl, rfl⟩

/-- Settles O2: `decode_encode` reads the four fields back. -/
theorem decodeAfterEncode : Obligations.DecodeAfterEncode := fun _ hwf => decode_encode hwf

/-- Settles O3: the command has the value's OPC and LEN, and the value's other bits are zero. -/
theorem encodeAfterDecode : Obligations.EncodeAfterDecode := by
  intro v i h
  obtain ⟨hhigh, hrsv, -⟩ := decode_eq_ok_iff.mp h
  obtain ⟨hopc, hlen, hwf⟩ := fields_of_decode h
  refine ⟨?_, hwf⟩
  calc encode i
    _ = 0#32 ++ (BitVec.ofNat 16 (lenField v).toNat ++ (0#8 ++ opcField v)) := by rw [encode, hopc, hlen]
    _ = 0#32 ++ (lenField v ++ (0#8 ++ opcField v)) := by rw [BitVec.ofNat_toNat, BitVec.setWidth_eq]
    _ = v := (eq_of_fields hhigh hrsv).symm

/-- Settles O4: the fields in numbers, and the opcode map's rows by whether they take LEN. -/
theorem decodeAcceptsExactly : Obligations.DecodeAcceptsExactly := by
  intro v
  rw [← highField_toNat, ← rsvField_toNat, ← opcField_toNat, ← lenField_toNat, exists_decode_eq_ok_iff,
    ← exists_opForm_eq_some_iff, ← exists_and_right]
  have zero : ∀ {n : Nat} (x : BitVec n), x = 0 ↔ x.toNat = 0 := fun x => by simp [← BitVec.toNat_inj]
  refine and_congr (zero _) (and_congr (zero _) (exists_congr fun f => and_congr_right fun hform => ?_))
  exact or_congr (opForm_sized_iff hform) (zero _)

end Sys2Proof
end

section
/-! PROOFS. Every command completes or stops at a never written BUF entry, and which commands may change the engine, SEEDED, POOL and MIXFULL
(spec/30_encoding.md R99, R103). -/

namespace Sys2Proof.Machine

/-! ### Completion or a never written entry -/

/-- The outcomes that R103 and R46 leave a command of length `len`: a next state, or the fault of a never written entry below LEN and
BUF_WORDS. -/
def CompletesOrUnwritten (len : Nat) (s : State) (o : Host.Outcome State Fault Refusal) : Prop :=
  (∃ t, o = .next t) ∨ ∃ k, o = .fault (.bufUnwritten k) ∧ k < len ∧ k < s.params.bufWords ∧ s.buf.readWord k = none

section Outcomes

variable {len : Nat} {s : State}

theorem CompletesOrUnwritten.next (t : State) : CompletesOrUnwritten len s (.next t) := .inl ⟨t, rfl⟩

/-- A check completes in error, or leaves the outcome to the rest of the command. -/
theorem CompletesOrUnwritten.check {bad : Bool} {e : ErrCode} {rest : Host.Outcome State Fault Refusal}
    (h : bad = false → CompletesOrUnwritten len s rest) : CompletesOrUnwritten len s (check bad e s rest) := by
  cases bad with
  | false => exact h rfl
  | true => exact .next _

/-- A read of `n` entries faults at one of them, which is never written, or leaves the outcome to the rest of the command. -/
theorem CompletesOrUnwritten.withBuf {n : Nat} {rest : List U64 → Host.Outcome State Fault Refusal} (hlen : n ≤ len)
    (hbuf : n ≤ s.params.bufWords) (h : ∀ ws, CompletesOrUnwritten len s (rest ws)) :
    CompletesOrUnwritten len s (withBuf n s rest) := by
  rcases withBuf_cases (rfl : Machine.withBuf n s rest = _) with ⟨k, hk, hfault⟩ | ⟨ws, _, hrest⟩
  · obtain ⟨-, hlt, hnone⟩ := Memory.readWords_error hk
    exact .inr ⟨k, hfault, by omega, by omega, hnone⟩
  · exact hrest ▸ h ws

/-- With every entry below LEN written the fault is excluded. -/
theorem CompletesOrUnwritten.next_of_written {o : Host.Outcome State Fault Refusal} (h : CompletesOrUnwritten len s o)
    (hwritten : ∀ k, k < len → (s.buf.readWord k).isSome) : ∃ t, o = .next t := by
  rcases h with h | ⟨k, -, hk, -, hnone⟩
  · exact h
  · have hsome := hwritten k hk
    simp [hnone] at hsome

end Outcomes

/-- Every command completes or faults as `CompletesOrUnwritten` says: the four that read BUF have checked LEN against BUF_WORDS before, and
the three that read STATE_WORDS entries have checked that these are no more than LEN (44_engine_commands.md R235, R241, R242). -/
theorem exec_completesOrUnwritten (i : Instr) (s : State) : CompletesOrUnwritten i.len s (exec i s) := by
  cases i
  case engSeedbuf len =>
    refine .check fun hbuf => .check fun hwords => ?_
    simp only [decide_eq_false_iff_not, not_lt] at hbuf hwords
    exact .withBuf hwords (hwords.trans hbuf) fun _ => .next _
  case engLoad len =>
    refine .check fun hbuf => .check fun hwords => ?_
    simp only [decide_eq_false_iff_not, not_lt, not_not] at hbuf hwords
    exact .withBuf hwords.ge (hwords ▸ hbuf) fun _ => .check fun _ => .next _
  case engEq len =>
    refine .check fun hbuf => .check fun _ => .check fun hwords => ?_
    simp only [decide_eq_false_iff_not, not_lt, not_not] at hbuf hwords
    exact .withBuf hwords.ge (hwords ▸ hbuf) fun _ => .next _
  case smxSeed len =>
    refine .check fun hbuf => ?_
    simp only [decide_eq_false_iff_not, not_lt] at hbuf
    exact .withBuf le_rfl hbuf fun _ => .next _
  case engGen | smxGen | engJump => exact .check fun _ => .check fun _ => .next _
  case engSeedmix | engNext | engDiscard | engSave | smxParam => exact .check fun _ => .next _
  case engSeeddef | engSeed | hshH64 | hshH32 | ctlNop | ctlClrerr | ctlReset => exact .next _

/-- Settles O23, by the outcomes of every command. -/
theorem commandsCompleteOrFaultUnwritten : Obligations.CommandsCompleteOrFaultUnwritten := fun i s =>
  ⟨exec_completesOrUnwritten i s, (exec_completesOrUnwritten i s).next_of_written⟩

/-! ### The frame of the engine and the mixer -/

/-- An error state keeps the engine (60_exceptions.md R290). -/
theorem Raises.eng_eq {s t : State} (h : Raises s t) : t.eng = s.eng := by
  obtain ⟨e, -, rfl⟩ := h
  rfl

/-- The nine commands that seed no engine and take no output from it keep it (30_encoding.md R99). `Completes` does not say so, since it puts
most of them together with those that advance the engine. -/
theorem exec_eng_eq {i : Instr} {s t : State} (h : exec i s = .next t)
    (hi : i.opc ∉ [0x00, 0x01, 0x02, 0x03, 0x04, 0x05, 0x06, 0x07, 0x09, 0xC2]) : t.eng = s.eng := by
  cases i
  case engSave => rcases execEngSave_next h with h | ⟨_, rfl⟩; exacts [h.eng_eq, rfl]
  case engEq => rcases execEngEq_next h with h | ⟨_, _, _, _, _, rfl⟩; exacts [h.eng_eq, rfl]
  case smxSeed => rcases execSmxSeed_next h with h | ⟨_, _, _, rfl⟩; exacts [h.eng_eq, rfl]
  case smxGen => rcases execSmxGen_next h with h | ⟨_, _, rfl⟩; exacts [h.eng_eq, rfl]
  case smxParam => rcases execSmxParam_next h with h | ⟨_, rfl⟩; exacts [h.eng_eq, rfl]
  case hshH64 => rw [execHshH64_next h]; rfl
  case hshH32 => rw [execHshH32_next h]; rfl
  case ctlNop => rw [execCtlNop_next h]; rfl
  case ctlClrerr => rw [execCtlClrerr_next h]; rfl
  all_goals exact absurd (by simp [Instr.opc]) hi

/-- Only the five commands that seed, and CTL.RESET, write SEEDED (10_state.md R36). -/
theorem Completes.seeded_eq {i : Instr} {s t : State} (h : Completes i s t)
    (hi : i.opc ∉ [0x00, 0x01, 0x02, 0x03, 0x09, 0xC2]) : t.seeded = s.seeded := by
  cases h
  case installed hseeds _ =>
    have hmem := List.mem_append_left [0xC2] hseeds
    exact absurd hmem hi
  case reset h => subst h; simp [Instr.opc] at hi
  all_goals rfl

/-- Only SMX.SEED and CTL.RESET write POOL and MIXFULL (10_state.md R37, R53). -/
theorem Completes.pool_mixfull_eq {i : Instr} {s t : State} (h : Completes i s t) (hi : i.opc ∉ [0x40, 0xC2]) :
    t.pool = s.pool ∧ t.mixfull = s.mixfull := by
  cases h
  case absorbed habsorbs =>
    have hmem := List.mem_append_left [0xC2] habsorbs
    exact absurd hmem hi
  case reset h => subst h; simp [Instr.opc] at hi
  all_goals exact ⟨rfl, rfl⟩

/-- Settles O25: the engine command by command, the rest by the ways in which a command completes. -/
theorem engineAndMixerFrame : Obligations.EngineAndMixerFrame := by
  intro i s t h
  have hc := exec_completes h
  exact ⟨exec_eng_eq h, hc.seeded_eq, hc.pool_mixfull_eq⟩

end Sys2Proof.Machine
end

section
/-! PROOFS. The hash unit: its two hashes as bijections that fix 0 (40_hash.md section 1), and its two commands written out (R115, R116). -/

namespace Sys2Proof.Machine

/-! ### The 32-bit hash and its bijectivity -/

/-- A round of Hash32 folds and then multiplies (40_hash.md R112, R114): R112 writes the fold's two halves in the other order. -/
theorem hash32Round_eq (c : Params) (x : U32) : hash32Round c x = fold32 x * c.h32Mult :=
  congrArg (· * c.h32Mult) (BitVec.xor_comm _ _)

/-- A round of Hash32 is injective for an odd multiplier: both its halves are (40_hash.md R113). -/
theorem hash32Round_injective {c : Params} (h : isOdd c.h32Mult = true) : Function.Injective (hash32Round c) := by
  intro x y e
  rw [hash32Round_eq, hash32Round_eq] at e
  exact fold32_injective (mul_odd_injective h e)

/-- Hash32 is injective for an odd multiplier (40_hash.md R113). -/
theorem hash32_injective {c : Params} (h : isOdd c.h32Mult = true) : Function.Injective (hash32 c) :=
  fun _ _ e => hash32Round_injective h (hash32Round_injective h (fold32_injective e))

/-- Hash32 fixes 0 (40_hash.md R113). -/
theorem hash32_zero (c : Params) : hash32 c 0 = 0 := by simp [hash32, hash32Round, fold32]

/-- Settles O29: an injective function on the finitely many words is bijective. -/
theorem hashesAreBijections : Obligations.HashesAreBijections := by
  intro c hwf
  obtain ⟨h64, h32, -⟩ := Params.wf_mults hwf
  exact ⟨(hash64_injective h64).bijective_of_finite, hash64_zero c, (hash32_injective h32).bijective_of_finite, hash32_zero c⟩

/-! ### The two commands -/

/-- Hash64 is two rounds and a fold, the fold's halves in R110's order. -/
theorem hash64_eq (c : Params) (x : U64) :
    hash64 c x = (hash64Round c (hash64Round c x) >>> 32) ^^^ hash64Round c (hash64Round c x) := BitVec.xor_comm _ _

/-- Hash32 is two rounds and a fold, the fold's halves in R112's order. -/
theorem hash32_eq (c : Params) (x : U32) :
    hash32 c x = (hash32Round c (hash32Round c x) >>> 16) ^^^ hash32Round c (hash32Round c x) := BitVec.xor_comm _ _

/-- HSH.H64 completes with Hash64 of ARG0 in RESULT (40_hash.md R115). -/
theorem exec_hshH64 (s : State) :
    exec .hshH64 s = .next { s with result := hash64 s.params s.arg0, err := .ok, pending := none } := rfl

/-- HSH.H32 completes with Hash32 of ARG0's low half in RESULT, zero-extended (40_hash.md R116). -/
theorem exec_hshH32 (s : State) :
    exec .hshH32 s = .next { s with result := (hash32 s.params (s.arg0.setWidth 32)).setWidth 64, err := .ok, pending := none } := by
  rw [← lo32_eq_setWidth]
  rfl

/-- Settles O28, by the command's completion and the hash written out. -/
theorem hashCommands : Obligations.HashCommands := by
  intro s
  constructor
  · rw [exec_hshH64, hash64_eq]
    rfl
  · rw [exec_hshH32, hash32_eq]
    rfl

end Sys2Proof.Machine
end

section
/-! PROOFS. The seed mixer: Absorb call by call (41_seed_mixer.md R131-R136), Generate word by word (R137), Param as Absorb's inverse on COUNT
words (R139-R141), and the three commands (R142-R144). -/

namespace Sys2Proof.Machine

/-! ### The initial absorption -/

/-- Slot k of the initial absorption is the keyed hash of input word k, or of 0 when there is none, as call k (41_seed_mixer.md R131, R133). -/
theorem absorbInit_getElem? (c : Params) {n k : Nat} (ka : U32) (ins : List U32) (hk : k < n) :
    (absorbInit c n ka ins).pool[k]? = some (keyedHashA c (ka * c.smxMultA ^ k) (ins.getD k 0)) := by
  induction n generalizing k ka ins with
  | zero => omega
  | succ n ih =>
    cases k with
    | zero => cases ins <;> simp [absorbInit]
    | succ k =>
      have hkey : nextKeyA c ka * c.smxMultA ^ k = ka * c.smxMultA ^ (k + 1) := by rw [nextKeyA, mul_assoc, ← pow_succ']
      have htail : ins.tail.getD k 0 = ins.getD (k + 1) 0 := by cases ins <;> rfl
      rw [absorbInit, List.getElem?_cons_succ, ih _ _ (by omega), hkey, htail]

/-- Settles O32, by induction on the slots. -/
theorem initialAbsorption : Obligations.InitialAbsorption := by
  intro c n ins
  refine ⟨absorbInit_ka c n c.smxInitA ins, fun k hk => ?_⟩
  rw [absorbInit_getElem? c c.smxInitA ins hk, keyedHashA, mul_assoc, ← pow_succ]
  rfl

/-- With no word past COUNT, Absorb is the initial absorption and the pairwise phase (41_seed_mixer.md R133). -/
theorem absorb_of_length_le {c : Params} {ins : List U32} (h : ins.length ≤ c.smxCount) :
    absorb c ins = (crossMix c (absorbInit c c.smxCount c.smxInitA ins) (mixPairs c.smxCount)).pool := by
  rw [absorb, List.drop_eq_nil_of_le h]
  rfl

/-- Settles O33: the initial absorption reads a missing word as 0, and no word is past COUNT either way. -/
theorem absorbPadsWithZeros : Obligations.AbsorbPadsWithZeros := by
  intro c ins h
  have hinit : absorbInit c c.smxCount c.smxInitA ins =
      absorbInit c c.smxCount c.smxInitA (ins ++ List.replicate (c.smxCount - ins.length) 0) :=
    absorbInit_congr c _ _ _ _ fun k hk => by
      rcases lt_or_ge k ins.length with hin | hpad
      · rw [List.getD_append _ _ _ _ hin]
      · rw [List.getD_eq_default _ _ hpad, List.getD_append_right _ _ _ _ hpad, List.getD_replicate _ (Nat.sub_lt_sub_right hpad hk)]
  rw [absorb_of_length_le h.le, absorb_of_length_le (by simp; omega), hinit]

/-! ### Absorb call by call -/

/-- The pool and the key after the initial absorption and `i` further calls of KeyedHashA: `absorbAfter` with the key of its next call. -/
def absorbingAfter (c : Params) (ins : List U32) (i : Nat) : Absorbing := ⟨absorbAfter c ins i, keyA c (c.smxCount + i)⟩

/-- Call j of the keyed hash uses K_j and then K_{j+1} (41_seed_mixer.md R131, R141). -/
theorem keyedHashA_keyA (c : Params) (j : Nat) (v : U32) :
    keyedHashA c (keyA c j) v = smxFold c ((v ^^^ keyA c j) * keyA c (j + 1)) :=
  congrArg (fun k => smxFold c ((v ^^^ keyA c j) * k)) (keyA_succ c j)

/-- The transcription's keyed hash is the model's, at the key of its call (41_seed_mixer.md R131). -/
theorem absorbAfter_hash_eq (c : Params) (j : Nat) (v : U32) : absorbAfter.hash c j v = keyedHashA c (keyA c j) v :=
  (keyedHashA_keyA c j v).symm

/-- Before any further call stands the initial absorption (41_seed_mixer.md R133). -/
theorem absorbingAfter_zero (c : Params) (ins : List U32) :
    absorbingAfter c ins 0 = absorbInit c c.smxCount c.smxInitA ins := by
  have hpool : absorbAfter c ins 0 = (absorbInit c c.smxCount c.smxInitA ins).pool := by
    apply List.ext_getElem?
    intro k
    by_cases hk : k < c.smxCount
    · rw [absorbInit_getElem? c c.smxInitA ins hk]
      simp [absorbAfter, hk, absorbAfter_hash_eq, keyA]
    · rw [List.getElem?_eq_none (by simpa [absorbAfter] using hk), List.getElem?_eq_none (by simpa [absorbInit_length] using hk)]
  rw [absorbingAfter, hpool, Nat.add_zero, keyA, ← absorbInit_ka c c.smxCount c.smxInitA ins]

/-- Call i of the pairwise phase mixes its source slot into its destination slot (41_seed_mixer.md R133, R134). -/
theorem absorbingAfter_succ_cross (c : Params) (ins : List U32) {i : Nat} (h : i < crossCalls c) :
    absorbingAfter c ins (i + 1) = mixInto c (absorbingAfter c ins i)
      (if i % (c.smxCount - 1) < i / (c.smxCount - 1) % c.smxCount then i % (c.smxCount - 1) else i % (c.smxCount - 1) + 1)
      ((absorbAfter c ins i).getD (i / (c.smxCount - 1) % c.smxCount) 0) := by
  simp only [absorbingAfter, absorbAfter, if_neg (Nat.not_le_of_lt h), absorbAfter_hash_eq, mixInto, keyA_succ]
  rfl

/-- Call r after the pairwise phase mixes an input word past COUNT into slot r mod COUNT (41_seed_mixer.md R133). -/
theorem absorbingAfter_succ_rest (c : Params) (ins : List U32) (r : Nat) :
    absorbingAfter c ins (crossCalls c + r + 1) = mixInto c (absorbingAfter c ins (crossCalls c + r)) (r % c.smxCount)
      (ins.getD (c.smxCount + r / c.smxCount) 0) := by
  simp only [absorbingAfter, absorbAfter, if_pos (Nat.le_add_right _ _), Nat.add_sub_cancel_left, absorbAfter_hash_eq, mixInto, keyA_succ]
  rfl

/-- The pairwise phase takes the calls one by one (41_seed_mixer.md R133, R134). -/
theorem crossMix_eq_absorbingAfter (c : Params) (ins : List U32) :
    crossMix c (absorbInit c c.smxCount c.smxInitA ins) (mixPairs c.smxCount) = absorbingAfter c ins (crossCalls c) := by
  have hlen : (mixPairs c.smxCount).length = crossCalls c := mixPairs_length c.smxCount
  rw [← absorbingAfter_zero, crossMix, ← hlen]
  refine foldl_eq_of_steps _ (absorbingAfter c ins) _ fun i p hp => ?_
  have hi : i < crossCalls c := hlen ▸ (List.getElem?_eq_some_iff.mp hp).1
  obtain rfl := Option.some.inj ((mixPairs_getElem? hi).symm.trans hp)
  exact absorbingAfter_succ_cross c ins hi

/-- Word k past COUNT takes COUNT calls, one a slot (41_seed_mixer.md R133). -/
theorem mixRest_absorbingAfter (c : Params) (ins : List U32) (k : Nat) :
    mixRest c (absorbingAfter c ins (crossCalls c + k * c.smxCount)) (ins.getD (c.smxCount + k) 0) =
      absorbingAfter c ins (crossCalls c + (k + 1) * c.smxCount) := by
  have hfold := foldl_eq_of_steps (fun a d => mixInto c a d (ins.getD (c.smxCount + k) 0))
    (fun d => absorbingAfter c ins (crossCalls c + (k * c.smxCount + d))) (List.range c.smxCount) fun i d hd => by
      obtain ⟨hi, rfl⟩ : i < c.smxCount ∧ i = d := by simpa [List.getElem?_eq_some_iff] using hd
      have hmod : (k * c.smxCount + i) % c.smxCount = i := by rw [Nat.mul_add_mod_self_right, Nat.mod_eq_of_lt hi]
      have hdiv : (k * c.smxCount + i) / c.smxCount = k := by
        rw [Nat.mul_comm, Nat.mul_add_div (by omega), Nat.div_eq_of_lt hi, Nat.add_zero]
      have hcall := absorbingAfter_succ_rest c ins (k * c.smxCount + i)
      rwa [hmod, hdiv] at hcall
  rw [List.length_range, ← Nat.succ_mul] at hfold
  exact hfold

/-- Absorb is its KeyedHashA calls one by one (41_seed_mixer.md R131-R134). -/
theorem absorb_eq_absorbAfter (c : Params) (ins : List U32) : absorb c ins = absorbAfter c ins (absorbCalls c ins.length) := by
  have hrest := foldl_eq_of_steps (mixRest c) (fun k => absorbingAfter c ins (crossCalls c + k * c.smxCount)) (ins.drop c.smxCount)
    fun k w hw => by
      have hword : ins.getD (c.smxCount + k) 0 = w := by
        rw [List.getD_eq_getElem?_getD, ← List.getElem?_drop, hw, Option.getD_some]
      rw [← mixRest_absorbingAfter, hword]
  rw [Nat.zero_mul, Nat.add_zero, ← crossMix_eq_absorbingAfter, List.length_drop] at hrest
  exact congrArg Absorbing.pool hrest

/-- SMX.SEED with written entries absorbs their low halves (41_seed_mixer.md R142). -/
theorem exec_smxSeed {s : State} {ws : List U64} (hlen : ws.length ≤ s.params.bufWords) (hbuf : s.bufHolds ws) :
    exec (.smxSeed ws.length) s = .next { s with pool := absorb s.params (lowWords ws), mixfull := true }.succeed := by
  have hread : s.buf.readWords 0 ws.length = .ok ws := Memory.readWords_eq_ok fun j hj => by rw [Nat.zero_add]; exact hbuf j hj
  simp only [exec, execSmxSeed, decide_eq_false (Nat.not_lt.mpr hlen), check_false, withBuf_ok hread]

/-- The low halves of BUF's words, as R142 truncates them. -/
theorem lowWords_eq_map (ws : List U64) : lowWords ws = ws.map (·.setWidth 32) := List.map_congr_left fun v _ => lo32_eq_setWidth v

/-- Settles O31, by the calls of the pairwise phase and then those of the words past COUNT. -/
theorem smxSeedCommand : Obligations.SmxSeedCommand :=
  ⟨absorb_eq_absorbAfter, fun s ws hlen hbuf => by rw [exec_smxSeed hlen hbuf, lowWords_eq_map]; rfl⟩

/-! ### Generate and its command -/

/-- Word i from position j on has the key after i advances, however many words are asked for (41_seed_mixer.md R137, R138). -/
theorem generateFrom_getElem? (c : Params) (pool : List U32) {m i : Nat} (j : Nat) (kb : U32) (hi : i < m) :
    (generateFrom c pool m j kb)[i]? =
      some (smxFold c ((pool.getD ((j + i) % c.smxCount) 0 ^^^ (kb * c.smxMultB ^ i)) * (kb * c.smxMultB ^ (i + 1)))) := by
  induction m generalizing i j kb with
  | zero => omega
  | succ m ih =>
    cases i with
    | zero => simp [generateFrom]
    | succ i =>
      have hkey (e : Nat) : kb * c.smxMultB * c.smxMultB ^ e = kb * c.smxMultB ^ (e + 1) := by rw [mul_assoc, ← pow_succ']
      rw [generateFrom, List.getElem?_cons_succ, ih _ _ (by omega), hkey, hkey, Nat.add_right_comm, Nat.add_assoc]

/-- Settles O34, by induction on how many words are asked for. -/
theorem generateWords : Obligations.GenerateWords := by
  intro c pool m
  refine ⟨generateFrom_length c pool m 0 c.smxInitB, fun j hj => ?_⟩
  rw [generate, generateFrom_getElem? c pool 0 c.smxInitB hj, Nat.zero_add]
  rfl

/-- What each entry reads as after u32 words were written from BUF[0] on, zero-extended (10_state.md R46). -/
theorem Memory.readWord_writeWords_wideWords {m : Memory} (hm : m.wf) (ws : List U32) (k : Nat) :
    (m.writeWords 0 (wideWords ws)).readWord k = if k < ws.length then ws[k]?.map (·.setWidth 64) else m.readWord k := by
  rw [Memory.readWord_writeWords hm, wideWords, List.length_map, Nat.zero_add, Nat.sub_zero, List.getElem?_map]
  simp only [Nat.zero_le, true_and]
  rfl

/-- SMX.GEN with a full pool stores Generate's words (41_seed_mixer.md R143). -/
theorem exec_smxGen {s : State} {len : Nat} (hlen : len ≤ s.params.bufWords) (hfull : s.mixfull = true) :
    exec (.smxGen len) s = .next { s with buf := s.buf.writeWords 0 (wideWords (generate s.params s.pool len)) }.succeed := by
  simp only [exec, execSmxGen, decide_eq_false (Nat.not_lt.mpr hlen), hfull, Bool.not_true, check_false]

/-- Settles O35, by the words written and their number. -/
theorem smxGenCommand : Obligations.SmxGenCommand := by
  intro s len hwf hlen hfull
  have hread := Memory.readWord_writeWords_wideWords hwf (generate s.params s.pool len)
  rw [(generateWords s.params s.pool len).1] at hread
  refine ⟨_, exec_smxGen hlen hfull, rfl, fun k hk => ?_, fun k hk => ?_⟩
  · rw [State.succeed_buf, hread, if_pos hk]
  · rw [State.succeed_buf, hread, if_neg (Nat.not_lt.mpr hk)]

/-! ### Param and its command -/

/-- SMX.PARAM with a full pool stores Param's words and their number (41_seed_mixer.md R144). -/
theorem exec_smxParam {s : State} (hfull : s.mixfull = true) :
    exec .smxParam s = .next { s with
      buf := s.buf.writeWords 0 (wideWords (param s.params s.pool))
      result := BitVec.ofNat 64 s.params.smxCount }.succeed := by
  simp only [exec, execSmxParam, hfull, Bool.not_true, check_false]

/-- Settles O36, by the words written and their number. -/
theorem smxParamCommand : Obligations.SmxParamCommand := by
  intro s hI hfull
  have hread := Memory.readWord_writeWords_wideWords hI.canonical (param s.params s.pool)
  rw [param_length, hI.pool] at hread
  refine ⟨_, exec_smxParam hfull, rfl, fun k hk => ?_, fun k hk => ?_⟩
  · rw [State.succeed_buf, hread, if_pos hk]
  · rw [State.succeed_buf, hread, if_neg (Nat.not_lt.mpr hk)]

/-- The pairwise phase from key K_j on is one step and the rest of the phase from key K_{j+1} on (41_seed_mixer.md R131, R133). -/
theorem crossMix_cons (c : Params) (pool : List U32) (j : Nat) (p : Nat × Nat) (ps : List (Nat × Nat)) :
    crossMix c ⟨pool, keyA c j⟩ (p :: ps) =
      crossMix c ⟨(mixInto c ⟨pool, keyA c j⟩ p.2 (pool.getD p.1 0)).pool, keyA c (j + 1)⟩ ps := by
  rw [← keyA_succ]
  rfl

section Inverse
variable {c : Params} (hx : c.smxXshift = 16)
include hx

/-- Undoing the pairwise phase gives the pool before it (41_seed_mixer.md R140, R141). -/
theorem unmixAll_crossMix (hl : isOdd c.smxMixL = true) {pairs : List (Nat × Nat)}
    (hne : ∀ p ∈ pairs, p.2 ≠ p.1) (pool : List U32) (j : Nat) :
    unmixAll c (crossMix c ⟨pool, keyA c j⟩ pairs).pool j pairs = pool := by
  induction pairs generalizing pool j with
  | nil => rfl
  | cons p ps ih =>
    obtain ⟨hp, hps⟩ := List.forall_mem_cons.mp hne
    rw [crossMix_cons, unmixAll, ih hps, unmix_mixInto hx hl pool hp]

/-- The pairwise phase gives back the pool it was undone from (41_seed_mixer.md R140, R141). -/
theorem crossMix_unmixAll (hl : isOdd c.smxMixL = true) {pairs : List (Nat × Nat)}
    (hne : ∀ p ∈ pairs, p.2 ≠ p.1) (pool : List U32) (j : Nat) :
    (crossMix c ⟨unmixAll c pool j pairs, keyA c j⟩ pairs).pool = pool := by
  induction pairs generalizing j with
  | nil => rfl
  | cons p ps ih =>
    obtain ⟨hp, hps⟩ := List.forall_mem_cons.mp hne
    rw [crossMix_cons, unmixAll, mixInto_unmix hx hl _ hp, ih hps]

/-- Undoing the initial absorption gives the words absorbed (41_seed_mixer.md R140, R141). -/
theorem unabsorbInit_absorbInit (hodd : ∀ j, isOdd (keyA c j) = true) (ws : List U32) (k : Nat) :
    unabsorbInit c k (absorbInit c ws.length (keyA c k) ws).pool = ws := by
  induction ws generalizing k with
  | nil => rfl
  | cons w ws ih =>
    have hslot : (fold32 (keyedHashA c (keyA c k) w) * inv32 (keyA c (k + 1))) ^^^ keyA c k = w := by
      rw [keyedHashA_keyA, smxFold_eq hx, fold32_fold32, mul_assoc, mul_inv32 _ (hodd (k + 1)), mul_one, BitVec.xor_assoc, BitVec.xor_self,
        BitVec.xor_zero]
    rw [List.length_cons, absorbInit, unabsorbInit, keyA_succ, List.tail_cons, ih, List.headD_cons, hslot]

/-- The initial absorption gives back the slots it was undone from (41_seed_mixer.md R140, R141). -/
theorem absorbInit_unabsorbInit (hodd : ∀ j, isOdd (keyA c j) = true) (pool : List U32) (k : Nat) :
    absorbInit c pool.length (keyA c k) (unabsorbInit c k pool) = ⟨pool, keyA c (k + pool.length)⟩ := by
  induction pool generalizing k with
  | nil => rfl
  | cons p ps ih =>
    have hcancel : fold32 p * inv32 (keyA c (k + 1)) * keyA c (k + 1) = fold32 p := by
      rw [mul_assoc, mul_comm (inv32 _), mul_inv32 _ (hodd (k + 1)), mul_one]
    have hslot : keyedHashA c (keyA c k) ((fold32 p * inv32 (keyA c (k + 1))) ^^^ keyA c k) = p := by
      rw [keyedHashA_keyA, smxFold_eq hx, BitVec.xor_assoc, BitVec.xor_self, BitVec.xor_zero, hcancel, fold32_fold32]
    rw [List.length_cons, unabsorbInit, absorbInit, keyA_succ, List.tail_cons, ih, List.headD_cons, hslot, Nat.add_right_comm, Nat.add_assoc]

end Inverse

/-- Settles O37: the initial absorption, then the pairwise phase, each undoes its undoing. -/
theorem paramReproducesPool : Obligations.ParamReproducesPool := by
  intro c pool hwf hodd hpool
  obtain ⟨-, -, -, hmultA, hmixL, hx⟩ := Params.wf_mults hwf
  have hlen : (param c pool).length = c.smxCount := (param_length c pool).trans hpool
  refine ⟨hlen, ?_⟩
  have hslots := absorbInit_unabsorbInit hx (isOdd_keyA hodd hmultA) (unmixAll c pool c.smxCount (mixPairs c.smxCount)) 0
  rw [unmixAll_length, hpool, keyA_zero, Nat.zero_add] at hslots
  rw [absorb_of_length_le hlen.le, param, hslots, crossMix_unmixAll hx hmixL (mixPairs_ne c.smxCount)]

/-- Settles O38: undoing the pairwise phase, then the initial absorption, gives back the words. -/
theorem paramRecoversWords : Obligations.ParamRecoversWords := by
  intro c ws hwf hodd hws
  obtain ⟨-, -, -, hmultA, hmixL, hx⟩ := Params.wf_mults hwf
  have hkey : (absorbInit c c.smxCount c.smxInitA ws).ka = keyA c c.smxCount := absorbInit_ka c c.smxCount c.smxInitA ws
  have hpairs := unmixAll_crossMix hx hmixL (mixPairs_ne c.smxCount) (absorbInit c c.smxCount c.smxInitA ws).pool c.smxCount
  have hslots := unabsorbInit_absorbInit hx (isOdd_keyA hodd hmultA) ws 0
  rw [← hkey] at hpairs
  rw [hws, keyA_zero] at hslots
  rw [absorb_of_length_le hws.le, param, hpairs, hslots]

end Sys2Proof.Machine
end

section
/-! PROOFS. The CMWC step in natural numbers (spec/42_cmwc.md R161), ENG.NEXT on CMWC, and the bound on the carry (R175). -/

namespace Sys2Proof.Machine

/-! ### The CMWC step in natural numbers -/

/-- t in numbers (42_cmwc.md R161, R177). -/
theorem cmwcProduct_toNat (c : Params) (q carry : U32) :
    (cmwcProduct c q carry).toNat = (c.cmwcA.toNat * q.toNat + carry.toNat) % 2 ^ 64 := by
  rw [cmwcProduct, BitVec.toNat_add, BitVec.toNat_mul, zext64_toNat, zext64_toNat, Nat.mod_add_mod]

/-- x and CARRY after the overflow correction, in numbers: both gain 1 when the sum of t's halves overflows (42_cmwc.md R161). -/
theorem cmwcCore_toNat {c : Params} {q carry : U32} {t h x : Nat} (ht : t = (c.cmwcA.toNat * q.toNat + carry.toNat) % 2 ^ 64)
    (hh : h = t / 2 ^ 32) (hx : x = (t % 2 ^ 32 + h) % 2 ^ 32) :
    (cmwcCore c q carry).1.toNat = (if x < h then (x + 1) % 2 ^ 32 else x) ∧
      (cmwcCore c q carry).2.toNat = if x < h then (h + 1) % 2 ^ 32 else h := by
  have hhi : (hi32 (cmwcProduct c q carry)).toNat = h := by
    rw [hi32_toNat, cmwcProduct_toNat, ← ht, hh]
    rfl
  have hsum : (lo32 (cmwcProduct c q carry) + hi32 (cmwcProduct c q carry)).toNat = x := by
    rw [BitVec.toNat_add, hhi, lo32_toNat, cmwcProduct_toNat, ← ht, hx]
    rfl
  simp only [cmwcCore, BitVec.lt_def, hhi, hsum]
  split
  · have hone : (1 : U32).toNat = 1 := rfl
    simp only [BitVec.toNat_add, hhi, hsum, hone, and_self]
  · exact ⟨hsum, hhi⟩

/-- The stored word in numbers, the complement modulo 2^32 (42_cmwc.md R161, R162). -/
theorem cmwcStored_toNat (c : Params) (x : U32) :
    (cmwcStored c x).toNat = if c.cmwcCompl then (0xFFFFFFFE + 2 ^ 32 - x.toNat) % 2 ^ 32 else x.toNat := by
  unfold cmwcStored
  split
  · have hcompl : (0xFFFFFFFE : U32).toNat = 0xFFFFFFFE := rfl
    rw [BitVec.toNat_sub, hcompl, Nat.add_comm, ← Nat.add_sub_assoc x.isLt.le]
  · rfl

/-- ENG.NEXT on a seeded engine completes with Next!'s output and engine (44_engine_commands.md R236). -/
theorem exec_engNext {s : State} (hseeded : s.seeded = true) :
    exec .engNext s = .next { s with result := (engineNext s.params s.eng).1, eng := (engineNext s.params s.eng).2 }.succeed := by
  simp only [exec, execEngNext, hseeded, Bool.not_true, check_false]

/-- Settles O44: the cursor, the corrected sum and the stored word, each in numbers. -/
theorem cmwcNextCommand : Obligations.CmwcNextCommand := by
  intro s hwf hk hseeded i t carry x x' carry' out
  have hcur : cmwcNextCur s.params s.eng.cur = i := Params.and_cmwcN hwf hk _
  obtain ⟨hx', hcarry'⟩ : (cmwcCore s.params (s.eng.q.getD i 0) s.eng.carry).1.toNat = x' ∧
      (cmwcCore s.params (s.eng.q.getD i 0) s.eng.carry).2.toNat = carry' := cmwcCore_toNat rfl rfl rfl
  have hout : (cmwcStored s.params (cmwcCore s.params (s.eng.q.getD i 0) s.eng.carry).1).toNat = out := by
    rw [cmwcStored_toNat, hx']
  have hstep : cmwcStep s.params s.eng =
      (BitVec.ofNat 32 out, { s.eng with q := s.eng.q.set i (BitVec.ofNat 32 out), carry := BitVec.ofNat 32 carry', cur := i }) := by
    simp only [cmwcStep, hcur, ← hout, ← hcarry', BitVec.ofNat_toNat, BitVec.setWidth_eq]
  have hzext : zext64 (BitVec.ofNat 32 out) = BitVec.ofNat 64 out := by
    rw [← hout, BitVec.ofNat_toNat, BitVec.setWidth_eq, BitVec.ofNat_toNat, zext64]
  rw [exec_engNext hseeded, engineNext, hk]
  simp only [hstep, hzext]
  rfl

/-! ### The carry bound -/

/-- For A < 2^32 the carry of a step is at most A: t ≤ (A + 1)·(2^32 - 1), so t's high half h is at most A, and for h = A the low half is so
small that the sum of the two does not overflow (the spec's own inference R175). -/
theorem cmwcCore_carry_le {c : Params} (hA : c.cmwcA.toNat < 2 ^ 32) (q carry : U32) :
    (cmwcCore c q carry).2.toNat ≤ c.cmwcA.toNat := by
  have hbound : c.cmwcA.toNat * q.toNat + carry.toNat ≤ c.cmwcA.toNat * (2 ^ 32 - 1) + (2 ^ 32 - 1) :=
    Nat.add_le_add (Nat.mul_le_mul_left _ (Nat.le_sub_one_of_lt q.isLt)) (Nat.le_sub_one_of_lt carry.isLt)
  obtain ⟨t, ht⟩ : ∃ t, t = c.cmwcA.toNat * q.toNat + carry.toNat := ⟨_, rfl⟩
  rw [← ht] at hbound
  have hexact : t = (c.cmwcA.toNat * q.toNat + carry.toNat) % 2 ^ 64 := by
    rw [← ht, Nat.mod_eq_of_lt (by omega)]
  rw [(cmwcCore_toNat hexact rfl rfl).2]
  have hhigh : t / 2 ^ 32 ≤ c.cmwcA.toNat := by omega
  split
  · next hoverflow =>
    have hne : t / 2 ^ 32 ≠ c.cmwcA.toNat := by omega
    exact (Nat.mod_le _ _).trans (Nat.lt_of_le_of_ne hhigh hne)
  · exact hhigh

/-- The carry bound for a step of any engine state (42_cmwc.md R175). -/
theorem cmwcStep_carry_le {c : Params} (hA : c.cmwcA.toNat < 2 ^ 32) (e : Engine) :
    (cmwcStep c e).2.carry.toNat ≤ c.cmwcA.toNat := cmwcCore_carry_le hA _ _

/-- One or more steps leave the carry at most A (42_cmwc.md R175). -/
theorem cmwcDiscard_carry_le {c : Params} (hA : c.cmwcA.toNat < 2 ^ 32) {z : Nat} (hz : 0 < z) (e : Engine) :
    (cmwcDiscard c z e).carry.toNat ≤ c.cmwcA.toNat := by
  obtain ⟨n, rfl⟩ := Nat.exists_eq_add_one.mpr hz
  rw [cmwcDiscard, Function.iterate_succ_apply']
  exact cmwcStep_carry_le hA _

/-- Settles O45: the bound of one step, and that the warm-up of ENG.SEED takes at least one. -/
theorem carryBound : Obligations.CarryBound := by
  intro s hwf hk hA
  refine ⟨cmwcStep_carry_le hA, fun hmax t h => ?_⟩
  have hN := (Params.wf_cmwc hwf hk).1
  rw [execEngSeed_next h, State.succeed_eng, State.installEngine_eng, seedScalar, hk]
  exact (cmwcDiscard_carry_le hA (by omega) _).trans_lt hmax

end Sys2Proof.Machine
end

section
/-! PROOFS. ENG.JUMP, ENG.SAVE and ENG.LOAD (spec/44_engine_commands.md R239-R241): the jump run, the image word by word, and the value check
and installation of a loaded image. -/

namespace Sys2Proof.Machine

/-! ### ENG.JUMP -/

/-- Settles O51: the run is that of `xJump`, and on CMWC the first check fails (60_exceptions.md R284, R289). -/
theorem jumpCommand : Obligations.JumpCommand := by
  intro s
  refine ⟨fun hk hseeded => ⟨fun n => xJump s.params n s.eng, rfl, fun n => Function.iterate_succ_apply' _ _ _, ?_⟩, fun hk => ?_⟩
  · simp only [exec, execEngJump, beq_eq_false_iff_ne.mpr hk, hseeded, Bool.not_true, check_false]
    rfl
  · simp only [exec, execEngJump, beq_iff_eq.mpr hk, check_true]
    rfl

/-! ### ENG.SAVE -/

/-- The image of XSH1024S word by word: S from the cursor, wrapped (43_xoroshiro.md R197). -/
theorem xImage_1024_getElem? {c : Params} (h6 : c.kind = .xsh1024s) (e : Engine) {k : Nat} (hk : k < 16) :
    (engineImage c e)[k]? = some (e.s.toList.getD ((e.p.val + k) % 16) 0) := by
  have hmod : (e.p.val + k) % 16 < e.s.toList.length := by simpa using Nat.mod_lt _ (by decide)
  rw [engineImage, h6, List.getD_eq_getElem _ _ hmod]
  simp only [xImage, h6, List.getElem?_ofFn, hk, dif_pos, vector_get_eq, Fin.val_add, Vector.getElem_toList]

/-- The image word by word, kind by kind (42_cmwc.md R171, 43_xoroshiro.md R197). -/
theorem engineImage_getElem? {c : Params} (hwf : c.wf = true) (e : Engine) {k : Nat} (hk : k < c.stateWords) :
    (engineImage c e)[k]? = some (
      if c.kind = .cmwc then
        if k < c.cmwcN then (e.q.getD ((e.cur + k) % c.cmwcN) 0).setWidth 64 else e.carry.setWidth 64
      else if c.kind = .xsh1024s then e.s.toList.getD ((e.p.val + k) % 16) 0
      else if k = 0 then e.s0 else e.s1) := by
  by_cases h0 : c.kind = .cmwc
  · have hle : k ≤ c.cmwcN := by simpa [Params.stateWords, h0, Nat.lt_succ_iff] using hk
    rw [engineImage, h0]
    simp only [cmwcImage_getElem? hwf h0, zext64, if_true]
    split
    · rfl
    · rw [if_pos (by omega)]
  by_cases h6 : c.kind = .xsh1024s
  · have hlt : k < 16 := by simpa [Params.stateWords, h6] using hk
    rw [if_neg h0, if_pos h6, xImage_1024_getElem? h6 e hlt]
  · have hlt : k < 2 := by
      rwa [← engineImage_length c e, xImage_two h0 h6] at hk
    rw [if_neg h0, if_neg h6, xImage_two h0 h6]
    obtain rfl | rfl : k = 0 ∨ k = 1 := by omega
    · rfl
    · rfl

/-- ENG.SAVE on a seeded engine stores the image and its length (44_engine_commands.md R240). -/
theorem exec_engSave {s : State} (hseeded : s.seeded = true) :
    exec .engSave s = .next { s with
      buf := s.buf.writeWords 0 (engineImage s.params s.eng)
      result := BitVec.ofNat 64 s.params.stateWords }.succeed := by
  simp only [exec, execEngSave, hseeded, Bool.not_true, check_false]

/-- Settles O54, by the words written, which are the image's, and their number. -/
theorem saveCommand : Obligations.SaveCommand := by
  intro s hI hseeded
  have hread := Memory.readWord_writeWords hI.canonical 0 (engineImage s.params s.eng)
  rw [engineImage_length, Nat.zero_add] at hread
  refine ⟨_, exec_engSave hseeded, rfl, fun k hk => ?_, fun k hk => ?_⟩
  · rw [State.succeed_buf, hread, if_neg (by omega)]
  · rw [State.succeed_buf, hread, if_pos ⟨Nat.zero_le k, hk⟩, Nat.sub_zero, engineImage_getElem? hI.params s.eng hk]

/-! ### ENG.LOAD -/

/-- ENG.LOAD of STATE_WORDS written entries checks their values, and installs them (44_engine_commands.md R241). -/
theorem exec_engLoad {s : State} {ws : List U64} (hlen : ws.length = s.params.stateWords) (hle : ws.length ≤ s.params.bufWords)
    (hbuf : s.bufHolds ws) :
    exec (.engLoad ws.length) s =
      check (badImage s.params ws) .badValue s (.next (s.installEngine (engineLoad s.params ws s.eng)).succeed) := by
  have hread : s.buf.readWords 0 s.params.stateWords = .ok ws :=
    hlen ▸ Memory.readWords_eq_ok fun j hj => by rw [Nat.zero_add]; exact hbuf j hj
  have hlength : decide (ws.length ≠ s.params.stateWords) = false := decide_eq_false (not_not.mpr hlen)
  simp only [exec, execEngLoad, decide_eq_false (Nat.not_lt.mpr hle), hlength, check_false, withBuf_ok hread]

/-- Which images are outside the valid domain (60_exceptions.md R288). -/
theorem badImage_eq_true_iff (c : Params) (ws : List U64) :
    badImage c ws = true ↔ if c.kind = .cmwc then ∃ w ∈ ws, 2 ^ 32 ≤ w.toNat else ∀ w ∈ ws, w = 0 := by
  cases hk : c.kind <;> simp [badImage, hk, someWide, allZero]

/-- Load! written out, kind by kind (42_cmwc.md R172, 43_xoroshiro.md R197). -/
theorem engineLoad_eq (c : Params) (ws : List U64) (e : Engine) :
    engineLoad c ws e =
      if c.kind = .cmwc then
        { e with
          q := (List.range c.cmwcN).map fun k => (ws.getD k 0).setWidth 32
          carry := (ws.getD c.cmwcN 0).setWidth 32
          cur := 0 }
      else if c.kind = .xsh1024s then { e with s := Vector.ofFn fun k => ws.getD k.val 0, p := 0 }
      else { e with s0 := ws.getD 0 0, s1 := ws.getD 1 0 } := by
  cases hk : c.kind
  case cmwc => simp only [engineLoad, hk, cmwcLoad, lo32_eq_setWidth, if_true]
  all_goals simp only [engineLoad, hk, xSetImage, reduceCtorEq, if_true, if_false]

/-- Settles O55, by whether the value check fails. -/
theorem loadChecksValues : Obligations.LoadChecksValues := by
  intro s ws hlen hle hbuf bad
  have hbad : badImage s.params ws = true ↔ bad := badImage_eq_true_iff s.params ws
  rw [exec_engLoad hlen hle hbuf, ← engineLoad_eq]
  refine ⟨fun h => ?_, fun h => ?_⟩
  · rw [hbad.mpr h, check_true]
    rfl
  · rw [Bool.eq_false_iff.mpr (mt hbad.mp h), check_false]
    rfl

end Sys2Proof.Machine
end

section
/-! PROOFS. Expand in closed form (spec/43_xoroshiro.md R198, R199), ENG.NEXT on kinds 1-6 (R191-R195), and one jump as the XOR of the images
at the set bits of its table (R205, R206). -/

namespace Sys2Proof.Machine

/-! ### Expand -/

/-- Settles O42: the words one by one, and that they are not all zero. -/
theorem expandNeverAllZero : Obligations.ExpandNeverAllZero := by
  intro c sv w hwf hw
  refine ⟨expand_length c sv w, expand_getElem? c sv w, ?_⟩
  simpa [allZero, List.all_eq_false] using expand_allZero hwf sv hw

/-! ### ENG.NEXT -/

/-- Next! of kinds 1-4 (43_xoroshiro.md R191-R193). -/
theorem engineNext_xoro {c : Params} (hk : c.kind ∈ [.xrsr128p, .xrsr128ps, .xrsr128pss, .xrsr128psss]) (e : Engine) :
    engineNext c e = (outputOf c (e.s0 + e.s1), xoroAdvance e) := by
  simp only [List.mem_cons, List.not_mem_nil, or_false] at hk
  rcases hk with hk | hk | hk | hk <;> simp only [engineNext, xNext, xAdvance, hk]

/-- Settles O46: the output function kind by kind, the advance being the same for all four. -/
theorem xoroshiroNextCommand : Obligations.XoroshiroNextCommand := by
  intro s out hseeded r fold u hout
  obtain ⟨hk, rfl⟩ : s.params.kind ∈ [.xrsr128p, .xrsr128ps, .xrsr128pss, .xrsr128psss] ∧ out = outputOf s.params r := by
    rcases hout with ⟨hk, rfl⟩ | ⟨hk, rfl⟩ | ⟨hk, rfl⟩ | ⟨hk, rfl⟩
    all_goals
      rw [outputOf, hk]
      exact ⟨by decide, rfl⟩
  rw [exec_engNext hseeded, engineNext_xoro hk]
  rfl

/-- Settles O47: Next! of kind 5 is the sum and the xorshift128 advance. -/
theorem xorshift128NextCommand : Obligations.Xorshift128NextCommand := by
  intro s hk hseeded a b
  have hnext : engineNext s.params s.eng = (s.eng.s0 + s.eng.s1, xsh128Advance s.params s.eng) := by
    simp only [engineNext, xNext, outputOf, xAdvance, hk]
  rw [exec_engNext hseeded, hnext]
  rfl

/-- Next! of kind 6 is the word just written times the multiplier, and the xorshift1024 advance (43_xoroshiro.md R195). -/
theorem engineNext_1024 {c : Params} (h6 : c.kind = .xsh1024s) (e : Engine) :
    engineNext c e =
      (xsh1024Word c (e.s.get e.p) (e.s.get (nextP e.p)) * c.xsh1024Mult, xsh1024Advance c e) := by
  have hword : (xsh1024Advance c e).s.get (xsh1024Advance c e).p = xsh1024Word c (e.s.get e.p) (e.s.get (nextP e.p)) :=
    (xsh1024Advance_get ..).trans (if_pos rfl)
  simp only [engineNext, xNext, xAdvance, h6, hword]

/-- A word of S, read from S as a list. -/
theorem toList_getD_eq_get (v : Vector U64 16) (i : Fin 16) : v.toList.getD i.val 0 = v.get i := by
  rw [List.getD_eq_getElem _ _ (by simp), Vector.getElem_toList, vector_get_eq]

/-- Settles O48: the cursor is P + 1 modulo 16, and S the old list with one word set. -/
theorem xorshift1024NextCommand : Obligations.Xorshift1024NextCommand := by
  intro s h6 hseeded p s0 s1 t w
  have hp : (nextP s.eng.p).val = p := Fin.val_add ..
  have hw : xsh1024Word s.params (s.eng.s.get s.eng.p) (s.eng.s.get (nextP s.eng.p)) = w := by
    rw [← toList_getD_eq_get, ← toList_getD_eq_get, hp]
    rfl
  refine ⟨_, exec_engNext hseeded, ?_⟩
  rw [engineNext_1024 h6, hw]
  refine ⟨rfl, hp, ?_, rfl⟩
  simp only [State.succeed_eng, xsh1024Advance, Vector.toList_set, hw, hp]

/-! ### One jump -/

/-- A jump consumes 64 bits for each word of the table (43_xoroshiro.md R205). -/
theorem jumpBits_length (table : List U64) : (jumpBits table).length = 64 * table.length := by
  simp [jumpBits, List.length_flatMap, Nat.mul_comm]

/-- The n-th bit consumed is bit n mod 64 of word n / 64 (43_xoroshiro.md R205). -/
theorem jumpBits_getD (table : List U64) (n : Nat) :
    (jumpBits table).getD n false = (table.getD (n / 64) 0).getLsbD (n % 64) := by
  induction table generalizing n with
  | nil => simp [jumpBits]
  | cons w ws ih =>
    have hcons : jumpBits (w :: ws) = (List.range 64).map (fun b => w.getLsbD b) ++ jumpBits ws := List.flatMap_cons
    rw [hcons]
    by_cases hn : n < 64
    · rw [List.getD_append _ _ _ _ (by simpa using hn), Nat.div_eq_of_lt hn, Nat.mod_eq_of_lt hn]
      simp [hn]
    · obtain ⟨m, rfl⟩ := Nat.exists_eq_add_of_le (Nat.le_of_not_lt hn)
      rw [List.getD_append_right _ _ _ _ (by simp), Nat.add_div_left _ (by decide), Nat.add_mod_left, List.getD_cons_succ, ← ih]
      simp

/-- XOR word by word. -/
theorem xorWords_getD {acc img : List U64} (h : acc.length = img.length) (k : Nat) :
    (xorWords acc img).getD k 0 = acc.getD k 0 ^^^ img.getD k 0 := by
  by_cases hk : k < acc.length
  · simp [xorWords, hk, h ▸ hk]
  · simp [xorWords, hk, h ▸ hk]

section Accumulator

variable {c : Params} (hk : c.kind ≠ .cmwc)
include hk

/-- Consuming a bit keeps the accumulator's length. -/
theorem xorWords_xImage_length {acc : List U64} (h : acc.length = c.stateWords) (e : Engine) :
    (xorWords acc (xImage c e)).length = c.stateWords := by
  rw [xorWords, List.length_zipWith, xImage_length c e hk, h, Nat.min_self]

/-- The accumulator of a jump has STATE_WORDS words throughout (43_xoroshiro.md R205). -/
theorem jumpAcc_length (bits : List Bool) {acc : List U64} (h : acc.length = c.stateWords) (e : Engine) :
    (jumpAcc c bits acc e).length = c.stateWords := by
  induction bits generalizing acc e with
  | nil => exact h
  | cons b bs ih =>
    refine ih ?_ _
    split
    · exact xorWords_xImage_length hk h e
    · exact h

/-- The accumulator word by word: the image after n advances is XORed in for each set bit n (43_xoroshiro.md R205). -/
theorem jumpAcc_getD (bits : List Bool) {acc : List U64} (h : acc.length = c.stateWords) (e : Engine) (k : Nat) :
    (jumpAcc c bits acc e).getD k 0 =
      ((List.range bits.length).filter fun n => bits.getD n false).foldl
        (fun x n => x ^^^ (xImage c ((xAdvance c)^[n] e)).getD k 0) (acc.getD k 0) := by
  induction bits generalizing acc e with
  | nil => rfl
  | cons b bs ih =>
    have hlen := h.trans (xImage_length c e hk).symm
    rw [List.length_cons, List.range_succ_eq_map, List.filter_cons, List.filter_map, jumpAcc]
    cases b
    · exact (ih h _).trans (by simp [List.foldl_map, Function.comp_def])
    · exact (ih (xorWords_xImage_length hk h e) _).trans (by rw [xorWords_getD hlen]; simp [List.foldl_map, Function.comp_def])

end Accumulator

/-- For kinds 1-6 the image is XImage (44_engine_commands.md R230). -/
theorem engineImage_eq_xImage {c : Params} (hk : c.kind ≠ .cmwc) (e : Engine) : engineImage c e = xImage c e := by
  cases h : c.kind <;> simp_all [engineImage]

/-- The image installed is the image read back (43_xoroshiro.md R197). -/
theorem engineImage_xSetImage {c : Params} (hk : c.kind ≠ .cmwc) {w : List U64} (h : w.length = c.stateWords) (e : Engine) :
    engineImage c (xSetImage c w e) = w := by
  by_cases h6 : c.kind = .xsh1024s
  · rw [engineImage_eq_xImage hk]
    refine List.ext_getElem (by rw [xImage_length c _ hk, h]) fun k _ hkw => ?_
    simp only [xImage, xSetImage, h6, List.getElem_ofFn, zero_add, vector_get_eq, Vector.getElem_ofFn]
    exact List.getD_eq_getElem w 0 hkw
  · rw [xImage_two hk h6]
    have h2 : w.length = 2 := by
      rw [h, ← engineImage_length c e, xImage_two hk h6]
      rfl
    obtain ⟨a, b, rfl⟩ := List.length_eq_two.mp h2
    cases hkind : c.kind <;> simp_all [xSetImage]

/-- The jump table of a kind 1-6 (43_xoroshiro.md R206). -/
theorem jumpTable_eq {c : Params} (hk : c.kind ≠ .cmwc) :
    jumpTable c = if c.kind = .xsh1024s then c.xsh1024Jump else if c.kind = .xsh128p then c.xsh128Jump else c.xrsrJump := by
  cases h : c.kind <;> simp_all [jumpTable]

/-- Settles O50: the accumulator's words are the sums, its bits those of the table, and installing it sets the image and clears P. -/
theorem jumpSumsImages : Obligations.JumpSumsImages := by
  intro c e hk table
  have htable : jumpTable c = table := jumpTable_eq hk
  have hzeros : (List.replicate c.stateWords (0 : U64)).length = c.stateWords := List.length_replicate
  refine ⟨fun k hlt => ?_, fun h6 => by simp only [xJumpOnce, xSetImage, h6]⟩
  rw [xJumpOnce, engineImage_xSetImage hk (jumpAcc_length hk _ hzeros e), jumpAcc_getD hk _ hzeros, List.getD_replicate _ hlt, htable]
  simp only [jumpBits_length, jumpBits_getD, engineImage_eq_xImage hk]

end Sys2Proof.Machine
end

section
/-! PROOFS. ENG.SEEDBUF and ENG.SEEDMIX (spec/44_engine_commands.md R234, R235): the model's two seedings from words are `seededFrom` of the
words that the kind installs. -/

namespace Sys2Proof.Machine

/-! ### The words a seeding installs -/

/-- Expand is the list of its words (43_xoroshiro.md R198). -/
theorem expand_eq_expandedWords (c : Params) (sv : U64) : expand c sv c.stateWords = expandedWords c sv := by
  refine List.ext_getElem (by rw [expand_length, expandedWords, List.length_map, List.length_range]) fun k hk _ => ?_
  rw [expand_length] at hk
  have hword := expand_getElem? c sv _ k hk
  rw [List.getElem?_eq_getElem (by rwa [expand_length])] at hword
  simpa [expandedWords] using hword

/-- The fallback over the fold of `p`, as the model writes it (43_xoroshiro.md R200, R203, R204). -/
theorem orFallback_eq (c : Params) (w p : List U64) :
    orFallback c w p = if allZero w then expand c (foldSeed c p) c.stateWords else w := by
  have hzero : allZero w = true ↔ ∀ x ∈ w, x = 0 := by simp [allZero]
  rw [expand_eq_expandedWords, orFallback, foldSeed]
  simp only [hzero]

/-- Pairing word by word, over the zero-extended words: pair k has word 2k as its low half and word 2k + 1 as its high half
(43_xoroshiro.md R204). -/
theorem pairWords_eq_map {n : Nat} {ws : List U32} (h : ws.length = 2 * n) :
    pairWords ws =
      (List.range n).map fun k => (wideWords ws).getD (2 * k) 0 ||| ((wideWords ws).getD (2 * k + 1) 0 <<< 32) := by
  induction n generalizing ws with
  | zero =>
    obtain rfl : ws = [] := List.length_eq_zero_iff.mp h
    rfl
  | succ n ih =>
    match ws, h with
    | lo :: hi :: rest, h =>
      rw [pairWords, ih (by simpa [Nat.mul_add] using h), List.range_succ_eq_map, List.map_cons, List.map_map]
      rfl

/-! ### Seeding from words -/

/-- `seededFrom` on CMWC is filling and warming up (42_cmwc.md R166-R169). -/
theorem seededFrom_cmwc {c : Params} (hk : c.kind = .cmwc) (w : List U64) (e : Engine) : seededFrom c w e = cmwcSeedWords c w e := by
  simp only [seededFrom, hk, if_true, cmwcSeedWords, cmwcWarmup, cmwcDiscard, cmwcFill, reduceCarry, lo32_eq_setWidth]

/-- `seededFrom` on kinds 1-6 is installing the image and warming up (43_xoroshiro.md R197, R201). -/
theorem seededFrom_x {c : Params} (hk : c.kind ≠ .cmwc) (w : List U64) (e : Engine) :
    seededFrom c w e = xWarmup c (xSetImage c w e) := by
  cases h : c.kind
  case cmwc => exact absurd h hk
  all_goals simp only [seededFrom, h, reduceCtorEq, if_true, if_false, xWarmup, xWarmupCount, xDiscard, xSetImage]

/-- SeedWords! of every kind (44_engine_commands.md R230, 42_cmwc.md R169, 43_xoroshiro.md R203). -/
theorem seedWords_eq_seededFrom (c : Params) (w : List U64) (e : Engine) :
    seedWords c w e = seededFrom c (if c.kind = .cmwc then w else orFallback c w w) e := by
  by_cases hk : c.kind = .cmwc
  · rw [if_pos hk, seededFrom_cmwc hk, seedWords, hk]
  · have hx : seedWords c w e = xSeedWords c w e := by cases h : c.kind <;> simp_all [seedWords]
    rw [if_neg hk, seededFrom_x hk, hx, xSeedWords, seedWordsOrFallback, orFallback_eq]

/-- SeedMixer! of every kind (44_engine_commands.md R230, 42_cmwc.md R170, 43_xoroshiro.md R204). -/
theorem seedMixer_eq_seededFrom (c : Params) (pool : List U32) (e : Engine) :
    seedMixer c pool e = seededFrom c
      (if c.kind = .cmwc then wideWords (generate c pool (c.cmwcN + 1))
        else orFallback c (pairWords (generate c pool (2 * c.stateWords))) (wideWords (param c pool))) e := by
  by_cases hk : c.kind = .cmwc
  · rw [if_pos hk, seededFrom_cmwc hk, seedMixer, hk]
    rfl
  · have hx : seedMixer c pool e = xSeedMixer c pool e := by cases h : c.kind <;> simp_all [seedMixer]
    rw [if_neg hk, seededFrom_x hk, hx, xSeedMixer, mixerWordsOrFallback, orFallback_eq]

/-! ### The two commands -/

/-- A command that reads the entries BUF[0..n-1] gets the words they hold (00_scope.md R20). -/
theorem State.bufHolds.readWords_eq {s : State} {ws : List U64} {n : Nat} (h : s.bufHolds ws) (hn : ws.length = n) :
    s.buf.readWords 0 n = .ok ws :=
  hn ▸ Memory.readWords_eq_ok fun j hj => by rw [Nat.zero_add]; exact h j hj

/-- ENG.SEEDBUF with enough written entries installs the engine seeded from the first STATE_WORDS (44_engine_commands.md R235). -/
theorem exec_engSeedbuf {s : State} {ws : List U64} {len : Nat} (hle : len ≤ s.params.bufWords) (hge : s.params.stateWords ≤ len)
    (hlen : ws.length = s.params.stateWords) (hbuf : s.bufHolds ws) :
    exec (.engSeedbuf len) s = .next (s.installEngine (seedWords s.params ws s.eng)).succeed := by
  simp only [exec, execEngSeedbuf, decide_eq_false (Nat.not_lt.mpr hle), decide_eq_false (Nat.not_lt.mpr hge), check_false,
    withBuf_ok (hbuf.readWords_eq hlen)]

/-- Settles O40: the words read are those that `seededFrom` takes. -/
theorem seedbufCommand : Obligations.SeedbufCommand := by
  intro s ws len hle hge hlen hbuf
  rw [exec_engSeedbuf hle hge hlen hbuf, seedWords_eq_seededFrom]
  rfl

/-- ENG.SEEDMIX with a full pool installs the engine seeded from the mixer (44_engine_commands.md R234). -/
theorem exec_engSeedmix {s : State} (hfull : s.mixfull = true) :
    exec .engSeedmix s = .next (s.installEngine (seedMixer s.params s.pool s.eng)).succeed := by
  simp only [exec, execEngSeedmix, hfull, Bool.not_true, check_false]

/-- Settles O41: the pool is full, and the mixer's words are paired one by one. -/
theorem seedmixCommand : Obligations.SeedmixCommand := by
  intro s hfull c wide g paired
  have hpaired : pairWords (generate s.params s.pool (2 * s.params.stateWords)) = paired :=
    pairWords_eq_map (generateFrom_length s.params s.pool (2 * s.params.stateWords) 0 s.params.smxInitB)
  rw [exec_engSeedmix hfull, seedMixer_eq_seededFrom, hpaired]
  rfl

end Sys2Proof.Machine
end

section
/-! PROOFS. A run of ENG.NEXT commands, ENG.GEN and ENG.DISCARD as such runs (spec/44_engine_commands.md R236-R238, R244), ENG.EQ (R242), and
the round trip of an image through BUF (R240, R241, R243). -/

namespace Sys2Proof.Machine

/-! ### A run of ENG.NEXT commands -/

/-- The state that ENG.NEXT leaves on a seeded engine (44_engine_commands.md R236). -/
def State.nextOutput (s : State) : State :=
  { s with result := (engineNext s.params s.eng).1, eng := (engineNext s.params s.eng).2 }.succeed

/-- The state that `n` ENG.NEXT commands leave on a seeded engine. -/
def State.nextRun (s : State) (n : Nat) : State := State.nextOutput^[n] s

theorem State.nextRun_succ (s : State) (n : Nat) : s.nextRun (n + 1) = (s.nextRun n).nextOutput :=
  Function.iterate_succ_apply' _ _ _

/-- One or more ENG.NEXT commands advance the engine as often as they are, leave the last output in RESULT, and change nothing else but ERR
and BUSY. -/
theorem State.nextRun_succ_eq (s : State) (n : Nat) :
    s.nextRun (n + 1) = { s with
      result := (engineNext s.params ((fun e => (engineNext s.params e).2)^[n] s.eng)).1
      eng := (fun e => (engineNext s.params e).2)^[n + 1] s.eng }.succeed := by
  induction n with
  | zero => rfl
  | succ n ih =>
    rw [State.nextRun_succ, ih, Function.iterate_succ_apply' _ (n + 1)]
    rfl

/-- The engine after a run of ENG.NEXT commands. -/
theorem State.nextRun_eng (s : State) (n : Nat) : (s.nextRun n).eng = (fun e => (engineNext s.params e).2)^[n] s.eng := by
  cases n with
  | zero => rfl
  | succ n => rw [State.nextRun_succ_eq]; rfl

/-- Each command of the run completes with the run's next state. -/
theorem exec_engNext_nextRun {s : State} (hseeded : s.seeded = true) (n : Nat) :
    exec .engNext (s.nextRun n) = .next (s.nextRun (n + 1)) := by
  have hrun : (s.nextRun n).seeded = true := by
    cases n with
    | zero => exact hseeded
    | succ n => rw [State.nextRun_succ_eq]; exact hseeded
  rw [State.nextRun_succ, exec_engNext hrun]
  rfl

/-! ### ENG.GEN and ENG.DISCARD -/

/-- ENG.GEN on a seeded engine stores LEN outputs and leaves the engine after them (44_engine_commands.md R237). -/
theorem exec_engGen {s : State} {len : Nat} (hle : len ≤ s.params.bufWords) (hseeded : s.seeded = true) :
    exec (.engGen len) s = .next { s with
      buf := s.buf.writeWords 0 (engineGen s.params len s.eng).1
      eng := (engineGen s.params len s.eng).2 }.succeed := by
  simp only [exec, execEngGen, decide_eq_false (Nat.not_lt.mpr hle), hseeded, Bool.not_true, check_false]

/-- Settles O52: the words written are the outputs at the run's engines, and the engine left is the run's last. -/
theorem genIsRepeatedNext : Obligations.GenIsRepeatedNext := by
  intro s len hwf hseeded hle
  have hread := Memory.readWord_writeWords hwf 0 (engineGen s.params len s.eng).1
  rw [engineGen_length, Nat.zero_add] at hread
  refine ⟨s.nextRun, _, rfl, fun k _ => exec_engNext_nextRun hseeded k, exec_engGen hle hseeded, ?_, fun k hk => ?_, fun k hk => ?_, rfl⟩
  · rw [State.nextRun_eng, State.succeed_eng, engineGen_snd]
  · rw [State.succeed_buf, hread, if_pos ⟨Nat.zero_le k, hk⟩, Nat.sub_zero, engineGen_getElem? _ _ _ _ hk, State.nextRun_succ_eq,
      State.succeed_result]
  · rw [State.succeed_buf, hread, if_neg (by omega)]

/-- ENG.DISCARD on a seeded engine drops ARG0 outputs (44_engine_commands.md R238). -/
theorem exec_engDiscard {s : State} (hseeded : s.seeded = true) :
    exec .engDiscard s = .next { s with eng := (fun e => (engineNext s.params e).2)^[s.arg0.toNat] s.eng }.succeed := by
  simp only [exec, execEngDiscard, hseeded, Bool.not_true, check_false, engineDiscard_eq_iterate, State.arg0Count]

/-- Settles O53: ENG.NEXT after the discard leaves the run's state after ARG0 + 1 commands. -/
theorem discardThenNext : Obligations.DiscardThenNext := by
  intro s hseeded
  refine ⟨_, _, s.nextRun, exec_engDiscard hseeded, exec_engNext hseeded, rfl, fun k _ => exec_engNext_nextRun hseeded k, ?_, rfl⟩
  rw [State.nextRun_succ_eq, Function.iterate_succ_apply']
  rfl

/-! ### ENG.EQ -/

/-- ENG.EQ of STATE_WORDS written entries compares the image with them (44_engine_commands.md R242). -/
theorem exec_engEq {s : State} {ws : List U64} (hlen : ws.length = s.params.stateWords) (hle : s.params.stateWords ≤ s.params.bufWords)
    (hseeded : s.seeded = true) (hbuf : s.bufHolds ws) :
    exec (.engEq s.params.stateWords) s =
      .next { s with result := if engineImage s.params s.eng = ws then 1 else 0 }.succeed := by
  simp only [exec, execEngEq, decide_eq_false (Nat.not_lt.mpr hle), hseeded, Bool.not_true, ne_eq, not_true_eq_false, decide_false,
    check_false, withBuf_ok (hbuf.readWords_eq hlen)]

/-- After words were stored from BUF[0] on, BUF holds them. -/
theorem State.bufHolds_of_buf_eq {s : State} {m : Memory} {ws : List U64} (hm : m.wf) (h : s.buf = m.writeWords 0 ws) : s.bufHolds ws := by
  intro k hk
  rw [h, Memory.readWord_writeWords hm, if_pos (by omega), Nat.sub_zero]

/-- Settles O56: the comparison against written entries, and against the entries that ENG.SAVE has just written. -/
theorem eqComparesImages : Obligations.EqComparesImages := by
  intro s ws hI hseeded hlen hbuf
  have hle := (Params.wf_sizes hI.params).1
  refine ⟨hlen ▸ exec_engEq hlen hle hseeded hbuf, _, _, exec_engSave hseeded,
    exec_engEq (engineImage_length ..) hle hseeded (State.bufHolds_of_buf_eq hI.canonical rfl), if_pos rfl⟩

/-! ### The round trip of an image -/

/-- The image of an engine, non-zero for kinds 1-6, passes ENG.LOAD's value check (60_exceptions.md R288). -/
theorem badImage_engineImage {c : Params} {e : Engine} (hn : c.kind ≠ .cmwc → e.nonzero c) : badImage c (engineImage c e) = false := by
  by_cases hk : c.kind = .cmwc
  · have hsmall (v : U32) : ¬ 4294967296 ≤ (zext64 v).toNat := by rw [zext64_toNat]; exact Nat.not_le.mpr v.isLt
    simp [badImage, engineImage, hk, someWide, cmwcImage, hsmall]
  · have hx : badImage c (engineImage c e) = allZero (engineImage c e) := by cases h : c.kind <;> simp_all [badImage]
    exact hx.trans (hn hk)

/-- A loaded image that passed the value check is read back, CUR or P being 0 (42_cmwc.md R171-R173, 43_xoroshiro.md R197). -/
theorem engineImage_engineLoad {c : Params} (hwf : c.wf = true) {w : List U64} (hlen : w.length = c.stateWords)
    (hgood : badImage c w = false) (e : Engine) : engineImage c (engineLoad c w e) = w := by
  by_cases hk : c.kind = .cmwc
  · have hN : w.length = c.cmwcN + 1 := by simpa [Params.stateWords, hk] using hlen
    have hword {k : Nat} (h : k < w.length) : some (zext64 (lo32 (w.getD k 0))) = w[k]? := by
      simp only [badImage, hk, someWide, List.any_eq_false, decide_eq_true_eq, Nat.not_le] at hgood
      rw [List.getD_eq_getElem _ _ h, List.getElem?_eq_getElem h, zext64_lo32 (hgood _ (List.getElem_mem h))]
    simp only [engineImage, engineLoad, hk]
    refine List.ext_getElem? fun k => ?_
    rw [cmwcImage_getElem? hwf hk]
    split
    · next h => rw [← hword (by omega)]; simp [cmwcLoad, Nat.mod_eq_of_lt h, h]
    · split
      · next h => rw [h]; exact hword (by omega)
      · rw [List.getElem?_eq_none (by omega)]
  · have hx : engineLoad c w e = xSetImage c w e := by cases h : c.kind <;> simp_all [engineLoad]
    rw [hx, engineImage_xSetImage hk hlen]

/-- Engines with equal images have the same next output and equal images after it (10_state.md R52); the shape matters for CMWC only. -/
theorem engineNext_congr {c : Params} {e₁ e₂ : Engine} (hwf : c.wf = true) (h₁ : c.kind = .cmwc → e₁.shaped c)
    (h₂ : c.kind = .cmwc → e₂.shaped c) (h : engineImage c e₁ = engineImage c e₂) :
    (engineNext c e₁).1 = (engineNext c e₂).1 ∧ engineImage c (engineNext c e₁).2 = engineImage c (engineNext c e₂).2 := by
  by_cases hk : c.kind = .cmwc
  · exact engineNext_congr_cmwc hwf hk (h₁ hk) (h₂ hk) h
  · by_cases h6 : c.kind = .xsh1024s
    · exact engineNext_congr_1024 h6 h
    · exact engineNext_congr_two hk h6 h

/-- Engines with equal images have the same outputs, however many are asked for (44_engine_commands.md R243). -/
theorem engineGen_congr {c : Params} {e₁ e₂ : Engine} (hwf : c.wf = true) (h₁ : c.kind = .cmwc → e₁.shaped c)
    (h₂ : c.kind = .cmwc → e₂.shaped c) (h : engineImage c e₁ = engineImage c e₂) (n : Nat) :
    (engineGen c n e₁).1 = (engineGen c n e₂).1 := by
  induction n generalizing e₁ e₂ with
  | zero => rfl
  | succ n ih =>
    obtain ⟨hout, himage⟩ := engineNext_congr hwf h₁ h₂ h
    have hrest := ih (fun hk => engineNext_shaped hwf (h₁ hk)) (fun hk => engineNext_shaped hwf (h₂ hk)) himage
    simp only [engineGen, hout, hrest]

/-- Loading on CMWC gives the shape, whatever the engine was before (42_cmwc.md R172). -/
theorem engineLoad_shaped_cmwc {c : Params} (hwf : c.wf = true) (hk : c.kind = .cmwc) (w : List U64) (e : Engine) :
    (engineLoad c w e).shaped c := by
  have hN := (Params.wf_cmwc hwf hk).1
  simp only [engineLoad, hk]
  exact ⟨by simp [cmwcLoad, Params.qWords, hk], fun _ => by simp only [cmwcLoad]; omega⟩

/-- Settles O57: the words saved pass the value check, and the engine they load has their image. -/
theorem saveThenLoadResumes : Obligations.SaveThenLoadResumes := by
  intro s₁ s₂ t₁ hI hn hseeded hc hsave hbuf
  have hlen := engineImage_length s₁.params s₁.eng
  have hgood : badImage s₁.params (engineImage s₁.params s₁.eng) = false := badImage_engineImage fun hk => hn hk hseeded
  have himage := engineImage_engineLoad hI.params hlen hgood s₂.eng
  have hheld : s₂.bufHolds (engineImage s₁.params s₁.eng) := by
    rw [exec_engSave hseeded] at hsave
    obtain rfl := Host.Outcome.next.inj hsave
    exact fun k hk => (hbuf k (hlen ▸ hk)).trans (State.bufHolds_of_buf_eq hI.canonical rfl k hk)
  have hload := exec_engLoad (by rw [hc, hlen]) (by rw [hc, hlen]; exact (Params.wf_sizes hI.params).1) hheld
  rw [hc, hlen, hgood, check_false] at hload
  refine ⟨_, hload, rfl, ?_, fun n => ?_⟩
  all_goals simp only [State.succeed_params, State.installEngine_params, State.succeed_eng, State.installEngine_eng, hc]
  · exact himage
  · exact engineGen_congr hI.params (fun hk => engineLoad_shaped_cmwc hI.params hk _ _) (fun _ => hI.engine) himage n

end Sys2Proof.Machine
end

section
/-! PROOFS. The control commands (spec/45_control_commands.md): each is a completion (60_exceptions.md R291), after its own writes or none. -/

namespace Sys2Proof.Machine

/-- The completion has the status bits of the state it completes, ERR and BUSY apart: with the four clear, STATUS reads 0
(10_state.md R34, 60_exceptions.md R291). -/
theorem statusWord_succeed_eq_zero {s : State} (hseeded : s.seeded = false) (hmixfull : s.mixfull = false) (hovr : s.ovr = false)
    (herrseen : s.errseen = false) : statusWord s.succeed = 0 :=
  statusWord_eq_zero s.succeed_pending hseeded hmixfull hovr herrseen s.succeed_err

/-- CTL.NOP is the completion alone (45_control_commands.md R270). -/
theorem exec_ctlNop (s : State) : exec .ctlNop s = .next s.succeed := rfl

/-- CTL.CLRERR clears the sticky bits before it completes (45_control_commands.md R271). -/
theorem exec_ctlClrerr (s : State) : exec .ctlClrerr s = .next { s with ovr := false, errseen := false }.succeed := rfl

/-- CTL.RESET gives every element but BUF its power-on value before it completes (45_control_commands.md R272). -/
theorem exec_ctlReset (s : State) : exec .ctlReset s = .next s.resetKeepingBuf.succeed := rfl

/-- Settles O30: the words are rows of the opcode map, and after CTL.RESET no status bit is left. -/
theorem controlCommands : Obligations.ControlCommands := by
  refine ⟨rfl, rfl, rfl, fun s => ⟨exec_ctlNop s, exec_ctlClrerr s, s.resetKeepingBuf.succeed, exec_ctlReset s, ?_⟩⟩
  have hstatus : statusWord s.resetKeepingBuf.succeed = 0 :=
    statusWord_succeed_eq_zero s.resetKeepingBuf_seeded s.resetKeepingBuf_mixfull s.resetKeepingBuf_ovr s.resetKeepingBuf_errseen
  exact ⟨hstatus, s.resetKeepingBuf_arg0, s.resetKeepingBuf_result, s.resetKeepingBuf.succeed_pending, s.resetKeepingBuf_buf,
    s.resetKeepingBuf_params⟩

end Sys2Proof.Machine
end

section
/-! PROOFS. How a command ends (spec/60_exceptions.md): the error completion of the first check that fails (R289, R290), success (R291), the
illegal word (R282), and the idle block and the CMD write around them (R292, R301). -/

namespace Sys2Proof.Machine

/-! ### The first failed check -/

/-- If `e` is an error, the outcome `o` of a command in state `s` is the error completion with code `e` (60_exceptions.md R290). -/
def RaisesIfError (s : State) (e : ErrCode) (o : Host.Outcome State Fault Refusal) : Prop := e ≠ .ok → o = .next (s.raise e)

/-- With no row of R289 left, what the command does next is free. -/
theorem RaisesIfError.rest {s : State} {o : Host.Outcome State Fault Refusal} : RaisesIfError s .ok o := fun h => absurd rfl h

/-- A check agrees with the row of R289 that has its condition and its code, and then with the rows below it. -/
theorem RaisesIfError.check {s : State} {bad : Bool} {p : Prop} [Decidable p] {e below : ErrCode} {rest : Host.Outcome State Fault Refusal}
    (hrest : RaisesIfError s below rest) (hbad : bad = true ↔ p := by simp) :
    RaisesIfError s (if p then e else below) (check bad e s rest) := by
  cases bad with
  | false => rwa [if_neg (by simp [← hbad]), check_false]
  | true => rw [if_pos (hbad.mp rfl), check_true]; exact fun _ => rfl

/-- The checks of a command are the rows of R289 that name it, in their order (60_exceptions.md R283-R287, R289). -/
theorem exec_raisesIfError (i : Instr) (s : State) : RaisesIfError s (firstError i s) (exec i s) := by
  cases i <;> simp only [firstError, Instr.opc, Instr.len, List.mem_cons, List.not_mem_nil, BitVec.ofNat_eq_ofNat, BitVec.reduceEq, or_self,
    or_true, or_false, true_and, false_and, ↓reduceIte]
  case engSeedbuf | engGen | engLoad | engJump | smxGen => exact .check (.check .rest)
  case engEq => exact .check (.check (.check .rest))
  case engSeedmix | engNext | engDiscard | engSave | smxSeed | smxParam => exact .check .rest
  case engSeeddef | engSeed | hshH64 | hshH32 | ctlNop | ctlClrerr | ctlReset => exact .rest

/-- Settles O21: the command's checks are R289's rows. -/
theorem firstFailedCheckIsRaised : Obligations.FirstFailedCheckIsRaised := exec_raisesIfError

/-! ### Error or success -/

/-- A completion that is no error has ERR = 0, and the sticky bits of the state before, but for CTL.CLRERR and CTL.RESET
(60_exceptions.md R291). -/
theorem Completes.raises_or_succeeds {i : Instr} {s t : State} (h : Completes i s t) :
    Raises s t ∨ t.err = .ok ∧ (i ≠ .ctlClrerr → i ≠ .ctlReset → t.errseen = s.errseen ∧ t.ovr = s.ovr) := by
  cases h with
  | raised e he => exact .inl ⟨e, he, rfl⟩
  | cleared hi => exact .inr ⟨rfl, fun hne => absurd hi hne⟩
  | reset hi => exact .inr ⟨rfl, fun _ hne => absurd hi hne⟩
  | installed | ran | absorbed => exact .inr ⟨rfl, fun _ _ => ⟨rfl, rfl⟩⟩

/-- Settles O22: a failed check of R289 leaves its error state, and with none failed the command completes in one of the ways of
`Completes`. -/
theorem completionIsErrorOrSuccess : Obligations.CompletionIsErrorOrSuccess := by
  intro i s t h
  by_cases hok : firstError i s = .ok
  · have hc := exec_completes h
    exact hc.raises_or_succeeds.imp_right fun ⟨herr, hsticky⟩ => ⟨hok, herr, hc.pending_eq, hsticky⟩
  · have hraised : exec i s = .next (s.raise (firstError i s)) := exec_raisesIfError i s hok
    exact .inl ⟨_, hok, Host.Outcome.next.inj (h.symm.trans hraised)⟩

/-! ### The illegal word -/

/-- The block's step on a word that does not decode (30_encoding.md R97). -/
theorem blockStep_illegal {s : State} {v : U64} (hp : s.pending = some v) (hv : ¬ ∃ i, decode v = .ok i) :
    blockStep s = .next (s.raise .illegal) := by
  cases hd : decode v with
  | ok i => exact absurd ⟨i, hd⟩ hv
  | error e => simp only [blockStep, hp, hd]

/-- Settles O6: a word at fault in one of the four ways does not decode. -/
theorem stepRaisesIllegal : Obligations.StepRaisesIllegal := by
  intro s v hp ha hill
  have hv : ¬ ∃ i, decode v = .ok i := by
    rw [decodeAcceptsExactly v]
    tauto
  obtain ⟨hbusy, -, -, -, herrseen, -, hcode, -⟩ := statusWord_fields (s.raise .illegal)
  exact ⟨s.raise .illegal, (step_busy (by simp [hp]) ha).trans (blockStep_illegal hp hv), rfl, hcode, herrseen, hbusy⟩

/-! ### The idle block and the CMD write -/

/-- Settles O7: the block has nothing to complete, and a WAIT passes. -/
theorem idleBlockDoesNothing : Obligations.IdleBlockDoesNothing := fun s hidle =>
  ⟨fun ha => by simp only [step, ha, blockStep, hidle], fun _ ha => step_wait_idle hidle ha⟩

/-- A CMD write with a command pending is dropped and sets OVR (10_state.md R38, 70_reset_and_hazards.md R314). -/
theorem step_cmd_busy {s : State} {v w : U64} {rest : List HostAction} (hp : s.pending = some w)
    (ha : s.actions = .access (.write (s.params.base + 0) 8 v) :: rest) : step s = .next { s with actions := rest, ovr := true } := by
  have hstep := step_write (off := 0) (by decide) rfl ha
  simpa [regAt, lowReg, hostWrite, State.writeCmd_busy v (s := { s with actions := rest }) hp] using hstep

/-- Settles O14: the write reaches CMD, with nothing or a command pending. -/
theorem cmdWriteLatchesOrDrops : Obligations.CmdWriteLatchesOrDrops := by
  intro s v rest ha
  refine ⟨fun hidle => step_cmd_idle hidle ha, fun hbusy => ?_⟩
  obtain ⟨w, hp⟩ := Option.ne_none_iff_exists'.mp hbusy
  exact step_cmd_busy hp ha

end Sys2Proof.Machine
end

section
/-! PROOFS. ENG.SEED and ENG.SEEDDEF (spec/44_engine_commands.md R232, R233), what the registers read as, and the host's accesses while a
command is pending (spec/70_reset_and_hazards.md R313-R317). -/

namespace Sys2Proof.Machine

/-! ### Seeding from one word -/

/-- SeedScalar! of every kind: the words expanded from the seed are installed and warmed up (44_engine_commands.md R230, 42_cmwc.md R167,
43_xoroshiro.md R202). -/
theorem seedScalar_eq_seededFrom (c : Params) (seed : U64) (e : Engine) :
    seedScalar c seed e = seededFrom c (expandedWords c seed) e := by
  rw [← expand_eq_expandedWords]
  cases hk : c.kind
  case cmwc => simp only [seededFrom_cmwc hk, seedScalar, hk, cmwcSeedScalar, cmwcSeedWords, Params.stateWords]
  all_goals simp only [seededFrom_x (c := c) (by simp [hk]), seedScalar, hk, xSeedScalar]

/-- ENG.SEED installs the engine seeded from ARG0 (44_engine_commands.md R233). -/
theorem exec_engSeed (s : State) : exec .engSeed s = .next (s.installEngine (seedScalar s.params s.arg0 s.eng)).succeed := rfl

/-- ENG.SEEDDEF installs the engine seeded from DEFAULT_SEED (44_engine_commands.md R232). -/
theorem exec_engSeeddef (s : State) :
    exec .engSeeddef s = .next (s.installEngine (seedScalar s.params s.params.defaultSeed s.eng)).succeed := rfl

/-- Settles O39: the two commands differ in the word they seed from. -/
theorem scalarSeedCommands : Obligations.ScalarSeedCommands := by
  intro s
  rw [exec_engSeed, exec_engSeeddef, seedScalar_eq_seededFrom, seedScalar_eq_seededFrom]
  exact ⟨rfl, rfl⟩

/-! ### What the registers read as -/

/-- CMWC_A as read by the host (10_state.md R42). -/
theorem cmwcAWord_eq (c : Params) : cmwcAWord c = if c.kind = .cmwc then c.cmwcA else 0 := by
  cases h : c.kind <;> simp [cmwcAWord, h]

/-- CMWC_CMAX as read by the host (10_state.md R42). -/
theorem cmwcCmaxWord_eq (c : Params) : cmwcCmaxWord c = if c.kind = .cmwc then BitVec.ofNat 64 c.cmwcCmax else 0 := by
  cases h : c.kind <;> simp [cmwcCmaxWord, h]

/-- OUT_MAX as read by the host (10_state.md R43). -/
theorem outMaxWord_eq (c : Params) : outMaxWord c = if c.kind = .cmwc then 0xFFFFFFFF else 0xFFFFFFFFFFFFFFFF := by
  cases h : c.kind <;> simp [outMaxWord, outWidth, h]

/-- Settles O11, register by register of the map. -/
theorem registersReadAsMapped : Obligations.RegistersReadAsMapped := by
  intro s rest off v hmap hidle ha
  simp only [← cmwcAWord_eq, ← cmwcCmaxWord_eq, ← outMaxWord_eq, List.mem_cons, Prod.mk.injEq, List.not_mem_nil, or_false] at hmap
  rcases hmap with ⟨rfl, rfl⟩ | ⟨rfl, rfl⟩ | ⟨rfl, rfl⟩ | ⟨rfl, rfl⟩ | ⟨rfl, rfl⟩ | ⟨rfl, rfl⟩ | ⟨rfl, rfl⟩ | ⟨rfl, rfl⟩ |
    ⟨rfl, rfl⟩ | ⟨rfl, rfl⟩ | ⟨rfl, rfl⟩
  case inr.inr.inr.inl => exact step_result_idle (hidle rfl) ha
  all_goals exact step_read (by decide) rfl ha

/-! ### Host accesses while a command is pending -/

section Busy

variable {s : State} {r : Reg}

/-- A write to ARG0 or to a BUF entry while BUSY = 1 faults (70_reset_and_hazards.md R315). -/
theorem hostWrite_busy (v : U64) (hbusy : s.pending ≠ none) (hr : r = .arg0 ∨ ∃ k, r = .buf k) :
    hostWrite r v s = .fault .writeWhileBusy := by
  have hbusy : s.busy = true := Option.isSome_iff_ne_none.mpr hbusy
  rcases hr with rfl | ⟨k, rfl⟩ <;> exact if_pos hbusy

/-- A read of RESULT or of a written BUF entry while BUSY = 1 logs the next free value (70_reset_and_hazards.md R316). -/
theorem hostRead_busy (addr : Nat) (hbusy : s.pending ≠ none) (hr : r = .result ∨ ∃ k, r = .buf k ∧ s.buf.readWord k ≠ none) :
    hostRead addr r s = .next (s.logFreeRead addr) := by
  have hbusy : s.busy = true := Option.isSome_iff_ne_none.mpr hbusy
  rcases hr with rfl | ⟨k, rfl, hwritten⟩
  · simp only [hostRead, hbusy, if_true]
  · obtain ⟨w, hw⟩ := Option.ne_none_iff_exists'.mp hwritten
    simp only [hostRead, hw, hbusy, if_true]

end Busy

/-- Settles O16: the offset is that of ARG0 or of a BUF entry. -/
theorem busyWritesFault : Obligations.BusyWritesFault := by
  intro s off v rest hbusy hoff ha
  have hreg : regAt s.params off = .arg0 ∨ ∃ k, regAt s.params off = .buf k := by
    rcases hoff with rfl | ⟨k, hk, -, rfl⟩
    · exact .inl rfl
    · exact .inr ⟨k, regAt_buf hk⟩
  rw [step_write (by omega) (by omega) ha]
  exact hostWrite_busy v hbusy hreg

/-- Settles O17: the offset is that of RESULT or of a written BUF entry. -/
theorem busyReadsAreFree : Obligations.BusyReadsAreFree := by
  intro s off rest hbusy hoff ha
  have hreg : regAt s.params off = .result ∨ ∃ k, regAt s.params off = .buf k ∧ s.buf.readWord k ≠ none := by
    rcases hoff with rfl | ⟨k, hk, -, rfl, hwritten⟩
    · exact .inl rfl
    · exact .inr ⟨k, regAt_buf hk, hwritten⟩
  rw [step_read (by omega) (by omega) ha]
  exact hostRead_busy _ hbusy hreg

end Sys2Proof.Machine
end
